-- ==== Sys2Proof/Word.lean ====
section
/-! DEFINITION. The word types of the block (00_scope.md sections 4 and 5): bytes, the 32-bit operands, and the plainest
arithmetic on them. -/

namespace Sys2Proof

/-- A byte, and so a sample (R3, R31). -/
abbrev Byte := BitVec 8

/-- A width or a height: "both unsigned, fit in 32 bits for persistence" (R7). -/
abbrev U32 := BitVec 32

/-- `ceil_div(a, b) = (a + b − 1) div b` (00_scope.md section 5). -/
def ceilDiv (a b : Nat) : Nat := (a + b - 1) / b

end Sys2Proof
end

