-- ==== Sys2Proof/Syntax.lean ====
section
/-! DEFINITION. The instruction set as syntax: the six stream symbols and the twelve host commands of
spec/opcode_table.json, the structured operands of 20_memory.md R46, and what a host can do (its moves). -/

namespace Sys2Proof

/-- One constructor per row of the opcode table. A LITERAL carries the samples that stand in its bits (R53, R57). A host
command carries nothing: its operands are "separate operand registers, not bits of the code". -/
inductive Instr where
  | white
  | black
  | lit1 (a : Byte)
  | lit2 (a b : Byte)
  | lit3 (a b c : Byte)
  | lit4 (a b c d : Byte)
  | bwReset
  | bwPush
  | bwFlush
  | brOpen
  | brPull
  | classify
  | encodeRow
  | decodeRow
  | encodeImage
  | decodeImage
  | serialize
  | deserialize
  deriving DecidableEq, Repr

/-- RasterImage: "width, height, ordered sequence of Rows" (R46). -/
structure RasterImage where
  width  : U32
  height : U32
  rows   : List (List Byte)
  deriving DecidableEq, Repr, Inhabited

/-- BarchImage `(W, H, flags, lines)` (R46): `true` in `flags` says that the row's line is bit-packed (R132). -/
structure BarchImage where
  width  : U32
  height : U32
  flags  : List Bool
  lines  : List (List Byte)
  deriving DecidableEq, Repr, Inhabited

/-- One operand the host writes before it issues a command (92_eei_decisions.md D3; assumption log 2). -/
inductive OperandWrite where
  | value  (v : Byte)
  | nbits  (n : BitVec 4)
  | width  (w : U32)
  | depth  (d : Byte)
  | src    (bytes : List Byte)
  | raster (image : RasterImage)
  | barch  (image : BarchImage)
  deriving DecidableEq, Repr

/-- What the host does next: it supplies operands and issues a 4-bit command code (R60, R195), or it applies reset (R190). A
`reset` waits for the end of a running command; a `resetNow` does not: it lands while the command issued just before it, or
the row that is open, is still running (R194; assumption log 17). -/
inductive HostMove where
  | issue (writes : List OperandWrite) (cmd : BitVec 4)
  | reset
  | resetNow
  deriving DecidableEq, Repr

end Sys2Proof
end

