-- ==== Sys2Proof/Config.lean ====
section
/-! DEFINITION. What is fixed for the machine: the three constants of R2, the open parameter MAGIC of R6, and the free
values (assumption log 7). A free value has no body, so nothing can be proved about it beyond its type: a claim holds
whatever it is. Each is named after the register it is put into and takes the counter `State.fresh`, so that two values
drawn at two moments are unrelated. -/

namespace Sys2Proof.Config

/-- "batch size = 4" (R2). -/
def batch : Nat := 4

/-- "compress threshold = 2" (R2). -/
def thresh : Nat := 2

/-- "supported bit depth = 8" (R2). -/
def depth8 : Byte := 8

/-- "255 = white" (R3). -/
def white : Byte := 0xFF

/-- "0 = black" (R3). -/
def black : Byte := 0x00

/-- The first byte of the open parameter MAGIC (R6, D17). -/
opaque magicFirst : Byte

/-- The other bytes of MAGIC (R6, D17). -/
opaque magicRest : List Byte

/-- MAGIC, "a byte string of length `MAGIC_LEN >= 1`" (R6). -/
def magic : List Byte := magicFirst :: magicRest

opaque freeAcc : Nat → Byte
opaque freeFree : Nat → Nat
opaque freeDst : Nat → List Byte
opaque freeCur : Nat → Byte
opaque freeAvail : Nat → Nat
opaque freeRdPos : Nat → Nat
opaque freeVal : Nat → Byte
opaque freeVrem : Nat → Nat
opaque freeWrun : Nat → Nat
opaque freeBrun : Nat → Nat
opaque freeWbat : Nat → Nat
opaque freeBbat : Nat → Nat
opaque freeCol : Nat → Nat
opaque freeWin0 : Nat → Byte
opaque freeWin1 : Nat → Byte
opaque freeWin2 : Nat → Byte
opaque freeWin3 : Nat → Byte
opaque freeWcnt : Nat → Nat
opaque freeRem : Nat → Nat
opaque freeRow : Nat → Nat
opaque freeFlags : Nat → List Bool
opaque freeLines : Nat → List (List Byte)
opaque freeRows : Nat → List (List Byte)
opaque freeResFlag : Nat → Bool
opaque freeResBits : Nat → Byte
opaque freeResByteValid : Nat → Bool
opaque freeResByte : Nat → Byte
opaque freeResConsumed : Nat → Nat
opaque freeResBarch : Nat → BarchImage
opaque freeResRaster : Nat → RasterImage

end Sys2Proof.Config
end

