-- ==== Sys2Proof/WellFormed.lean ====
section
/-! DEFINITION. The checks on syntax: which window a symbol may stand for, the shapes R46 gives the structured operands,
and the contracts a host keeps when it issues a command (R171). -/

namespace Sys2Proof

/-- Symbol `i` may stand for a window of `k` samples: WHITE and BLACK for any `k` of 1 to 4, LITk for its own `k` only
(R53, R55, R56). A host command is no symbol. -/
def Instr.fitsWindow (k : Nat) : Instr → Bool
  | .white => decide (1 ≤ k ∧ k ≤ Config.batch)
  | .black => decide (1 ≤ k ∧ k ≤ Config.batch)
  | .lit1 _ => decide (k = 1)
  | .lit2 _ _ => decide (k = 2)
  | .lit3 _ _ _ => decide (k = 3)
  | .lit4 _ _ _ _ => decide (k = 4)
  | .bwReset => false
  | .bwPush => false
  | .bwFlush => false
  | .brOpen => false
  | .brPull => false
  | .classify => false
  | .encodeRow => false
  | .decodeRow => false
  | .encodeImage => false
  | .decodeImage => false
  | .serialize => false
  | .deserialize => false

/-- Rows of a host command, the other half of the opcode table. -/
def Instr.isCommand : Instr → Bool
  | .white => false
  | .black => false
  | .lit1 _ => false
  | .lit2 _ _ => false
  | .lit3 _ _ _ => false
  | .lit4 _ _ _ _ => false
  | .bwReset => true
  | .bwPush => true
  | .bwFlush => true
  | .brOpen => true
  | .brPull => true
  | .classify => true
  | .encodeRow => true
  | .decodeRow => true
  | .encodeImage => true
  | .decodeImage => true
  | .serialize => true
  | .deserialize => true

/-- The commands above the BitPacker level (R192). -/
def Instr.aboveBitPacker : Instr → Bool
  | .white => false
  | .black => false
  | .lit1 _ => false
  | .lit2 _ _ => false
  | .lit3 _ _ _ => false
  | .lit4 _ _ _ _ => false
  | .bwReset => false
  | .bwPush => false
  | .bwFlush => false
  | .brOpen => false
  | .brPull => false
  | .classify => true
  | .encodeRow => true
  | .decodeRow => true
  | .encodeImage => true
  | .decodeImage => true
  | .serialize => true
  | .deserialize => true

/-- An instruction as the machine can meet it: a command, or a symbol in a window of `k` samples that it fits. -/
def Instr.wellFormed (k : Nat) (i : Instr) : Bool := i.isCommand || i.fitsWindow k

/-- `nbits` "must be 1 to 8" (R72). -/
def legalBitCount (n : BitVec 4) : Bool := decide (1 ≤ n.toNat ∧ n.toNat ≤ 8)

/-- `len(rows) = H` and `len(rows[r]) = W` for every row (R46, R131). -/
def RasterImage.wellShaped (m : RasterImage) : Bool :=
  decide (m.rows.length = m.height.toNat) && m.rows.all fun r => decide (r.length = m.width.toNat)

/-- "`lines.size() == height == flags.size()`" (R46, R135). -/
def BarchImage.countsAgree (m : BarchImage) : Bool :=
  decide (m.flags.length = m.height.toNat) && decide (m.lines.length = m.height.toNat)

/-- A line with flag false holds "`width` raw bytes"; a packed line may have any length (R46, R135). -/
def rawLineFits (w : U32) (flag : Bool) (line : List Byte) : Bool := flag || decide (line.length = w.toNat)

/-- The BarchImage invariant of R46: the counts agree and every raw line has `W` bytes. -/
def BarchImage.wellShaped (m : BarchImage) : Bool :=
  m.countsAgree && (m.flags.zip m.lines).all fun p => rawLineFits m.width p.1 p.2

end Sys2Proof
end

