-- ==== Sys2Proof/Decode.lean ====
section
/-! DEFINITION. Decoding, total and rejecting by name, and after it the encoder, both from the format table and the
command table of 30_encoding.md. Bits of a stream stand first bit first (00_scope.md section 5). -/

namespace Sys2Proof

/-- A stretch of the bit stream, first bit first. -/
abbrev Bits := List Bool

/-- A byte enters the stream bit 7 first and bit 0 last (R32, R33). -/
def bitsOfByte (b : Byte) : Bits :=
  [b.getLsbD 7, b.getLsbD 6, b.getLsbD 5, b.getLsbD 4, b.getLsbD 3, b.getLsbD 2, b.getLsbD 1, b.getLsbD 0]

/-- The number whose most significant bit is the first of the list. -/
def natOfBits (bits : Bits) : Nat := bits.foldl (fun n b => 2 * n + b.toNat) 0

/-- The unsigned 8-bit number of eight stream bits, the first the most significant (R57). -/
def byteOfBits (bits : Bits) : Byte := BitVec.ofNat 8 (natOfBits bits)

/-- A byte buffer as a bit stream: bit `k` is bit `7 − (k mod 8)` of byte `k div 8` (R32). -/
def bitsOfBytes (bytes : List Byte) : Bits := bytes.flatMap bitsOfByte

/-- The low `n` bits of `v`, most significant first: `field(v, n)` (R33, R76). -/
def fieldBits (v n : Nat) : Bits := (List.range n).map fun i => v.testBit (n - 1 - i)

/-- Why a code or a stretch of stream is no instruction. -/
inductive Reject where
  /-- A command code that selects no command: 0x0, 0xD, 0xE, 0xF (R61). -/
  | unassignedCommand (cmd : BitVec 4)
  /-- A symbol was asked for where the row needs no sample, or for a window of more than 4. -/
  | noWindow (k : Nat)
  /-- The stream ends inside the symbol (R122). -/
  | shortSymbol
  /-- Bits are left over where exactly one symbol was expected. -/
  | trailingBits
  deriving DecidableEq, Repr

/-- The command table of R60. -/
def decodeCommand (cmd : BitVec 4) : Except Reject Instr :=
  match cmd.toNat with
  | 0x1 => .ok .bwReset
  | 0x2 => .ok .bwPush
  | 0x3 => .ok .bwFlush
  | 0x4 => .ok .brOpen
  | 0x5 => .ok .brPull
  | 0x6 => .ok .classify
  | 0x7 => .ok .encodeRow
  | 0x8 => .ok .decodeRow
  | 0x9 => .ok .encodeImage
  | 0xA => .ok .decodeImage
  | 0xB => .ok .serialize
  | 0xC => .ok .deserialize
  | _ => .error (.unassignedCommand cmd)

/-- The first sample of a literal's remaining bits, and the bits after it (R57). -/
def takeSample (bits : Bits) : Option (Byte × Bits) :=
  if 8 ≤ bits.length then some (byteOfBits (bits.take 8), bits.drop 8) else none

/-- `k` samples, one after another, and the bits after them (R53). -/
def takeSamples : Nat → Bits → Option (List Byte × Bits)
  | 0, bits => some ([], bits)
  | k + 1, bits =>
    match takeSample bits with
    | none => none
    | some (s, rest) =>
      match takeSamples k rest with
      | none => none
      | some (ss, rest) => some (s :: ss, rest)

/-- The LITERAL that holds these samples: LIT1 to LIT4 by their number (R53, R55). -/
def literalOf : List Byte → Option Instr
  | [a] => some (.lit1 a)
  | [a, b] => some (.lit2 a b)
  | [a, b, c] => some (.lit3 a b c)
  | [a, b, c, d] => some (.lit4 a b c d)
  | _ => none

/-- Reads one symbol off the front of the stream, for a window of `k` samples: `0` selects WHITE, `10` BLACK, `11` a
LITERAL of `k` samples (R54, R55). The answer holds the bits after the symbol. -/
def decodeSymbol (k : Nat) (bits : Bits) : Except Reject (Instr × Bits) :=
  if 1 ≤ k ∧ k ≤ Config.batch then
    match bits with
    | [] => .error .shortSymbol
    | false :: rest => .ok (.white, rest)
    | [true] => .error .shortSymbol
    | true :: false :: rest => .ok (.black, rest)
    | true :: true :: rest =>
      match takeSamples k rest with
      | none => .error .shortSymbol
      | some (samples, rest) =>
        match literalOf samples with
        | none => .error (.noWindow k)
        | some i => .ok (i, rest)
  else .error (.noWindow k)

/-- What an instruction is encoded as: a command's code (R60) or a symbol's bits (R50 to R53). -/
inductive Code where
  | command (cmd : BitVec 4)
  | symbol (bits : Bits)
  deriving DecidableEq, Repr

/-- Decodes a code whole. `k` is the window the row decoder is at, the one context decoding needs (R55). -/
def decode (k : Nat) : Code → Except Reject Instr
  | .command cmd => decodeCommand cmd
  | .symbol bits =>
    match decodeSymbol k bits with
    | .error r => .error r
    | .ok (i, []) => .ok i
    | .ok (_, _ :: _) => .error .trailingBits

/-- The encoder, from the same tables: R51 to R53 for the symbols, R60 for the commands. -/
def encode : Instr → Code
  | .white => .symbol [false]
  | .black => .symbol [true, false]
  | .lit1 a => .symbol (true :: true :: bitsOfBytes [a])
  | .lit2 a b => .symbol (true :: true :: bitsOfBytes [a, b])
  | .lit3 a b c => .symbol (true :: true :: bitsOfBytes [a, b, c])
  | .lit4 a b c d => .symbol (true :: true :: bitsOfBytes [a, b, c, d])
  | .bwReset => .command 0x1
  | .bwPush => .command 0x2
  | .bwFlush => .command 0x3
  | .brOpen => .command 0x4
  | .brPull => .command 0x5
  | .classify => .command 0x6
  | .encodeRow => .command 0x7
  | .decodeRow => .command 0x8
  | .encodeImage => .command 0x9
  | .decodeImage => .command 0xA
  | .serialize => .command 0xB
  | .deserialize => .command 0xC

/-- The bits a symbol puts into the stream; a command puts none there. -/
def symbolBits (i : Instr) : Bits :=
  match encode i with
  | .command _ => []
  | .symbol bits => bits

/-- A word of `width` bits of the opcode table as stream bits: the table's bit `width − 1` is the first stream bit
("with the first stream bit as the most significant"). -/
def symbolWord (width w : Nat) : Option Code :=
  if w < 2 ^ width then some (.symbol (fieldBits w width)) else none

/-- The window and the code that an opcode-table word of `nbits` bits stands for (assumption log 4). `nbits` is a row's
width, or that width in whole bytes. The 8-bit word 2 could be BLACK or BW.PUSH: it is read as the command. -/
def tableCode (nbits w : Nat) : Option (Nat × Code) :=
  match nbits with
  | 1 => (symbolWord 1 w).map (4, ·)
  | 2 => (symbolWord 2 w).map (4, ·)
  | 4 => if w < 16 then some (4, .command (BitVec.ofNat 4 w)) else none
  | 8 =>
    if w = 0 then some (4, .symbol [false])
    else if w < 16 then some (4, .command (BitVec.ofNat 4 w)) else none
  | 10 => (symbolWord 10 w).map (1, ·)
  | 16 => (symbolWord 10 w).map (1, ·)
  | 18 => (symbolWord 18 w).map (2, ·)
  | 24 => (symbolWord 18 w).map (2, ·)
  | 26 => (symbolWord 26 w).map (3, ·)
  | 32 => (symbolWord 26 w).map (3, ·)
  | 34 => (symbolWord 34 w).map (4, ·)
  | 40 => (symbolWord 34 w).map (4, ·)
  | _ => none

/-- The instruction this decoder reads from a word of the opcode table, bits numbered as the table numbers them. -/
def decodeTableWord (nbits w : Nat) : Option Instr :=
  match tableCode nbits w with
  | none => none
  | some (k, code) =>
    match decode k code with
    | .ok i => some i
    | .error _ => none

/-- Bits as bytes, the first bit the most significant of the first byte, the last byte filled with zeros (R32, R58).
`fuel` bounds the number of bytes. -/
def packBits : Nat → Bits → List Byte
  | 0, _ => []
  | fuel + 1, bits =>
    match bits with
    | [] => []
    | b :: rest => byteOfBits (((b :: rest) ++ List.replicate 7 false).take 8) :: packBits fuel ((b :: rest).drop 8)

end Sys2Proof
end

