-- ==== Sys2Proof/Machine/State.lean ====
section
/-! DEFINITION. The state as plain data: every register of 10_state.md R29, the operand registers of the opcode table,
and four fields of the model's own (`phase`, `magic`, `inbox`, `fresh`). The reset values are R29's; where R29 says
"unspecified" or is silent, the value is a DESIGN CHOICE of assumption log 5. -/

namespace Sys2Proof.Machine

/-- The BitWriter: `acc`, the byte being filled (R11), and `free`, its unfilled low-order positions (R12). -/
structure BitWriter where
  acc  : Byte
  free : Nat
  deriving DecidableEq, Repr

/-- The BitReader: `cur`, the byte being read, `avail`, its unread low-order bits (R15), and `rd_pos`, the next byte of
SRC (R16). -/
structure BitReader where
  cur   : Byte
  avail : Nat
  rdPos : Nat
  deriving DecidableEq, Repr

/-- The PACK residue (R18). -/
structure Residue where
  val  : Byte
  vrem : Nat
  deriving DecidableEq, Repr

/-- The classifier's counters (R19). -/
structure Counters where
  wrun : Nat
  brun : Nat
  wbat : Nat
  bbat : Nat
  deriving DecidableEq, Repr

/-- The encoder's window: `col`, `win[0..3]`, `wcnt` (R21). -/
structure Window where
  col  : Nat
  win0 : Byte
  win1 : Byte
  win2 : Byte
  win3 : Byte
  wcnt : Nat
  deriving DecidableEq, Repr

/-- The pipeline's working registers (R23), and the rows DECODE_IMAGE has built (R134). -/
structure Pipeline where
  row   : Nat
  flags : List Bool
  lines : List (List Byte)
  rows  : List (List Byte)
  deriving DecidableEq, Repr

/-- The latched operands (R24). -/
structure Latched where
  w     : U32
  h     : U32
  depth : Byte
  deriving DecidableEq, Repr

/-- The operand registers the host writes (92_eei_decisions.md D3; assumption log 2). SRC is `State.src`. -/
structure Operands where
  value  : Byte
  nbits  : BitVec 4
  width  : U32
  depth  : Byte
  raster : RasterImage
  barch  : BarchImage
  deriving DecidableEq, Repr

/-- The four error kinds (R165). -/
inductive ErrorKind where
  | invalidDimensions
  | unsupportedSampleDepth
  | malformedContainer
  | decodeUnderrun
  deriving DecidableEq, Repr

/-- The result code of a command (R165); its number is `Status.code`. -/
inductive Status where
  | ok
  | error (e : ErrorKind)
  deriving DecidableEq, Repr

/-- The result registers (R25) and the structured results (R130). -/
structure Results where
  status       : Status
  resFlag      : Bool
  resBits      : Byte
  resByteValid : Bool
  resByte      : Byte
  resConsumed  : Nat
  resBarch     : BarchImage
  resRaster    : RasterImage
  deriving DecidableEq, Repr

/-- Whether a DECODE_ROW is open between two symbol steps (R10, R116; assumption log 1). -/
inductive Phase where
  | idle
  | decoding
  deriving DecidableEq, Repr

/-- The whole machine. -/
structure State where
  writer   : BitWriter
  dst      : List Byte
  reader   : BitReader
  src      : List Byte
  residue  : Residue
  counters : Counters
  window   : Window
  rem      : Nat
  pipeline : Pipeline
  latched  : Latched
  operands : Operands
  results  : Results
  aborted  : Bool
  phase    : Phase
  magic    : List Byte
  inbox    : List HostMove
  fresh    : Nat
  deriving DecidableEq, Repr

/-- Why the machine stops with a fault. -/
inductive Fault where
  /-- Raised by `memRead` and `memByte` for an index at or past the end of a buffer. 00_scope.md section 5 says such a
  read "never happens", so no command reaches it. Safe: the model stops where it would otherwise invent a byte. -/
  | readPastBufferEnd
  deriving DecidableEq, Repr

/-- Why a run has no meaning. All but the first are the abort class of R171, which "a model renders as a refusal" (R26);
each is safe, since no claim about a next state follows from it. -/
inductive Refusal where
  /-- Raised by an arm of `exec` that has no meaning yet. Safe. -/
  | notModelled (mnemonic : String)
  /-- Raised by BW.PUSH and BR.PULL for `nbits` outside 1 to 8 (R72, R78). Safe. -/
  | badBitCount
  /-- Raised by the step for a command code that selects no command (R61). Safe. -/
  | unknownCommand
  /-- Raised by CLASSIFY and ENCODE_ROW when `src_len` is not `W` (R90, R100). Safe. -/
  | rowLengthMismatch
  /-- Raised by ENCODE_IMAGE for a RasterImage that is not `H` rows of `W` samples (R131). Safe. -/
  | rasterShape
  /-- Raised by the step for a command issued while ABORTED is set (R171). Safe. -/
  | commandWhileAborted
  /-- Raised by BW.PUSH when `free` is not 1 to 8: PACK's precondition fails (R70), an internal invariant violation
  (R171). No run from reset reaches it. Safe. -/
  | writerInvariant
  /-- Raised by a symbol where no row is open or the row's window is not one the symbol fits: the spec gives a symbol an
  effect only inside DECODE_ROW (R116). The step never fetches such a symbol. Safe. -/
  | symbolOutsideRow
  deriving DecidableEq, Repr

/-- The image of no rows: what an image register holds before anything is written to it (DESIGN CHOICE, log 5). -/
def emptyBarch : BarchImage := { width := 0, height := 0, flags := [], lines := [] }

/-- The RasterImage of no rows (DESIGN CHOICE, log 5). -/
def emptyRaster : RasterImage := { width := 0, height := 0, rows := [] }

/-- The machine right after reset (R29, R190). `cur`, `val`, `win`, `res_bits`, `res_byte`, the pipeline's lists, the
structured results and the operand registers have no reset value in the spec: DESIGN CHOICE of log 5. MAGIC is the open
parameter (log 6). -/
def State.reset : State where
  writer   := { acc := 0x00, free := 8 }
  dst      := []
  reader   := { cur := 0x00, avail := 0, rdPos := 0 }
  src      := []
  residue  := { val := 0x00, vrem := 0 }
  counters := { wrun := 0, brun := 0, wbat := 0, bbat := 0 }
  window   := { col := 0, win0 := 0x00, win1 := 0x00, win2 := 0x00, win3 := 0x00, wcnt := 0 }
  rem      := 0
  pipeline := { row := 0, flags := [], lines := [], rows := [] }
  latched  := { w := 0, h := 0, depth := 8 }
  operands := { value := 0x00, nbits := 1, width := 0, depth := 8, raster := emptyRaster, barch := emptyBarch }
  results  := { status := .ok, resFlag := false, resBits := 0x00, resByteValid := false, resByte := 0x00,
                resConsumed := 0, resBarch := emptyBarch, resRaster := emptyRaster }
  aborted  := false
  phase    := .idle
  magic    := Config.magic
  inbox    := []
  fresh    := 0

end Sys2Proof.Machine
end

