-- ==== Sys2Proof/Machine/Flags.lean ====
section
/-! DEFINITION. The result registers, what stands for flags in this block (10_state.md R25): the numbers of the result
codes, the registers a command leaves open, and how a command ends. -/

namespace Sys2Proof.Machine

/-- The number of an error kind (R165). -/
def ErrorKind.code : ErrorKind → BitVec 3
  | .invalidDimensions => 1
  | .unsupportedSampleDepth => 2
  | .malformedContainer => 3
  | .decodeUnderrun => 4

/-- The `status` register as a number (R165); 5, 6 and 7 are "never written". -/
def Status.code : Status → BitVec 3
  | .ok => 0
  | .error e => e.code

/-- Result registers of which only `status` is fixed: a command "leaves the others unspecified: a model must treat a
result register a command is not listed with as `any value` after that command" (R25). -/
def Results.any (status : Status) (n : Nat) : Results where
  status       := status
  resFlag      := Config.freeResFlag n
  resBits      := Config.freeResBits n
  resByteValid := Config.freeResByteValid n
  resByte      := Config.freeResByte n
  resConsumed  := Config.freeResConsumed n
  resBarch     := Config.freeResBarch n
  resRaster    := Config.freeResRaster n

/-- A BitWriter that holds any value: `acc` any byte, `free` within the 1 to 8 it has between commands (R12, R175;
assumption log 8). -/
def anyWriter (n : Nat) : BitWriter := { acc := Config.freeAcc n, free := 1 + Config.freeFree n % 8 }

/-- A BitReader that holds any value: `avail` within 0 to 8 (R15), `rd_pos` within 0 to `src_len` (R16; log 8). -/
def anyReader (srcLen n : Nat) : BitReader where
  cur   := Config.freeCur n
  avail := Config.freeAvail n % 9
  rdPos := Config.freeRdPos n % (srcLen + 1)

/-- DST after a command that is not listed with it: "a model must treat a result register a command is not listed with as
`any value` after that command" (R25, D3; assumption log 10, log 11). The end of the command, `endOk`, draws the next free
values. -/
def State.forgetDst (s : State) : State := { s with dst := Config.freeDst s.fresh }

/-- The BitReader after an image-level or container-level command: R203 says that such a command "resets the BitWriter or
BitReader" and no rule says where in SRC the cursor then stands, so any value within R16's range (assumption log 12). -/
def State.forgetReader (s : State) : State := { s with reader := anyReader s.src.length s.fresh }

/-- The end of a command that succeeds: `status <- OK`, every other result register any value until the command writes
the ones it is listed with (R25, R213). -/
def State.endOk (s : State) : State :=
  { s with results := Results.any .ok s.fresh, fresh := s.fresh + 1 }

/-- `res_flag <- v` (R92). -/
def State.setResFlag (v : Bool) (s : State) : State :=
  { s with results := { s.results with resFlag := v } }

/-- `res_bits <- v` (R78). -/
def State.setResBits (v : Byte) (s : State) : State :=
  { s with results := { s.results with resBits := v } }

/-- `res_byte_valid` and `res_byte` (R25, R71): the last byte of `out` if the command completed one; otherwise
`res_byte_valid` is false and `res_byte` keeps the value `old` it had (assumption log 18). -/
def State.setResByte (old : Byte) (out : List Byte) (s : State) : State :=
  { s with results := { s.results with resByteValid := !out.isEmpty, resByte := out.getLastD old } }

/-- `res_byte_valid <- false` alone (R75). -/
def State.clearResByteValid (s : State) : State :=
  { s with results := { s.results with resByteValid := false } }

/-- `res_consumed <- n` (R123). -/
def State.setResConsumed (n : Nat) (s : State) : State :=
  { s with results := { s.results with resConsumed := n } }

/-- The structured result of ENCODE_IMAGE and DESERIALIZE (R130). -/
def State.setResBarch (m : BarchImage) (s : State) : State :=
  { s with results := { s.results with resBarch := m } }

/-- The structured result of DECODE_IMAGE (R130). -/
def State.setResRaster (m : RasterImage) (s : State) : State :=
  { s with results := { s.results with resRaster := m } }

end Sys2Proof.Machine
end

