-- ==== Sys2Proof/Machine/Operands.lean ====
section
/-! DEFINITION. Operands: the host's writes into the operand registers, and the latching of a command's operands into
`W`, `H` and `DEPTH` when it starts (10_state.md R24). -/

namespace Sys2Proof.Machine

/-- One write of the host into an operand register or into the input buffer (D3; assumption log 2). A buffer "is given
whole before the command starts" (R30). The cursor belongs to the buffer it was opened on: where it stands in a new one, until
BR.OPEN or a decoding command opens that, no rule says, so it is any value within R16's range (assumption log 19). -/
def State.applyWrite (s : State) : OperandWrite → State
  | .value v => { s with operands := { s.operands with value := v } }
  | .nbits n => { s with operands := { s.operands with nbits := n } }
  | .width w => { s with operands := { s.operands with width := w } }
  | .depth d => { s with operands := { s.operands with depth := d } }
  | .src bytes => { s with src := bytes, reader := anyReader bytes.length s.fresh, fresh := s.fresh + 1 }
  | .raster m => { s with operands := { s.operands with raster := m } }
  | .barch m => { s with operands := { s.operands with barch := m } }

/-- The host's writes, in order. -/
def State.applyWrites (s : State) (writes : List OperandWrite) : State := writes.foldl State.applyWrite s

/-- `W <- width` (R24). -/
def State.latchWidth (s : State) : State :=
  { s with latched := { s.latched with w := s.operands.width } }

/-- `W`, `H` from the two dimensions of a structured operand or of a container header (R24, R148, R150). -/
def State.latchDims (w h : U32) (s : State) : State :=
  { s with latched := { s.latched with w := w, h := h } }

/-- `DEPTH <- depth` (R24, R131). -/
def State.latchDepth (s : State) : State :=
  { s with latched := { s.latched with depth := s.operands.depth } }

end Sys2Proof.Machine
end

