-- ==== Sys2Proof/Machine/Ops.lean ====
section
/-! DEFINITION. The named operations over buffers and registers: reading a buffer, appending to one, the packing step and
the bit writer, the bit reader, the end of a command by an error (60_exceptions.md R175), and the abort class (R171). -/

namespace Sys2Proof.Machine

/-- How a command's pseudocode stops before its end: `raise` (R175), `abort` (R171), or the read that never happens. -/
inductive Stop where
  | raised (e : ErrorKind)
  | abort (r : Refusal)
  | fault (f : Fault)
  deriving DecidableEq, Repr

/-! ### Buffers -/

/-- `MemRead(buf + i, 1)` (00_scope.md section 5). -/
def memByte (buf : List Byte) (i : Nat) : Except Stop Byte :=
  match buf[i]? with
  | some x => .ok x
  | none => .error (.fault .readPastBufferEnd)

/-- `n` bytes of a buffer from index `i` on: "Reading at `i + n > src_len` never happens" (00_scope.md section 5). -/
def memRead (buf : List Byte) (i n : Nat) : Except Stop (List Byte) :=
  if i + n ≤ buf.length then .ok ((buf.drop i).take n) else .error (.fault .readPastBufferEnd)

/-- A 32-bit integer of four bytes, little-endian (R34). -/
def u32OfBytes (bytes : List Byte) : U32 :=
  BitVec.ofNat 32 ((bytes.getD 0 0).toNat + 256 * (bytes.getD 1 0).toNat + 65536 * (bytes.getD 2 0).toNat
    + 16777216 * (bytes.getD 3 0).toNat)

/-- The four bytes of a 32-bit integer, "the byte at the lower index holds bits 7 to 0" (R34). -/
def bytesOfU32 (v : U32) : List Byte :=
  [v.extractLsb' 0 8, v.extractLsb' 8 8, v.extractLsb' 16 8, v.extractLsb' 24 8]

/-- `MemRead(buf + i, 4)` (R34). -/
def memU32 (buf : List Byte) (i : Nat) : Except Stop U32 :=
  match memRead buf i 4 with
  | .ok bytes => .ok (u32OfBytes bytes)
  | .error x => .error x

/-- `emit`, for each byte in order: an append to DST (R14, R37). -/
def State.emit (bytes : List Byte) (s : State) : State := { s with dst := s.dst ++ bytes }

/-! ### The bit writer (40_bitpacker.md) -/

/-- `2^m − 1` as a byte, the mask of the `m` low bits. -/
def lowMask (m : Nat) : Byte := BitVec.ofNat 8 (2 ^ m - 1)

/-- The registers PACK works on, and the bytes completed so far. -/
structure Packing where
  acc  : Byte
  free : Nat
  val  : Byte
  vrem : Nat
  out  : List Byte
  deriving DecidableEq, Repr

/-- PACK (R70): moves the `min(free, vrem)` most significant pending bits of `val` into the unfilled positions of `acc`. -/
def pack (p : Packing) : Packing :=
  let m := min p.free p.vrem
  let chunk := (p.val >>> (p.vrem - m)) &&& lowMask m
  { p with acc := p.acc ||| (chunk <<< (p.free - m)), free := p.free - m, vrem := p.vrem - m }

/-- Byte completion (R71). -/
def completeByte (p : Packing) : Packing :=
  if p.free = 0 then { p with acc := 0, free := 8, out := p.out ++ [p.acc] } else p

/-- `while vrem > 0: PACK; byte completion` (R73). Every turn moves at least one bit, so `vrem` turns are enough. -/
def packLoop : Nat → Packing → Packing
  | 0, p => p
  | fuel + 1, p => if p.vrem = 0 then p else packLoop fuel (completeByte (pack p))

/-- The body of BW.PUSH (R73) on a BitWriter: `val <- value & (2^nbits − 1) ; vrem <- nbits`, then the loop. -/
def pushRun (w : BitWriter) (value : Byte) (n : Nat) : Packing :=
  packLoop n { acc := w.acc, free := w.free, val := value &&& lowMask n, vrem := n, out := [] }

/-- `BW.PUSH value nbits` as a step inside a command: completed bytes go to DST. -/
def State.pushBits (value : Byte) (n : Nat) (s : State) : State :=
  let p := pushRun s.writer value n
  { s with writer := { acc := p.acc, free := p.free }, residue := { val := p.val, vrem := p.vrem }, dst := s.dst ++ p.out }

/-- The byte BW.FLUSH emits: the pending partial byte, if any bit is pending (R74). -/
def flushOut (w : BitWriter) : List Byte := if w.free < 8 then [w.acc] else []

/-- The BitWriter after BW.FLUSH (R74). -/
def flushedWriter (w : BitWriter) : BitWriter := if w.free < 8 then { acc := 0, free := 8 } else w

/-- `BW.FLUSH` as a step inside a command. -/
def State.flushBits (s : State) : State :=
  { s with writer := flushedWriter s.writer, dst := s.dst ++ flushOut s.writer }

/-- `acc <- 0 ; free <- 8 ; DST <- [] ; dst_len <- 0` (R75, R100). Every row, image and container command starts
with it: a higher command "empties `DST`" and "pending bits are lost" (R203, U14 of 93_implementation_defined.md), and
"nothing is pending after" it (R27). The pseudocode of R90, R115, R134, R148 and R150 does not write `acc` and `free`: that
these commands empty the BitWriter too is the model's reading (assumption log 12). -/
def State.openWriter (s : State) : State := { s with writer := { acc := 0, free := 8 }, dst := [] }

/-! ### The bit reader (40_bitpacker.md) -/

/-- The reader at the first bit of its buffer: `rd_pos <- 0 ; avail <- 0` (R77). `cur` is left as it is. -/
def BitReader.opened (b : BitReader) : BitReader := { b with avail := 0, rdPos := 0 }

/-- The number of unread bits, `8 × (src_len − rd_pos) + avail` (R17). In a state whose `rd_pos` is above `src_len`, which
no run reaches (R16, O52), no byte is left: the subtraction stops at 0. -/
def BitReader.unread (src : List Byte) (b : BitReader) : Nat := 8 * (src.length - b.rdPos) + b.avail

/-- Lazy refill: "a byte is loaded only when a bit of it is needed" (R78). -/
def refill (src : List Byte) (b : BitReader) : Except Stop BitReader :=
  if b.avail = 0 then
    match memByte src b.rdPos with
    | .ok x => .ok { cur := x, avail := 8, rdPos := b.rdPos + 1 }
    | .error e => .error e
  else .ok b

/-- `while n > 0` of R78, collecting into `r`. Every turn takes at least one bit, so `n` turns are enough. -/
def pullLoop (src : List Byte) : Nat → Nat → Byte → BitReader → Except Stop (Byte × BitReader)
  | 0, _, r, b => .ok (r, b)
  | fuel + 1, n, r, b =>
    if n = 0 then .ok (r, b)
    else
      match refill src b with
      | .error e => .error e
      | .ok b =>
        let m := min n b.avail
        pullLoop src fuel (n - m) ((r <<< m) ||| ((b.cur >>> (b.avail - m)) &&& lowMask m))
          { b with avail := b.avail - m }

/-- The body of BR.PULL (R78) on a BitReader: fewer than `n` unread bits raise DecodeUnderrun before any is consumed. -/
def pullBits (src : List Byte) (n : Nat) (b : BitReader) : Except Stop (Byte × BitReader) :=
  if b.unread src < n then .error (.raised .decodeUnderrun) else pullLoop src n n 0 b

/-- `k` pulls of 8 bits, the samples of a LITERAL (R119). -/
def pullSamples (src : List Byte) : Nat → BitReader → Except Stop (List Byte × BitReader)
  | 0, b => .ok ([], b)
  | k + 1, b =>
    match pullBits src 8 b with
    | .error e => .error e
    | .ok (x, b) =>
      match pullSamples src k b with
      | .error e => .error e
      | .ok (xs, b) => .ok (x :: xs, b)

/-! ### Error entry (60_exceptions.md section 5) -/

/-- Taking an error, the one shared operation (R175): `status` gets the code; DST, the structured results and every other
result register, the working registers, the BitWriter and the BitReader hold any value; `ABORTED` is unchanged; nothing is
saved, no mode changes, control goes nowhere; "SRC is never modified". The latched operands and the operand registers are
none of these and stay (assumption log 27). -/
def State.errorEntry (e : ErrorKind) (s : State) : State :=
  { s with
    writer   := anyWriter s.fresh
    dst      := Config.freeDst s.fresh
    reader   := anyReader s.src.length s.fresh
    residue  := { val := Config.freeVal s.fresh, vrem := Config.freeVrem s.fresh }
    counters := { wrun := Config.freeWrun s.fresh, brun := Config.freeBrun s.fresh,
                  wbat := Config.freeWbat s.fresh, bbat := Config.freeBbat s.fresh }
    window   := { col := Config.freeCol s.fresh, win0 := Config.freeWin0 s.fresh, win1 := Config.freeWin1 s.fresh,
                  win2 := Config.freeWin2 s.fresh, win3 := Config.freeWin3 s.fresh, wcnt := Config.freeWcnt s.fresh }
    rem      := Config.freeRem s.fresh
    pipeline := { row := Config.freeRow s.fresh, flags := Config.freeFlags s.fresh,
                  lines := Config.freeLines s.fresh, rows := Config.freeRows s.fresh }
    results  := Results.any (.error e) s.fresh
    phase    := .idle
    fresh    := s.fresh + 1 }

/-- The one exception of R175 (e): a BR.PULL of the host's own "leaves the BitReader unchanged when it underruns" (R78). -/
def State.errorEntryKeepingReader (e : ErrorKind) (s : State) : State :=
  { s.errorEntry e with reader := s.reader }

/-- After an error nothing is returned from: "There is no return-from-trap operation. After an error the host issues its
next command" (R176). A command's body that stopped ends the command here; one that ran to its end has its next state. -/
def finish (s : State) : Except Stop State → Host.Outcome State Fault Refusal
  | .ok t => .next t
  | .error (.raised e) => .next (s.errorEntry e)
  | .error (.abort r) => .refused r
  | .error (.fault f) => .fault f

/-- Reset as a host applies it (R190): every register at its reset value. What the host does next, the parameter MAGIC and
the counter of free values are not the machine's registers and stay. -/
def State.resetMove (rest : List HostMove) (s : State) : State :=
  { State.reset with magic := s.magic, inbox := rest, fresh := s.fresh }

/-- Reset applied while a command is running: the command ends "with no result: `DST` and every structured result hold
`any value`, and the registers take their reset values" (R194, U24). -/
def State.resetCut (rest : List HostMove) (s : State) : State :=
  { s.resetMove rest with
    dst     := Config.freeDst s.fresh
    results := { State.reset.results with
                 resBarch := Config.freeResBarch s.fresh, resRaster := Config.freeResRaster s.fresh }
    fresh   := s.fresh + 1 }

end Sys2Proof.Machine
end

