-- ==== Sys2Proof/Machine/BitPacker.lean ====
section
/-! DEFINITION. The BitPacker commands (40_bitpacker.md): BW.RESET, BW.PUSH, BW.FLUSH, BR.OPEN, BR.PULL. -/

namespace Sys2Proof.Machine

/-- BW.RESET (R75): `acc <- 0 ; free <- 8 ; DST <- [] ; dst_len <- 0 ; res_byte_valid <- false ; status <- OK`. -/
def execBwReset (s : State) : Host.Outcome State Fault Refusal :=
  .next s.openWriter.endOk.clearResByteValid

/-- BW.PUSH (R72, R73). `nbits` outside 1 to 8 aborts, and so does a BitWriter outside PACK's precondition (R70, R171). -/
def execBwPush (s : State) : Host.Outcome State Fault Refusal :=
  if legalBitCount s.operands.nbits then
    if 1 ≤ s.writer.free ∧ s.writer.free ≤ 8 then
      .next ((s.pushBits s.operands.value s.operands.nbits.toNat).endOk.setResByte s.results.resByte
        (pushRun s.writer s.operands.value s.operands.nbits.toNat).out)
    else .refused .writerInvariant
  else .refused .badBitCount

/-- BW.FLUSH (R74): the pending partial byte, zero-padded; nothing when no bit is pending. -/
def execBwFlush (s : State) : Host.Outcome State Fault Refusal :=
  .next (s.flushBits.endOk.setResByte s.results.resByte (flushOut s.writer))

/-- BR.OPEN (R77): the cursor at the first bit of SRC. DST is not among its results (R25). -/
def execBrOpen (s : State) : Host.Outcome State Fault Refusal :=
  .next { s with reader := s.reader.opened }.forgetDst.endOk

/-- BR.PULL (R78). DST is not among its results (R25). An underrun leaves the BitReader as it was (R175 (e)). -/
def execBrPull (s : State) : Host.Outcome State Fault Refusal :=
  if legalBitCount s.operands.nbits then
    match pullBits s.src s.operands.nbits.toNat s.reader with
    | .ok (v, b) => .next ({ s with reader := b }.forgetDst.endOk.setResBits v)
    | .error (.raised e) => .next (s.errorEntryKeepingReader e)
    | .error (.abort r) => .refused r
    | .error (.fault f) => .fault f
  else .refused .badBitCount

end Sys2Proof.Machine
end

