-- ==== Sys2Proof/Machine/Classifier.lean ====
section
/-! DEFINITION. The RowClassifier (41_classifier.md): CLASSIFY. -/

namespace Sys2Proof.Machine

/-- The sample step (R91). -/
def sampleStep (c : Counters) (x : Byte) : Counters :=
  if x = Config.white then
    if c.wrun + 1 = Config.batch then { c with brun := 0, wrun := 0, wbat := c.wbat + 1 }
    else { c with brun := 0, wrun := c.wrun + 1 }
  else if x = Config.black then
    if c.brun + 1 = Config.batch then { c with wrun := 0, brun := 0, bbat := c.bbat + 1 }
    else { c with wrun := 0, brun := c.brun + 1 }
  else { c with wrun := 0, brun := 0 }

/-- `wrun <- 0 ; brun <- 0 ; wbat <- 0 ; bbat <- 0`, then the sample step for each sample, left to right (R90). -/
def classifyRow (row : List Byte) : Counters :=
  row.foldl sampleStep { wrun := 0, brun := 0, wbat := 0, bbat := 0 }

/-- The verdict (R92): `wbat + bbat >= 2`. -/
def Counters.verdict (c : Counters) : Bool := decide (Config.thresh ≤ c.wbat + c.bbat)

/-- CLASSIFY (R90, R93). A width of 0 is no error. DST "is not written", and is not among the results either, so R25 leaves
it open after the command (assumption log 10). R90 does not write `acc` and `free`; that the BitWriter is emptied, so that
nothing is pending after this row-level command either, is the model's reading of R27, R203 and U14 (assumption log 12). -/
def execClassify (s : State) : Host.Outcome State Fault Refusal :=
  if s.src.length = s.operands.width.toNat then
    match memRead s.src 0 s.operands.width.toNat with
    | .ok row =>
      .next ({ s.latchWidth.openWriter with counters := classifyRow row }.forgetDst.endOk.setResFlag (classifyRow row).verdict)
    | .error x => finish s.latchWidth (.error x)
  else .refused .rowLengthMismatch

end Sys2Proof.Machine
end

