-- ==== Sys2Proof/Machine/RowDecoder.lean ====
section
/-! DEFINITION. The RowDecoder (43_row_decoder.md): fetching a symbol at the cursor, the six symbols, and DECODE_ROW, which
opens a row and takes symbol steps until it has produced `W` samples. -/

namespace Sys2Proof.Machine

/-! ### Fetching a symbol -/

/-- The bits of the symbol at the cursor, pulled as R116 and R119 pull them: one bit, a second one if the first is 1, and
the samples if both are. -/
def fetchBits (src : List Byte) (k : Nat) (b : BitReader) : Except Stop (Bits × BitReader) :=
  match pullBits src 1 b with
  | .error x => .error x
  | .ok (b0, b) =>
    if b0 = 0 then .ok ([false], b)
    else
      match pullBits src 1 b with
      | .error x => .error x
      | .ok (b1, b) =>
        if b1 = 0 then .ok ([true, false], b)
        else
          match pullSamples src k b with
          | .error x => .error x
          | .ok (xs, b) => .ok (true :: true :: bitsOfBytes xs, b)

/-- The symbol at the cursor, decoded, and the reader behind it. `k` is the number of samples it stands for (R116). -/
def fetchSymbol (src : List Byte) (k : Nat) (b : BitReader) : Except Stop (Instr × BitReader) :=
  match fetchBits src k b with
  | .error x => .error x
  | .ok (bits, b) =>
    match decode k (.symbol bits) with
    | .error _ => .error (.abort .symbolOutsideRow)
    | .ok i => .ok (i, b)

/-! ### The symbols -/

/-- `k = min(4, rem)`, the samples the next symbol stands for (R56, R116); none where no row is open. -/
def State.windowSize (s : State) : Nat :=
  match s.phase with
  | .idle => 0
  | .decoding => min Config.batch s.rem

/-- `emit` each sample, then `rem <- rem − k` (R116 to R119). -/
def State.produce (xs : List Byte) (s : State) : State :=
  { s with dst := s.dst ++ xs, rem := s.rem - xs.length }

/-- `repeat k times: emit(x)` (R117, R118). -/
def runBody (x : Byte) (s : State) : Except Stop State :=
  if s.windowSize = 0 then .error (.abort .symbolOutsideRow)
  else .ok (s.produce (List.replicate s.windowSize x))

/-- A literal's samples, emitted verbatim (R119). -/
def literalBody (xs : List Byte) (s : State) : Except Stop State :=
  if s.windowSize = xs.length then .ok (s.produce xs) else .error (.abort .symbolOutsideRow)

/-- WHITE's own effect (R117). -/
def whiteBody (s : State) : Except Stop State := runBody Config.white s

/-- BLACK's own effect (R118). -/
def blackBody (s : State) : Except Stop State := runBody Config.black s

/-- LIT1's own effect (R119). -/
def lit1Body (a : Byte) (s : State) : Except Stop State := literalBody [a] s

/-- LIT2's own effect (R119). -/
def lit2Body (a b : Byte) (s : State) : Except Stop State := literalBody [a, b] s

/-- LIT3's own effect (R119). -/
def lit3Body (a b c : Byte) (s : State) : Except Stop State := literalBody [a, b, c] s

/-- LIT4's own effect (R119). -/
def lit4Body (a b c d : Byte) (s : State) : Except Stop State := literalBody [a, b, c, d] s

/-- The effect of the symbol the fetch has decoded (R116). -/
def symbolBody : Instr → State → Except Stop State
  | .white, s => whiteBody s
  | .black, s => blackBody s
  | .lit1 a, s => lit1Body a s
  | .lit2 a b, s => lit2Body a b s
  | .lit3 a b c, s => lit3Body a b c s
  | .lit4 a b c d, s => lit4Body a b c d s
  | .bwReset, _ => .error (.abort .symbolOutsideRow)
  | .bwPush, _ => .error (.abort .symbolOutsideRow)
  | .bwFlush, _ => .error (.abort .symbolOutsideRow)
  | .brOpen, _ => .error (.abort .symbolOutsideRow)
  | .brPull, _ => .error (.abort .symbolOutsideRow)
  | .classify, _ => .error (.abort .symbolOutsideRow)
  | .encodeRow, _ => .error (.abort .symbolOutsideRow)
  | .decodeRow, _ => .error (.abort .symbolOutsideRow)
  | .encodeImage, _ => .error (.abort .symbolOutsideRow)
  | .decodeImage, _ => .error (.abort .symbolOutsideRow)
  | .serialize, _ => .error (.abort .symbolOutsideRow)
  | .deserialize, _ => .error (.abort .symbolOutsideRow)

/-! ### DECODE_ROW -/

/-- `rd_pos <- 0 ; avail <- 0 ; DST <- [] ; dst_len <- 0 ; rem <- W` (R115): a row of `w` samples is open. R115 does not
write `acc` and `free`; that the BitWriter is emptied too, so that bits pushed before are lost, is the model's reading of R27
("nothing is pending after" a row-level command), R203 and U14 (assumption log 12). -/
def openRow (w : Nat) (s : State) : State :=
  { s.openWriter with reader := s.reader.opened, rem := w, phase := .decoding }

/-- The end of DECODE_ROW when the row needs no sample more (R115, R120, R123): `res_consumed <- rd_pos ; status <- OK`. -/
def closeRow (s : State) : State :=
  if s.rem = 0 then { s with phase := .idle }.endOk.setResConsumed s.reader.rdPos else s

/-- A symbol as the machine runs it in an open row: its effect, and the end of the row with the last one. -/
def finishSymbol (s : State) : Except Stop State → Host.Outcome State Fault Refusal
  | .ok t => .next (closeRow t)
  | .error x => finish s (.error x)

/-- WHITE (R117). -/
def execWhite (s : State) : Host.Outcome State Fault Refusal := finishSymbol s (whiteBody s)

/-- BLACK (R118). -/
def execBlack (s : State) : Host.Outcome State Fault Refusal := finishSymbol s (blackBody s)

/-- LIT1 (R119). -/
def execLit1 (a : Byte) (s : State) : Host.Outcome State Fault Refusal := finishSymbol s (lit1Body a s)

/-- LIT2 (R119). -/
def execLit2 (a b : Byte) (s : State) : Host.Outcome State Fault Refusal := finishSymbol s (lit2Body a b s)

/-- LIT3 (R119). -/
def execLit3 (a b c : Byte) (s : State) : Host.Outcome State Fault Refusal := finishSymbol s (lit3Body a b c s)

/-- LIT4 (R119). -/
def execLit4 (a b c d : Byte) (s : State) : Host.Outcome State Fault Refusal := finishSymbol s (lit4Body a b c d s)

/-- `while rem > 0: symbol step` (R115, R120). `fuel` is the number of symbols of the row, `ceil_div(W, 4)`. -/
def decodeSymbols (src : List Byte) : Nat → State → Except Stop State
  | 0, s => .ok s
  | fuel + 1, s =>
    if s.rem = 0 then .ok s
    else
      match fetchSymbol src s.windowSize s.reader with
      | .error x => .error x
      | .ok (i, b) =>
        match symbolBody i { s with reader := b } with
        | .error x => .error x
        | .ok t => decodeSymbols src fuel t

/-- The row decoder on a packed buffer (R115), as DECODE_ROW, DECODE_IMAGE and DESERIALIZE run it. -/
def decodeRowBody (src : List Byte) (s : State) : Except Stop State :=
  decodeSymbols src (ceilDiv s.latched.w.toNat Config.batch) (openRow s.latched.w.toNat s)

/-- DECODE_ROW (R115). -/
def execDecodeRow (s : State) : Host.Outcome State Fault Refusal :=
  if s.operands.width.toNat = 0 then .next (s.latchWidth.errorEntry .invalidDimensions)
  else
    match decodeRowBody s.src s.latchWidth with
    | .ok t => .next (closeRow t)
    | .error x => finish s.latchWidth (.error x)

end Sys2Proof.Machine
end

