-- ==== Sys2Proof/Machine/RowEncoder.lean ====
section
/-! DEFINITION. The RowEncoder (42_row_encoder.md): ENCODE_ROW with its window load, selection and three generators. -/

namespace Sys2Proof.Machine

/-- The samples the window holds: `win[0..wcnt−1]` (R101, R105). -/
def Window.present (w : Window) : List Byte := [w.win0, w.win1, w.win2, w.win3].take w.wcnt

/-- Load window (R101): `wcnt <- min(4, W − col)`, then `win[j] <- MemRead(SRC + col + j, 1)` for `j < wcnt`. -/
def loadWindow (row : List Byte) (s : State) : Except Stop State :=
  let wcnt := min Config.batch (s.latched.w.toNat - s.window.col)
  match memRead row s.window.col wcnt with
  | .error x => .error x
  | .ok xs =>
    .ok { s with window := { s.window with
            win0 := xs.getD 0 s.window.win0
            win1 := xs.getD 1 s.window.win1
            win2 := xs.getD 2 s.window.win2
            win3 := xs.getD 3 s.window.win3
            wcnt := wcnt } }

/-- EMIT.WHITE (R103). -/
def emitWhite (s : State) : State := s.pushBits 0 1

/-- EMIT.BLACK (R104). -/
def emitBlack (s : State) : State := s.pushBits 0b10 2

/-- EMIT.LIT (R105): the prefix, then exactly the samples that are present. -/
def emitLit (s : State) : State :=
  s.window.present.foldl (fun t x => t.pushBits x 8) (s.pushBits 0b11 2)

/-- The window is full and all its samples are `x` (R102). -/
def Window.fullOf (x : Byte) (w : Window) : Bool :=
  decide (w.wcnt = Config.batch) && w.present.all (fun y => decide (y = x))

/-- Select and emit (R102). -/
def emitWindow (s : State) : State :=
  if s.window.fullOf Config.white then emitWhite s
  else if s.window.fullOf Config.black then emitBlack s
  else emitLit s

/-- `while col < W: load window; select and emit; col <- col + 4` (R100). `fuel` is the number of windows. -/
def encodeWindows (row : List Byte) : Nat → State → Except Stop State
  | 0, s => .ok s
  | fuel + 1, s =>
    if s.window.col < s.latched.w.toNat then
      match loadWindow row s with
      | .error x => .error x
      | .ok t =>
        encodeWindows row fuel { emitWindow t with window := { t.window with col := t.window.col + Config.batch } }
    else .ok s

/-- ENCODE_ROW after its checks (R100, R107), on a row buffer of `W` samples: the writer opened, every window emitted, the
stream flushed. -/
def encodeRowBody (row : List Byte) (s : State) : Except Stop State :=
  match encodeWindows row (ceilDiv s.latched.w.toNat Config.batch)
      { s.openWriter with window := { s.window with col := 0 } } with
  | .error x => .error x
  | .ok t => .ok t.flushBits

/-- ENCODE_ROW (R100). A zero width raises InvalidDimensions, first in the pseudocode (assumption log 13); a row that is
not `W` bytes long aborts (R171). -/
def execEncodeRow (s : State) : Host.Outcome State Fault Refusal :=
  if s.operands.width.toNat = 0 then .next (s.latchWidth.errorEntry .invalidDimensions)
  else if s.src.length = s.operands.width.toNat then
    match encodeRowBody s.src s.latchWidth with
    | .ok t => .next t.endOk
    | .error x => finish s.latchWidth (.error x)
  else .refused .rowLengthMismatch

end Sys2Proof.Machine
end

