-- ==== Sys2Proof/Machine/Pipeline.lean ====
section
/-! DEFINITION. The row pipeline (44_pipeline.md): ENCODE_IMAGE and DECODE_IMAGE. -/

namespace Sys2Proof.Machine

/-- The end of an image-level command and of DESERIALIZE, whose result is a structured one: DST is not among the results
(R25, R130; assumption log 11), and the BitReader is left open (assumption log 12). -/
def State.endImage (s : State) : State := s.forgetDst.forgetReader.endOk

/-- Appends a row's flag and line to the BarchImage being built (R131). -/
def State.addLine (flag : Bool) (line : List Byte) (s : State) : State :=
  { s with pipeline := { s.pipeline with flags := s.pipeline.flags ++ [flag], lines := s.pipeline.lines ++ [line] } }

/-- One turn of ENCODE_IMAGE's loop (R131): classify the row; encode it, or pass it through raw (R133). -/
def encodeImageRow (row : List Byte) (s : State) : Except Stop State :=
  let c := classifyRow row
  if c.verdict then
    match encodeRowBody row { s with counters := c } with
    | .error x => .error x
    | .ok t => .ok (t.addLine true t.dst)
  else .ok ({ s with counters := c }.addLine false row)

/-- `for row from 0 to H − 1` (R131). -/
def encodeImageRows : List (List Byte) → State → Except Stop State
  | [], s => .ok s
  | row :: rows, s =>
    match encodeImageRow row { s with pipeline := { s.pipeline with row := s.pipeline.flags.length } } with
    | .error x => .error x
    | .ok t => encodeImageRows rows t

/-- The operands of ENCODE_IMAGE latched: `W`, `H`, `DEPTH` (R24, R131). -/
def State.latchRaster (s : State) : State :=
  (s.latchDims s.operands.raster.width s.operands.raster.height).latchDepth

/-- `flags <- [] ; lines <- []` (R131, R150), with the BitWriter and DST emptied as R203 says. -/
def State.openPipeline (s : State) : State :=
  { s.openWriter with pipeline := { s.pipeline with row := 0, flags := [], lines := [] } }

/-- ENCODE_IMAGE (R131). The dimensions are checked first, then the depth (R174); an ill-shaped RasterImage aborts before
any row is read (R171; assumption log 13). -/
def execEncodeImage (s : State) : Host.Outcome State Fault Refusal :=
  let m := s.operands.raster
  if m.width.toNat = 0 ∨ m.height.toNat = 0 then .next (s.latchRaster.errorEntry .invalidDimensions)
  else if s.operands.depth ≠ Config.depth8 then .next (s.latchRaster.errorEntry .unsupportedSampleDepth)
  else if m.wellShaped then
    match encodeImageRows m.rows s.latchRaster.openPipeline with
    | .ok t =>
      .next (t.endImage.setResBarch
        { width := m.width, height := m.height, flags := t.pipeline.flags, lines := t.pipeline.lines })
    | .error x => finish s.latchRaster (.error x)
  else .refused .rasterShape

/-- Appends a row to the RasterImage being built (R134). -/
def State.addRow (row : List Byte) (s : State) : State :=
  { s with pipeline := { s.pipeline with rows := s.pipeline.rows ++ [row] } }

/-- One turn of DECODE_IMAGE's loop (R134): a packed line is decoded, a raw one of `W` bytes is passed through (R133). While
the row decoder runs, its cursor counts in the line, not in SRC; the end of the command leaves it open (assumption log 12). -/
def decodeImageRow (flag : Bool) (line : List Byte) (s : State) : Except Stop State :=
  if flag then
    match decodeRowBody line s with
    | .error x => .error x
    | .ok t => .ok ({ t with phase := .idle }.addRow t.dst)
  else if line.length = s.latched.w.toNat then .ok (s.addRow line)
  else .error (.raised .malformedContainer)

/-- `for row from 0 to H − 1` (R134), over the flags and the lines. -/
def decodeImageRows : List (Bool × List Byte) → State → Except Stop State
  | [], s => .ok s
  | (flag, line) :: rest, s =>
    match decodeImageRow flag line { s with pipeline := { s.pipeline with row := s.pipeline.rows.length } } with
    | .error x => .error x
    | .ok t => decodeImageRows rest t

/-- The operands of DECODE_IMAGE and SERIALIZE latched: `W`, `H` (R24, R134, R148). -/
def State.latchBarch (s : State) : State := s.latchDims s.operands.barch.width s.operands.barch.height

/-- The BarchImage being read (R23), and `rows <- []` (R134), with the BitWriter and DST emptied as R203 says. -/
def State.openBarch (s : State) : State :=
  { s.openWriter with pipeline := { row := 0, flags := s.operands.barch.flags, lines := s.operands.barch.lines, rows := [] } }

/-- DECODE_IMAGE (R134, R135). Dimensions, then counts, then rows in increasing index (R174). -/
def execDecodeImage (s : State) : Host.Outcome State Fault Refusal :=
  let m := s.operands.barch
  if m.width.toNat = 0 ∨ m.height.toNat = 0 then .next (s.latchBarch.errorEntry .invalidDimensions)
  else if m.countsAgree then
    match decodeImageRows (m.flags.zip m.lines) s.latchBarch.openBarch with
    | .ok t =>
      .next (t.endImage.setResRaster { width := m.width, height := m.height, rows := t.pipeline.rows })
    | .error x => finish s.latchBarch (.error x)
  else .next (s.latchBarch.errorEntry .malformedContainer)

end Sys2Proof.Machine
end

