-- ==== Sys2Proof/Machine/Container.lean ====
section
/-! DEFINITION. The container format (45_container.md): the row-flag bitmap, SERIALIZE and DESERIALIZE. -/

namespace Sys2Proof.Machine

/-- Byte `b` of the row-flag bitmap: the flag of row `i` is bit `7 − (i mod 8)` of byte `i div 8`; the bits that stand for
no row are 0 (R146). -/
def flagByte (flags : List Bool) (b : Nat) : Byte :=
  (List.range 8).foldl (fun x j => if flags.getD (8 * b + j) false then x ||| ((0x80 : Byte) >>> j) else x) 0

/-- The row-flag bitmap of `h` rows: `ceil_div(H, 8)` bytes (R145, R146). -/
def flagBytes (flags : List Bool) (h : Nat) : List Byte := (List.range (ceilDiv h 8)).map (flagByte flags)

/-- `SRC[p + (i div 8)][7 − (i mod 8)] = 1` for `i` from 0 to `H − 1` (R150). -/
def flagsOfBytes (bitmap : List Byte) (h : Nat) : List Bool :=
  (List.range h).map fun i => (bitmap.getD (i / 8) 0).getLsbD (7 - i % 8)

/-- Every raw line has `W` bytes: the row check of SERIALIZE (R148). -/
def rawLinesFit (m : BarchImage) : Bool := (m.flags.zip m.lines).all fun p => rawLineFits m.width p.1 p.2

/-- The row index after the loops of SERIALIZE: the last row (R23, R148). -/
def State.lastRow (s : State) : State :=
  { s with pipeline := { s.pipeline with row := s.latched.h.toNat - 1 } }

/-- SERIALIZE (R148): magic, width, height, bitmap, then each line verbatim (R145). It runs neither the BitWriter nor the
BitReader; R203 says that it resets one of them: the writer is emptied, the reader left open (assumption log 12). -/
def execSerialize (s : State) : Host.Outcome State Fault Refusal :=
  let m := s.operands.barch
  if m.width.toNat = 0 ∨ m.height.toNat = 0 then .next (s.latchBarch.errorEntry .invalidDimensions)
  else if m.countsAgree then
    if rawLinesFit m then
      .next (s.latchBarch.openBarch.lastRow.emit s.magic |>.emit (bytesOfU32 m.width) |>.emit (bytesOfU32 m.height)
        |>.emit (flagBytes m.flags m.height.toNat) |>.emit m.lines.flatten).forgetReader.endOk
    else .next (s.latchBarch.errorEntry .malformedContainer)
  else .next (s.latchBarch.errorEntry .malformedContainer)

/-- The length of the packed row at the front of `buf`: the row decoder runs on it, and the bytes it consumed are the
row's slice (R151). Its underrun is reported as MalformedContainer (R152). Its cursor counts in `buf`, the slice
`SRC[p .. src_len)`, not in SRC; the end of the command leaves it open (assumption log 12). -/
def measureRow (buf : List Byte) (s : State) : Except Stop (Nat × State) :=
  match decodeRowBody buf s with
  | .ok t => .ok (t.reader.rdPos, { t with phase := .idle })
  | .error (.raised _) => .error (.raised .malformedContainer)
  | .error (.abort r) => .error (.abort r)
  | .error (.fault f) => .error (.fault f)

/-- One turn of DESERIALIZE's loop (R150) at offset `p`: the row's line is cut out of SRC; the answer is the next offset. -/
def deserializeRow (flag : Bool) (p : Nat) (s : State) : Except Stop (Nat × State) :=
  if flag then
    match measureRow (s.src.drop p) s with
    | .error x => .error x
    | .ok (n, t) =>
      match memRead s.src p n with
      | .error x => .error x
      | .ok line => .ok (p + n, t.addLine true line)
  else if s.src.length < p + s.latched.w.toNat then .error (.raised .malformedContainer)
  else
    match memRead s.src p s.latched.w.toNat with
    | .error x => .error x
    | .ok line => .ok (p + s.latched.w.toNat, s.addLine false line)

/-- `for row from 0 to H − 1` (R150), over the flags read from the bitmap. -/
def deserializeRows : List Bool → Nat → State → Except Stop State
  | [], _, s => .ok s
  | flag :: flags, p, s =>
    match deserializeRow flag p { s with pipeline := { s.pipeline with row := s.pipeline.flags.length } } with
    | .error x => .error x
    | .ok (p, t) => deserializeRows flags p t

/-- The header of a container (R145, R150): `W` and `H`, or the check that failed first (R152, R174). -/
def readHeader (magic src : List Byte) : Except Stop (U32 × U32) :=
  if src.length < magic.length then .error (.raised .malformedContainer)
  else
    match memRead src 0 magic.length with
    | .error x => .error x
    | .ok start =>
      if start ≠ magic then .error (.raised .malformedContainer)
      else if src.length < magic.length + 8 then .error (.raised .malformedContainer)
      else
        match memU32 src magic.length with
        | .error x => .error x
        | .ok w =>
          match memU32 src (magic.length + 4) with
          | .error x => .error x
          | .ok h => .ok (w, h)

/-- DESERIALIZE after its header (R150): the bitmap, then the rows. -/
def deserializeBody (s : State) : Except Stop State :=
  let p := s.magic.length + 8
  let nf := ceilDiv s.latched.h.toNat 8
  if s.src.length < p + nf then .error (.raised .malformedContainer)
  else
    match memRead s.src p nf with
    | .error x => .error x
    | .ok bitmap => deserializeRows (flagsOfBytes bitmap s.latched.h.toNat) (p + nf) s.openPipeline

/-- DESERIALIZE (R150 to R153). `W` and `H` are latched from the header (assumption log 28). -/
def execDeserialize (s : State) : Host.Outcome State Fault Refusal :=
  match readHeader s.magic s.src with
  | .error x => finish s (.error x)
  | .ok (w, h) =>
    if w.toNat = 0 ∨ h.toNat = 0 then .next ((s.latchDims w h).errorEntry .invalidDimensions)
    else
      match deserializeBody (s.latchDims w h) with
      | .ok t =>
        .next (t.endImage.setResBarch
          { width := w, height := h, flags := t.pipeline.flags, lines := t.pipeline.lines })
      | .error x => finish (s.latchDims w h) (.error x)

end Sys2Proof.Machine
end

