-- ==== Sys2Proof/Machine/Dispatch.lean ====
section
/-! DEFINITION. One arm per constructor of Instr. -/

namespace Sys2Proof.Machine

def exec (i : Instr) (s : State) : Host.Outcome State Fault Refusal :=
  match i with
  | .white => Sys2Proof.Machine.execWhite s
  | .black => Sys2Proof.Machine.execBlack s
  | .lit1 a => Sys2Proof.Machine.execLit1 a s
  | .lit2 a b => Sys2Proof.Machine.execLit2 a b s
  | .lit3 a b c => Sys2Proof.Machine.execLit3 a b c s
  | .lit4 a b c d => Sys2Proof.Machine.execLit4 a b c d s
  | .bwReset => Sys2Proof.Machine.execBwReset s
  | .bwPush => Sys2Proof.Machine.execBwPush s
  | .bwFlush => Sys2Proof.Machine.execBwFlush s
  | .brOpen => Sys2Proof.Machine.execBrOpen s
  | .brPull => Sys2Proof.Machine.execBrPull s
  | .classify => Sys2Proof.Machine.execClassify s
  | .encodeRow => Sys2Proof.Machine.execEncodeRow s
  | .decodeRow => Sys2Proof.Machine.execDecodeRow s
  | .encodeImage => Sys2Proof.Machine.execEncodeImage s
  | .decodeImage => Sys2Proof.Machine.execDecodeImage s
  | .serialize => Sys2Proof.Machine.execSerialize s
  | .deserialize => Sys2Proof.Machine.execDeserialize s

end Sys2Proof.Machine
end

