-- ==== Sys2Proof/Machine/Fetch.lean ====
section
/-! DEFINITION. What the machine does next: in an open row, the symbol at the cursor (R116, R20); otherwise the host's next
move (R10, R190); and a reset that does not wait ends what is running (R194). The step only calls what stands here and `exec`. -/

namespace Sys2Proof.Machine

/-- What the fetch finds. -/
inductive Fetched where
  /-- Instruction `i` runs on state `s`. -/
  | run (i : Instr) (s : State)
  /-- No instruction runs: the core waits, or reset was applied; the machine is in state `s`. -/
  | quiet (s : State)
  /-- The fetch itself stopped, with the machine in state `s`. -/
  | stop (x : Stop) (s : State)
  deriving DecidableEq, Repr

/-- The symbol at the cursor of an open row, and the reader behind it (R116). -/
def fetchInRow (s : State) : Fetched :=
  match fetchSymbol s.src s.windowSize s.reader with
  | .ok (i, b) => .run i { s with reader := b }
  | .error x => .stop x s

/-- The moves behind a reset that does not wait, if the host's next move is one (R194; assumption log 17). -/
def cutRest : List HostMove → Option (List HostMove)
  | [] => none
  | .issue _ _ :: _ => none
  | .reset :: _ => none
  | .resetNow :: rest => some rest

/-- A command the host issues: its operands are written, its code is decoded (R60), and it runs, unless the host applies
reset while it is running (R194). A code that selects no command aborts (R61), and so does any command while ABORTED is set
(R26, R171). -/
def acceptCommand (writes : List OperandWrite) (cmd : BitVec 4) (s : State) : Fetched :=
  if s.aborted then .stop (.abort .commandWhileAborted) s
  else
    match decodeCommand cmd with
    | .ok i =>
      match cutRest s.inbox with
      | some rest => .quiet (s.resetCut rest)
      | none => .run i (s.applyWrites writes)
    | .error _ => .stop (.abort .unknownCommand) s

/-- The host's next move; with none the core waits (R190). Where no command is running, every reset is the plain one. -/
def nextMove (s : State) : Fetched :=
  match s.inbox with
  | [] => .quiet s
  | .reset :: rest => .quiet (s.resetMove rest)
  | .resetNow :: rest => .quiet (s.resetMove rest)
  | .issue writes cmd :: rest => acceptCommand writes cmd { s with inbox := rest }

/-- A row that is open runs to its end before the host's next move (R10, R172), but for a reset that does not wait (R194). -/
def fetch (s : State) : Fetched :=
  match s.phase with
  | .decoding =>
    match cutRest s.inbox with
    | some rest => .quiet (s.resetCut rest)
    | none => fetchInRow s
  | .idle => nextMove s

/-- The host's moves from the first on that is no `resetNow`: what may stand behind a word that is to run. -/
def withoutCut : List HostMove → List HostMove
  | [] => []
  | .issue writes cmd :: rest => .issue writes cmd :: rest
  | .reset :: rest => .reset :: rest
  | .resetNow :: rest => withoutCut rest

/-- A symbol's bits placed in SRC, with the cursor before them, in a row that needs `k` samples more. -/
def State.placeSymbol (k : Nat) (bits : Bits) (s : State) : State :=
  { s with
    src     := packBits bits.length bits
    reader  := s.reader.opened
    rem     := k
    latched := { s.latched with w := BitVec.ofNat 32 (s.dst.length + k) }
    phase   := .decoding
    inbox   := withoutCut s.inbox
    aborted := false }

/-- A command's code placed before the host's other moves, with the operand registers as they are. -/
def State.placeCommand (cmd : BitVec 4) (s : State) : State :=
  { s with inbox := .issue [] cmd :: withoutCut s.inbox, phase := .idle, aborted := false }

/-- A word of the opcode table placed where the next step fetches (assumption log 3, log 4). -/
def State.placeWord (nbits w : Nat) (s : State) : State :=
  match tableCode nbits w with
  | none => s
  | some (k, .symbol bits) => s.placeSymbol k bits
  | some (_, .command cmd) => s.placeCommand cmd

end Sys2Proof.Machine
end

