-- ==== Sys2Proof/Machine/Step.lean ====
section
/-! DEFINITION. One step of the machine: three outcomes, next, fault and refusal. -/

namespace Sys2Proof.Machine

/-- The instruction the fetch finds runs; a fetch that stops ends the running command as R175 and R171 say. -/
def step (s : State) : Host.Outcome State Fault Refusal :=
  match fetch s with
  | .run i t => exec i t
  | .quiet t => .next t
  | .stop x t => finish t (.error x)

/-- `s` with the instruction of an opcode-table word placed where the very next step fetches it: a command as the host's
next move; a symbol at the cursor of an open row (assumption log 3). -/
def State.withFetchWord (s : State) (nbits w : Nat) : State := s.placeWord nbits w

end Sys2Proof.Machine
end

