-- ==== Sys2Proof/Safety.lean ====
section
/-! DEFINITION. The terms claims are stated in: buffers as cells in one canonical form, the bits a writer holds and the
bits a reader has left, the invariants of 10_state.md R12, R13, R15, R16 and R22, the packed form of a row as 30_encoding.md gives
it, written without the machine, and the checks of DESERIALIZE on bytes. -/

namespace Sys2Proof.Machine

/-! ### Buffers as memory (20_memory.md R30, R38) -/

/-- A buffer as address and byte pairs: index `i` of the buffer is address `base + i`. -/
def Memory.cells : Nat → List Byte → List Host.Cell
  | _, [] => []
  | base, x :: xs => (base, x) :: Memory.cells (base + 1) xs

/-- The canonical form: the addresses run from `base` upward without a gap, so they rise strictly and none is listed twice.
An address that is not listed does not exist. -/
def Memory.wf : Nat → List Host.Cell → Bool
  | _, [] => true
  | base, (a, _) :: rest => decide (a = base) && Memory.wf (base + 1) rest

/-! ### Bits written and bits unread -/

/-- The bits a BitWriter has taken since its stream began: those emitted into DST, then the `8 − free` bits pending in
`acc`, "oldest in bit 7" (R13). -/
def writtenBits (dst : List Byte) (w : BitWriter) : Bits := bitsOfBytes dst ++ (bitsOfByte w.acc).take (8 - w.free)

/-- The bits a BitReader has left: `cur[avail−1:0]`, next bit first, then the bytes of SRC from `rd_pos` on (R15, R16). -/
def unreadBits (src : List Byte) (b : BitReader) : Bits :=
  fieldBits b.cur.toNat b.avail ++ bitsOfBytes (src.drop b.rdPos)

/-- Bits filled with zeros to whole bytes (R58). -/
def padToByte (bits : Bits) : Bits := bits ++ List.replicate ((8 - bits.length % 8) % 8) false

/-! ### Invariants -/

/-- The BitWriter invariant (R12, R13): `1 <= free <= 8` and every unfilled position of `acc` holds 0. -/
def BitWriter.Ok (w : BitWriter) : Prop := 1 ≤ w.free ∧ w.free ≤ 8 ∧ w.acc &&& lowMask w.free = 0

/-- What an open row keeps (R22): samples are still missing, and `len(out) = W − rem`. -/
def RowOpen (s : State) : Prop := 0 < s.rem ∧ s.dst.length + s.rem = s.latched.w.toNat

/-- The machine's invariant: the registers keep the ranges R12, R15 and R16 give them (`0 <= rd_pos <= src_len` in every
state, whatever the host supplies), ABORTED is clear (an abort is a refusal, R26), and a row that is open is as `RowOpen`
says. -/
def Inv (s : State) : Prop :=
  (1 ≤ s.writer.free ∧ s.writer.free ≤ 8) ∧ s.reader.avail ≤ 8 ∧ s.reader.rdPos ≤ s.src.length ∧ s.aborted = false ∧
    (s.phase = .decoding → RowOpen s)

/-! ### The packed form of a row, from 30_encoding.md and 42_row_encoder.md -/

/-- The symbol of one window: WHITE or BLACK for four samples of 255 or 0, otherwise a LITERAL (R102). -/
def windowBits (xs : List Byte) : Bits :=
  if xs = List.replicate 4 Config.white then [false]
  else if xs = List.replicate 4 Config.black then [true, false]
  else true :: true :: bitsOfBytes xs

/-- The symbols of a row, window after window, without padding (R50, R106). -/
def rowBits : List Byte → Bits
  | [] => []
  | a :: b :: c :: d :: rest => windowBits [a, b, c, d] ++ rowBits rest
  | [a, b, c] => windowBits [a, b, c]
  | [a, b] => windowBits [a, b]
  | [a] => windowBits [a]

/-- The windows of a row of `w` samples: full ones, then the `w mod 4` samples that remain (R50). -/
def rowWindows (w : Nat) : List Nat := List.replicate (w / 4) 4 ++ if w % 4 = 0 then [] else [w % 4]

/-- Symbols read off a stream one after another, for the given windows. -/
def decodeMany : List Nat → Bits → Except Reject (List Instr × Bits)
  | [], bits => .ok ([], bits)
  | k :: ks, bits =>
    match decodeSymbol k bits with
    | .error r => .error r
    | .ok (i, bits) =>
      match decodeMany ks bits with
      | .error r => .error r
      | .ok (is, bits) => .ok (i :: is, bits)

/-- The samples a symbol stands for in a window of `k` (R117 to R119). -/
def samplesOf (k : Nat) : Instr → List Byte
  | .white => List.replicate k Config.white
  | .black => List.replicate k Config.black
  | .lit1 a => [a]
  | .lit2 a b => [a, b]
  | .lit3 a b c => [a, b, c]
  | .lit4 a b c d => [a, b, c, d]
  | .bwReset => []
  | .bwPush => []
  | .bwFlush => []
  | .brOpen => []
  | .brPull => []
  | .classify => []
  | .encodeRow => []
  | .decodeRow => []
  | .encodeImage => []
  | .decodeImage => []
  | .serialize => []
  | .deserialize => []

/-- The samples of a list of symbols for a list of windows. -/
def samplesOfRow (ks : List Nat) (is : List Instr) : List Byte := (ks.zip is).flatMap fun p => samplesOf p.1 p.2

/-! ### Reset -/

/-- Every register for which R29 gives a reset value holds it, DST apart. -/
def RegistersAtReset (t : State) : Prop :=
  t.writer = { acc := 0, free := 8 } ∧ t.reader.avail = 0 ∧ t.reader.rdPos = 0 ∧ t.src = [] ∧ t.residue.vrem = 0 ∧
    t.counters = { wrun := 0, brun := 0, wbat := 0, bbat := 0 } ∧ t.window.col = 0 ∧ t.window.wcnt = 0 ∧ t.rem = 0 ∧
    t.pipeline.row = 0 ∧ t.latched = { w := 0, h := 0, depth := 8 } ∧ t.results.status = .ok ∧ t.results.resFlag = false ∧
    t.results.resByteValid = false ∧ t.results.resConsumed = 0 ∧ t.aborted = false

/-! ### Runs of host commands -/

/-- What a register holds after the host's writes: the value of the last write that `pick` says is one to it, or the old value
where there is none. -/
def lastWrite {α : Type} (pick : OperandWrite → Option α) (writes : List OperandWrite) (old : α) : α :=
  (writes.filterMap pick).getLastD old

/-- The writes to each operand register and to SRC, picked out. -/
def OperandWrite.value? : OperandWrite → Option Byte
  | .value v => some v
  | .nbits _ | .width _ | .depth _ | .src _ | .raster _ | .barch _ => none

def OperandWrite.nbits? : OperandWrite → Option (BitVec 4)
  | .nbits n => some n
  | .value _ | .width _ | .depth _ | .src _ | .raster _ | .barch _ => none

def OperandWrite.width? : OperandWrite → Option U32
  | .width w => some w
  | .value _ | .nbits _ | .depth _ | .src _ | .raster _ | .barch _ => none

def OperandWrite.depth? : OperandWrite → Option Byte
  | .depth d => some d
  | .value _ | .nbits _ | .width _ | .src _ | .raster _ | .barch _ => none

def OperandWrite.src? : OperandWrite → Option (List Byte)
  | .src bytes => some bytes
  | .value _ | .nbits _ | .width _ | .depth _ | .raster _ | .barch _ => none

def OperandWrite.raster? : OperandWrite → Option RasterImage
  | .raster m => some m
  | .value _ | .nbits _ | .width _ | .depth _ | .src _ | .barch _ => none

def OperandWrite.barch? : OperandWrite → Option BarchImage
  | .barch m => some m
  | .value _ | .nbits _ | .width _ | .depth _ | .src _ | .raster _ => none

/-- A push of the `n`-bit field of `v` as a host issues it (R73). -/
def pushMove (p : Byte × BitVec 4) : HostMove := .issue [.value p.1, .nbits p.2] 0x2

/-- A pull of `n` bits as a host issues it (R78). -/
def pullMove (n : BitVec 4) : HostMove := .issue [.nbits n] 0x5

/-- The stream bits of a list of pushes: `field(v1, n1) ‖ ... ‖ field(vk, nk)` (R76). -/
def pushedBits (ps : List (Byte × BitVec 4)) : Bits := ps.flatMap fun p => fieldBits p.1.toNat p.2.toNat

/-- The pushes of one window: the generators EMIT.WHITE, EMIT.BLACK and EMIT.LIT (R103 to R105). -/
def windowPushes (xs : List Byte) : List (Byte × BitVec 4) :=
  if xs = List.replicate 4 Config.white then [(0, 1)]
  else if xs = List.replicate 4 Config.black then [(0b10, 2)]
  else (0b11, 2) :: xs.map fun x => (x, 8)

/-- The pushes of a row, window after window (R63, R100). -/
def rowPushes : List Byte → List (Byte × BitVec 4)
  | [] => []
  | a :: b :: c :: d :: rest => windowPushes [a, b, c, d] ++ rowPushes rest
  | [a, b, c] => windowPushes [a, b, c]
  | [a, b] => windowPushes [a, b]
  | [a] => windowPushes [a]

/-- `n` steps of the machine, as the host runs it. -/
def run (n : Nat) (s : State) : Host.Outcome State Fault Refusal := Host.Core.run Sys2Proof.core n s

/-- The machine takes host moves: no row is open and ABORTED is clear. -/
def Accepting (s : State) : Prop := s.phase = .idle ∧ s.aborted = false

/-- A row as a list of runs: `n` samples of value `x` for each `(x, n)` (R91). -/
def rowOfRuns (runs : List (Byte × Nat)) : List Byte := runs.flatMap fun p => List.replicate p.2 p.1

/-- The batches a run adds: `n div 4` for a run of `n` white or black samples, none for gray (R91). -/
def batchesOfRuns (runs : List (Byte × Nat)) : Nat :=
  (runs.map fun p => if p.1 = Config.white ∨ p.1 = Config.black then p.2 / 4 else 0).sum

/-- The BarchImage's line `line` stands for the row `row` of `w` samples under its flag (R132): raw bytes, or a stream whose
symbols give the row. -/
def lineHolds (w : Nat) (flag : Bool) (line row : List Byte) : Prop :=
  if flag then
    ∃ is rest, decodeMany (rowWindows w) (bitsOfBytes line) = .ok (is, rest) ∧ samplesOfRow (rowWindows w) is = row
  else line = row ∧ row.length = w

/-- A packed line of exactly its own length: no surplus byte after the last symbol's (R151, R206). A raw line has `w`
bytes. -/
def lineExact (w : Nat) (flag : Bool) (line : List Byte) : Prop :=
  if flag then ∃ is rest, decodeMany (rowWindows w) (bitsOfBytes line) = .ok (is, rest) ∧ rest.length < 8
  else line.length = w

/-- The bytes of a container whose flag bitmap is `bitmap` (R145). -/
def containerWith (magic bitmap : List Byte) (m : BarchImage) : List Byte :=
  magic ++ bytesOfU32 m.width ++ bytesOfU32 m.height ++ bitmap ++ m.lines.flatten

/-- The bytes of a container as SERIALIZE writes it: the unused bits of its bitmap are 0 (R145, R146). -/
def containerBytes (magic : List Byte) (m : BarchImage) : List Byte :=
  containerWith magic (flagBytes m.flags m.height.toNat) m

/-! ### The checks of DESERIALIZE, on the bytes of SRC (R145, R150) -/

/-- SRC begins with MAGIC and holds the two integers: the checks before the dimensions pass (R150). -/
def HeaderRead (magic src : List Byte) : Prop := src.take magic.length = magic ∧ magic.length + 8 ≤ src.length

/-- The width in the header, at offset `MAGIC_LEN` (R38, R145). -/
def headerWidth (magic src : List Byte) : U32 := u32OfBytes ((src.drop magic.length).take 4)

/-- The height in the header, at offset `MAGIC_LEN + 4` (R38, R145). -/
def headerHeight (magic src : List Byte) : U32 := u32OfBytes ((src.drop (magic.length + 4)).take 4)

/-- The flags of the `h` rows: the first `h` bits of the bitmap, at offset `MAGIC_LEN + 8` (R38, R146). -/
def headerFlags (magic src : List Byte) (h : Nat) : List Bool := (bitsOfBytes (src.drop (magic.length + 8))).take h

/-- The row data ends inside a row (R150, R152): a raw row has fewer than `w` bytes left, or the symbols of a packed row are
not all there; the next row begins behind the bytes this one takes (R151). -/
def RowsCutShort (w : Nat) : List Bool → List Byte → Prop
  | [], _ => False
  | false :: flags, buf => buf.length < w ∨ RowsCutShort w flags (buf.drop w)
  | true :: flags, buf =>
    match decodeMany (rowWindows w) (bitsOfBytes buf) with
    | .error _ => True
    | .ok (is, _) => RowsCutShort w flags (buf.drop (ceilDiv (is.flatMap symbolBits).length 8))

/-- The stream of a packed row ends before its symbols for `w` samples are all there (R122). -/
def RowUnderruns (w : Nat) (line : List Byte) : Prop := ∃ r, decodeMany (rowWindows w) (bitsOfBytes line) = .error r

/-- What makes a container malformed (R152, R168): the magic or the two integers are not there; or, with no dimension 0, the
bitmap is not all there, or the row data ends inside a row. -/
def ContainerMalformed (magic src : List Byte) : Prop :=
  ¬ HeaderRead magic src ∨
    (headerWidth magic src ≠ 0 ∧ headerHeight magic src ≠ 0 ∧
      (src.length < magic.length + 8 + ceilDiv (headerHeight magic src).toNat 8 ∨
        RowsCutShort (headerWidth magic src).toNat (headerFlags magic src (headerHeight magic src).toNat)
          (src.drop (magic.length + 8 + ceilDiv (headerHeight magic src).toNat 8))))

/-! ### Operands after an error -/

/-- The latched operands when the command `i` ends in an error: its own, latched before its checks; those of the command
before where it has none, or where DESERIALIZE fails before it has read its header (R24; assumption log 27, log 28). -/
def LatchedBy (i : Instr) (s : State) (l : Latched) : Prop :=
  (i = .encodeRow ∨ i = .decodeRow → l = { s.latched with w := s.operands.width }) ∧
  (i = .encodeImage →
    l = { w := s.operands.raster.width, h := s.operands.raster.height, depth := s.operands.depth }) ∧
  (i = .decodeImage ∨ i = .serialize →
    l = { s.latched with w := s.operands.barch.width, h := s.operands.barch.height }) ∧
  (i = .deserialize → HeaderRead s.magic s.src →
    l = { s.latched with w := headerWidth s.magic s.src, h := headerHeight s.magic s.src }) ∧
  (i = .deserialize → ¬ HeaderRead s.magic s.src → l = s.latched) ∧
  (i = .brPull → l = s.latched)

end Sys2Proof.Machine
end

