-- ==== Sys2Proof/Certificates/Slice0/Obligations.lean ====
section
/-! DEFINITION. The statements for the provers. Each docstring names the rule of spec/ it formalises, or says that a clause
is the model's own choice and names its log entry. -/

open Sys2Proof Sys2Proof.Machine

/-! ### Encoding -/

/-- Words written out from the format table and from the command table of R60 decode to the instruction they stand for; the
codes 0x0, 0xD, 0xE and 0xF select no command (R60, R61). -/
def Obligations.WrittenOutWordsDecode : Prop :=
  decodeSymbol 4 [false] = .ok (.white, []) ∧
  decodeSymbol 4 [true, false] = .ok (.black, []) ∧
  decodeSymbol 1 [true, true, false, true, false, true, true, false, true, false] = .ok (.lit1 0x5A, []) ∧
  decodeSymbol 2 [true, true, false, false, false, true, false, false, true, false,
      false, false, true, true, false, true, false, false] = .ok (.lit2 0x12 0x34, []) ∧
  [0x1, 0x2, 0x3, 0x4, 0x5, 0x6, 0x7, 0x8, 0x9, 0xA, 0xB, 0xC].map decodeCommand =
    [.ok .bwReset, .ok .bwPush, .ok .bwFlush, .ok .brOpen, .ok .brPull, .ok .classify, .ok .encodeRow, .ok .decodeRow,
      .ok .encodeImage, .ok .decodeImage, .ok .serialize, .ok .deserialize] ∧
  ∀ cmd ∈ ([0x0, 0xD, 0xE, 0xF] : List (BitVec 4)), decodeCommand cmd = .error (.unassignedCommand cmd)

/-- Every bit sequence long enough selects one of the three symbols by its prefix, and the only way reading a symbol fails
is that the stream ends (R54). What is read is an instruction that fits the window, and its encoding is the bits read. -/
def Obligations.PrefixCodeIsComplete : Prop :=
  ∀ (k : Nat) (bits : Bits), 1 ≤ k → k ≤ 4 →
    (∀ r, decodeSymbol k bits = .error r → r = .shortSymbol ∧ bits.length < 2 + 8 * k) ∧
    (∀ i rest, decodeSymbol k bits = .ok (i, rest) →
      bits = symbolBits i ++ rest ∧ i.fitsWindow k = true ∧
      (i = .white ↔ bits[0]? = some false) ∧
      (i = .black ↔ bits[0]? = some true ∧ bits[1]? = some false) ∧
      (symbolBits i).length = if bits[0]? = some false then 1 else if bits[1]? = some false then 2 else 2 + 8 * k)

/-- The operands in the stream (R57): bit `7 − m` of sample `j` of a literal is the stream bit at offset `2 + 8j + m`, and
nothing follows the last present sample (R53). -/
def Obligations.LiteralSamplesAreVerbatim : Prop :=
  ∀ (k : Nat) (bits rest : Bits) (i : Instr), decodeSymbol k bits = .ok (i, rest) → i ≠ .white → i ≠ .black →
    (samplesOf k i).length = k ∧ bits[0]? = some true ∧ bits[1]? = some true ∧ rest = bits.drop (2 + 8 * k) ∧
    ∀ j < k, ∀ m < 8, ((samplesOf k i)[j]?).map (fun x => x.getLsbD (7 - m)) = bits[2 + 8 * j + m]?

/-- Decode and encode agree: the symbols of a row, one after another with nothing between them, are read back one by one,
whatever bits follow (R50 to R55, R106); and every command's code is read back. -/
def Obligations.DecodeOfEncodeIsTheInstruction : Prop :=
  (∀ (ws : List (Nat × Instr)) (rest : Bits), (∀ p ∈ ws, p.2.fitsWindow p.1 = true) →
    decodeMany (ws.map Prod.fst) (ws.flatMap (fun p => symbolBits p.2) ++ rest) = .ok (ws.map Prod.snd, rest)) ∧
  (∀ (k : Nat) (i : Instr), i.wellFormed k = true → decode k (encode i) = .ok i)

/-! ### The step -/

/-- A command the host issues, with no reset while it is running, runs on the state its operand writes leave, the move taken
off the host's list (R10, R60; the list and the operand writes are the model's own: log 2, log 3, log 17). -/
def Obligations.StepRunsTheIssuedCommand : Prop :=
  ∀ (s : State) (writes : List OperandWrite) (cmd : BitVec 4) (rest : List HostMove) (i : Instr),
    Accepting s → s.inbox = .issue writes cmd :: rest → rest.head? ≠ some .resetNow → decodeCommand cmd = .ok i →
      step s = exec i ({ s with inbox := rest }.applyWrites writes)

/-- In an open row, with no reset while it runs, the step runs the symbol that the decoder reads off the unread bits, with the
cursor moved past exactly its bits (R20, R79, R116); where the stream ends inside the symbol the command ends with
DecodeUnderrun (R122). -/
def Obligations.StepRunsTheSymbolAtTheCursor : Prop :=
  ∀ s : State, s.phase = .decoding → s.inbox.head? ≠ some .resetNow → 0 < s.rem → s.reader.avail ≤ 8 →
    (∀ i rest, decodeSymbol (min 4 s.rem) (unreadBits s.src s.reader) = .ok (i, rest) →
      ∃ b : BitReader, step s = exec i { s with reader := b } ∧ unreadBits s.src b = rest ∧
        8 * b.rdPos + s.reader.avail = 8 * s.reader.rdPos + b.avail + (symbolBits i).length) ∧
    (∀ r, decodeSymbol (min 4 s.rem) (unreadBits s.src s.reader) = .error r →
      step s = .next (s.errorEntry .decodeUnderrun))

/-- A code that selects no command aborts, and the model refuses it (R61); while ABORTED is set no command is accepted
(R26). -/
def Obligations.UnacceptedCommandsAreRefused : Prop :=
  ∀ (s : State) (writes : List OperandWrite) (cmd : BitVec 4) (rest : List HostMove),
    s.phase = .idle → s.inbox = .issue writes cmd :: rest →
      (s.aborted = true → step s = .refused .commandWhileAborted) ∧
      (s.aborted = false → (cmd = 0x0 ∨ cmd = 0xD ∨ cmd = 0xE ∨ cmd = 0xF) → step s = .refused .unknownCommand)

/-- Reset puts every register R190 names, and every other register for which R29 gives a value, at that value, from any
state between commands; and then the core waits for a command (R190). That a `resetNow` between commands is such a reset and
that the host's other moves stay is the model's choice (log 17), and so are the list of moves and the step that waits (log 3). -/
def Obligations.ResetThenWait : Prop :=
  ∀ (s : State) (rest : List HostMove), s.phase = .idle → s.inbox = .reset :: rest ∨ s.inbox = .resetNow :: rest →
    ∃ t : State, step s = .next t ∧ RegistersAtReset t ∧ t.dst = [] ∧ t.phase = .idle ∧ t.inbox = rest ∧
      (rest = [] → step t = .next t)

/-- While a row is open the host's moves wait: "the host sees the state before it and the state after it and nothing
between" (R10). Only a reset that does not wait is taken (O58). -/
def Obligations.OpenRowRunsBeforeTheHost : Prop :=
  ∀ s t : State, s.phase = .decoding → s.inbox.head? ≠ some .resetNow → step s = .next t →
    t.inbox = s.inbox ∧ t.operands = s.operands ∧ t.src = s.src ∧ t.aborted = s.aborted

/-! ### BitPacker -/

/-- BW.PUSH in R73's closed form, with `p = 8 − free` pending bits and `t = p + nbits`: for `t < 8` nothing is emitted; for
`t >= 8` one byte is. A count outside 1 to 8 aborts. `res_byte` keeps its value when no byte is completed: that clause is the
model's (log 18). -/
def Obligations.BwPushClosedForm : Prop :=
  ∀ s : State, 1 ≤ s.writer.free → s.writer.free ≤ 8 →
    let n := s.operands.nbits.toNat
    let t := 8 - s.writer.free + n
    let val := s.operands.value &&& BitVec.ofNat 8 (2 ^ n - 1)
    (n = 0 ∨ 8 < n → exec .bwPush s = .refused .badBitCount) ∧
    (1 ≤ n → n ≤ 8 → ∃ u : State, exec .bwPush s = .next u ∧ u.results.status = .ok ∧ u.residue.vrem = 0 ∧
      (t < 8 → u.writer = { acc := s.writer.acc ||| (val <<< (8 - t)), free := 8 - t } ∧ u.dst = s.dst ∧
        u.results.resByteValid = false ∧ u.results.resByte = s.results.resByte) ∧
      (8 ≤ t → u.writer = { acc := val <<< (16 - t), free := 16 - t } ∧
        u.dst = s.dst ++ [s.writer.acc ||| (val >>> (t - 8))] ∧
        u.results.resByteValid = true ∧ u.results.resByte = (s.writer.acc ||| (val >>> (t - 8)))))

/-- Bits of `value` above `nbits` are ignored, and a count outside 1 to 8 aborts BW.PUSH and BR.PULL (R72, R78). -/
def Obligations.PushOperandContract : Prop :=
  (∀ (s : State) (v v' : Byte), v &&& lowMask s.operands.nbits.toNat = v' &&& lowMask s.operands.nbits.toNat →
    ∀ t, exec .bwPush { s with operands := { s.operands with value := v } } = .next t →
      exec .bwPush { s with operands := { s.operands with value := v' } } =
        .next { t with operands := { s.operands with value := v' } }) ∧
  (∀ s : State, ¬ (1 ≤ s.operands.nbits.toNat ∧ s.operands.nbits.toNat ≤ 8) →
    exec .bwPush s = .refused .badBitCount ∧ exec .brPull s = .refused .badBitCount)

/-- BW.FLUSH (R74): the trailing partial byte is emitted as it stands and the writer is empty; where the unfilled positions
of `acc` hold 0 (R13), the byte is the pending bits and then `free` zero bits; with nothing pending nothing is emitted, so a
second BW.FLUSH in a row does nothing to the stream. -/
def Obligations.BwFlushClosesTheByte : Prop :=
  ∀ s : State, 1 ≤ s.writer.free → s.writer.free ≤ 8 →
    ∃ t : State, exec .bwFlush s = .next t ∧ t.results.status = .ok ∧
      (s.writer.free < 8 → t.dst = s.dst ++ [s.writer.acc] ∧ t.writer = { acc := 0, free := 8 } ∧
        t.results.resByteValid = true ∧ t.results.resByte = s.writer.acc) ∧
      (s.writer.free < 8 → s.writer.Ok →
        bitsOfBytes t.dst = writtenBits s.dst s.writer ++ List.replicate s.writer.free false) ∧
      (s.writer.free = 8 → t.dst = s.dst ∧ t.writer = s.writer ∧ t.results.resByteValid = false) ∧
      ∃ u : State, exec .bwFlush t = .next u ∧ u.dst = t.dst ∧ u.writer = t.writer ∧ u.results.resByteValid = false

/-- BW.RESET starts a new output stream (R75) and BR.OPEN puts the cursor at the first bit of its buffer (R77), from every
state; the first BR.PULL on an empty buffer underruns. -/
def Obligations.StreamsAreOpened : Prop :=
  ∀ s : State,
    (∃ t : State, exec .bwReset s = .next t ∧ t.writer = { acc := 0, free := 8 } ∧ t.dst = [] ∧
      t.results.resByteValid = false ∧ t.results.status = .ok) ∧
    (∃ t : State, exec .brOpen s = .next t ∧ t.reader.rdPos = 0 ∧ t.reader.avail = 0 ∧ t.src = s.src ∧
      t.results.status = .ok ∧ unreadBits t.src t.reader = bitsOfBytes s.src ∧
      (s.src = [] → legalBitCount s.operands.nbits = true →
        ∃ u : State, exec .brPull t = .next u ∧ u.results.status = .error .decodeUnderrun))

/-- BR.PULL (R78): with `nbits` bits left it returns the next `nbits` as a number, first bit most significant, and moves
past exactly them, `rd_pos` counting the bytes of which a bit was consumed; with fewer it raises DecodeUnderrun and the
BitReader does not move; a count outside 1 to 8 aborts. -/
def Obligations.BrPullTakesTheNextBits : Prop :=
  ∀ s : State, s.reader.avail ≤ 8 →
    let n := s.operands.nbits.toNat
    (n = 0 ∨ 8 < n → exec .brPull s = .refused .badBitCount) ∧
    (1 ≤ n → n ≤ 8 → n ≤ (unreadBits s.src s.reader).length →
      ∃ t : State, exec .brPull s = .next t ∧ t.results.status = .ok ∧
        t.results.resBits.toNat = natOfBits ((unreadBits s.src s.reader).take n) ∧ t.src = s.src ∧
        unreadBits s.src t.reader = (unreadBits s.src s.reader).drop n ∧
        8 * t.reader.rdPos + s.reader.avail = 8 * s.reader.rdPos + t.reader.avail + n ∧ t.reader.avail ≤ 7) ∧
    (1 ≤ n → n ≤ 8 → (unreadBits s.src s.reader).length < n →
      ∃ t : State, exec .brPull s = .next t ∧ t.results.status = .error .decodeUnderrun ∧ t.reader = s.reader ∧
        t.src = s.src)

/-- The BitWriter stream law (R76), on the machine's own runs: BW.RESET, the pushes and BW.FLUSH leave in DST the fields'
bits, zero-padded, in `ceil_div(N, 8)` bytes; before the flush `dst_len = N div 8` and `free = 8 − (N mod 8)`; and how the
bits were split into pushes does not matter. -/
def Obligations.BitWriterStreamLaw : Prop :=
  ∀ (s : State) (ps : List (Byte × BitVec 4)) (rest : List HostMove), Accepting s →
    (∀ p ∈ ps, legalBitCount p.2 = true) → rest.head? ≠ some .resetNow →
    s.inbox = .issue [] 0x1 :: (ps.map pushMove ++ .issue [] 0x3 :: rest) →
      ∃ t u : State, run (ps.length + 1) s = .next t ∧ run (ps.length + 2) s = .next u ∧
        t.dst.length = (pushedBits ps).length / 8 ∧ t.writer.free = 8 - (pushedBits ps).length % 8 ∧
        bitsOfBytes u.dst = padToByte (pushedBits ps) ∧ u.dst.length = ceilDiv (pushedBits ps).length 8 ∧
        u.writer = { acc := 0, free := 8 } ∧ u.inbox = rest ∧
        ∀ (s' : State) (qs : List (Byte × BitVec 4)) (rest' : List HostMove), Accepting s' →
          (∀ q ∈ qs, legalBitCount q.2 = true) → pushedBits qs = pushedBits ps → rest'.head? ≠ some .resetNow →
          s'.inbox = .issue [] 0x1 :: (qs.map pushMove ++ rest') →
            ∃ t' : State, run (qs.length + 1) s' = .next t' ∧ t'.writer = t.writer ∧ t'.dst = t.dst

/-- Reader and writer duality (R80), on the machine's own runs: bytes that hold the pushed fields and zero padding, opened
and pulled with the same sizes, return the fields, and leave only the padding unread; pulls of other sizes that sum to at
most `N` return the same bit string. -/
def Obligations.ReaderWriterDuality : Prop :=
  (∀ (s : State) (bytes : List Byte) (qs : List (Byte × BitVec 4)) (p : Byte × BitVec 4) (rest : List HostMove),
    Accepting s → (∀ q ∈ qs, legalBitCount q.2 = true) → legalBitCount p.2 = true →
    bitsOfBytes bytes = padToByte (pushedBits (qs ++ [p])) → rest.head? ≠ some .resetNow →
    s.inbox = .issue [.src bytes] 0x4 :: (qs.map (fun q => pullMove q.2) ++ pullMove p.2 :: rest) →
      ∃ t : State, run (qs.length + 2) s = .next t ∧ t.results.status = .ok ∧
        t.results.resBits.toNat = p.1.toNat % 2 ^ p.2.toNat ∧
        t.reader.rdPos = ceilDiv (pushedBits (qs ++ [p])).length 8 ∧
        t.reader.avail = (8 - (pushedBits (qs ++ [p])).length % 8) % 8 ∧
        unreadBits t.src t.reader = List.replicate t.reader.avail false) ∧
  (∀ (s : State) (bytes : List Byte) (ps : List (Byte × BitVec 4)) (ns : List (BitVec 4)) (n : BitVec 4)
      (rest : List HostMove),
    Accepting s → (∀ m ∈ ns, legalBitCount m = true) → legalBitCount n = true →
    bitsOfBytes bytes = padToByte (pushedBits ps) → rest.head? ≠ some .resetNow →
    (ns.map BitVec.toNat).sum + n.toNat ≤ (pushedBits ps).length →
    s.inbox = .issue [.src bytes] 0x4 :: (ns.map pullMove ++ pullMove n :: rest) →
      ∃ t : State, run (ns.length + 2) s = .next t ∧ t.results.status = .ok ∧
        t.results.resBits.toNat = natOfBits (((pushedBits ps).drop (ns.map BitVec.toNat).sum).take n.toNat))

/-- The BitWriter invariant (R12, R13): BW.RESET, ENCODE_ROW and reset establish it, and every step that does not end in an
error keeps it (after an error the BitWriter holds any value, R175). -/
def Obligations.WriterInvariantKept : Prop :=
  State.reset.writer.Ok ∧
  (∀ s t : State, exec .bwReset s = .next t → t.writer.Ok) ∧
  (∀ s t : State, exec .encodeRow s = .next t → t.results.status = .ok → t.writer.Ok) ∧
  (∀ s t : State, s.writer.Ok → step s = .next t → t.results.status = .ok → t.writer.Ok)

/-! ### RowClassifier -/

/-- CLASSIFY (R90, R92), on a row given as runs of equal samples, neighbouring runs different: a run of `n` white or black
samples adds `n div 4` batches (R91), and the row is marked iff there are at least 2. That the writer is empty afterwards
(log 12) and that the reader keeps its value (log 10) is the model's reading. -/
def Obligations.ClassifyCountsBatches : Prop :=
  ∀ (s : State) (runs : List (Byte × Nat)), runs.IsChain (fun p q => p.1 ≠ q.1) → (∀ p ∈ runs, 0 < p.2) →
    s.src = rowOfRuns runs → s.operands.width.toNat = s.src.length →
      ∃ t : State, exec .classify s = .next t ∧ t.results.status = .ok ∧
        t.results.resFlag = decide (2 ≤ batchesOfRuns runs) ∧ t.counters.wbat + t.counters.bbat = batchesOfRuns runs ∧
        t.src = s.src ∧ t.writer = { acc := 0, free := 8 } ∧ t.reader = s.reader ∧ t.latched.w = s.operands.width

/-- Rows of fewer than 8 samples, the empty one among them, are classified without error and are never marked (R93). -/
def Obligations.ShortRowsAreNotMarked : Prop :=
  ∀ s : State, s.src.length = s.operands.width.toNat → s.operands.width.toNat < 8 →
    ∃ t : State, exec .classify s = .next t ∧ t.results.status = .ok ∧ t.results.resFlag = false

/-- The two properties of R94: a row of at least 2 full batches of uniform white or black, in any combination, is marked; a
row of all-distinct samples is not. -/
def Obligations.ClassifierMonotonicity : Prop :=
  ∀ s t : State, exec .classify s = .next t →
    (∀ batches : List Bool, 2 ≤ batches.length →
      s.src = batches.flatMap (fun w => List.replicate 4 (if w then Config.white else Config.black)) →
        t.results.resFlag = true) ∧
    (s.src.Nodup → t.results.resFlag = false)

/-- The counters of R19 after any row, and the counter registers after CLASSIFY and after an ENCODE_IMAGE that ends OK: each
run counter is 0 to 3, at most one is non-zero, and `wbat + bbat <= W div 4`. -/
def Obligations.ClassifierCountersStayBounded : Prop :=
  (∀ row : List Byte,
    (classifyRow row).wrun ≤ 3 ∧ (classifyRow row).brun ≤ 3 ∧
    ((classifyRow row).wrun = 0 ∨ (classifyRow row).brun = 0) ∧
    (classifyRow row).wbat + (classifyRow row).bbat ≤ row.length / 4) ∧
  (∀ s t : State, exec .classify s = .next t ∨ (exec .encodeImage s = .next t ∧ t.results.status = .ok) →
    t.counters.wrun ≤ 3 ∧ t.counters.brun ≤ 3 ∧ (t.counters.wrun = 0 ∨ t.counters.brun = 0) ∧
    t.counters.wbat + t.counters.bbat ≤ t.latched.w.toNat / 4)

/-! ### RowEncoder -/

/-- ENCODE_ROW (R100 to R107): every row of `W >= 1` samples is packed to its windows' symbols, contiguous, zero-padded to a
byte; the writer is empty afterwards. That the reader and the working registers of the other units keep their values is the
model's reading (log 12, log 23). -/
def Obligations.EncodeRowPacksTheSymbols : Prop :=
  ∀ s : State, s.src.length = s.operands.width.toNat → s.operands.width.toNat ≠ 0 →
    ∃ t : State, exec .encodeRow s = .next t ∧ t.results.status = .ok ∧
      bitsOfBytes t.dst = padToByte (rowBits s.src) ∧ t.writer = { acc := 0, free := 8 } ∧
      t.latched = { s.latched with w := s.operands.width } ∧ t.reader = s.reader ∧ t.src = s.src ∧
      t.counters = s.counters ∧ t.rem = s.rem ∧ t.pipeline = s.pipeline ∧ t.operands = s.operands ∧ t.aborted = s.aborted

/-- The size of a packed row (R62, R109): `1 <= dst_len <= W + ceil_div(ceil_div(W, 4), 4)`. -/
def Obligations.PackedRowSize : Prop :=
  ∀ s t : State, exec .encodeRow s = .next t → t.results.status = .ok →
    1 ≤ t.dst.length ∧
      t.dst.length ≤ s.operands.width.toNat + ceilDiv (ceilDiv s.operands.width.toNat 4) 4

/-- ENCODE_ROW "has the same effect on DST as BW.RESET, then the BW.PUSH sequence of rules R103 to R105 for each window,
then BW.FLUSH" (R63), the sequence run by the machine from the host's moves. -/
def Obligations.EncodeRowIsThePushSequence : Prop :=
  ∀ (s : State) (rest : List HostMove), Accepting s → s.src.length = s.operands.width.toNat →
    s.operands.width.toNat ≠ 0 → rest.head? ≠ some .resetNow →
    s.inbox = .issue [] 0x1 :: ((rowPushes s.src).map pushMove ++ .issue [] 0x3 :: rest) →
      ∃ t u : State, exec .encodeRow s = .next t ∧ run ((rowPushes s.src).length + 2) s = .next u ∧ t.dst = u.dst ∧
        t.writer = u.writer

/-- A row operand whose length is not `W` breaks the contract of CLASSIFY and of ENCODE_ROW, and the model refuses it
(R90, R100, R171). A zero width raises InvalidDimensions first in ENCODE_ROW and DECODE_ROW (R166; that it comes before the
contract is the model's reading: log 13). -/
def Obligations.RowOperandChecks : Prop :=
  ∀ s : State,
    (s.src.length ≠ s.operands.width.toNat → exec .classify s = .refused .rowLengthMismatch) ∧
    (s.src.length ≠ s.operands.width.toNat → s.operands.width.toNat ≠ 0 →
      exec .encodeRow s = .refused .rowLengthMismatch) ∧
    (s.operands.width.toNat = 0 → ∃ t u : State, exec .encodeRow s = .next t ∧ exec .decodeRow s = .next u ∧
      t.results.status = .error .invalidDimensions ∧ u.results.status = .error .invalidDimensions)

/-! ### RowDecoder -/

/-- WHITE and BLACK in an open row (R117, R118): `k = min(4, rem)` samples of 255 or of 0 are emitted and `rem` falls by
`k`; with the last one the row ends as R115 says. -/
def Obligations.UniformSymbolsProduce : Prop :=
  ∀ (s : State) (i : Instr) (x : Byte), (i = .white ∧ x = 255) ∨ (i = .black ∧ x = 0) →
    s.phase = .decoding → 0 < s.rem →
      ∃ t : State, exec i s = .next t ∧ t.dst = s.dst ++ List.replicate (min 4 s.rem) x ∧ t.rem = s.rem - min 4 s.rem ∧
        (4 < s.rem → t = { s with dst := t.dst, rem := t.rem }) ∧
        (s.rem ≤ 4 → t.rem = 0 ∧ t.phase = .idle ∧ t.results.status = .ok ∧ t.results.resConsumed = s.reader.rdPos)

/-- LIT1 to LIT4 in an open row whose window has their length (R119): the samples are emitted verbatim; with the last one
the row ends as R115 says. -/
def Obligations.LiteralsProduce : Prop :=
  ∀ (s : State) (a b c d : Byte) (i : Instr) (xs : List Byte),
    (i = .lit1 a ∧ xs = [a]) ∨ (i = .lit2 a b ∧ xs = [a, b]) ∨ (i = .lit3 a b c ∧ xs = [a, b, c]) ∨
      (i = .lit4 a b c d ∧ xs = [a, b, c, d]) →
    s.phase = .decoding → min 4 s.rem = xs.length →
      ∃ t : State, exec i s = .next t ∧ t.dst = s.dst ++ xs ∧ t.rem = s.rem - xs.length ∧
        (t.rem ≠ 0 → t = { s with dst := t.dst, rem := t.rem }) ∧
        (t.rem = 0 → t.phase = .idle ∧ t.results.status = .ok ∧ t.results.resConsumed = s.reader.rdPos)

/-- A symbol where no row is open, or in a window it does not fit, has no effect in the spec: the model refuses it (the
model's choice, log 24). -/
def Obligations.SymbolsOutsideTheirWindowAreRefused : Prop :=
  ∀ (s : State) (i : Instr), i.isCommand = false → i.fitsWindow s.windowSize = false →
    exec i s = .refused .symbolOutsideRow

/-- DECODE_ROW (R115, R116, R120, R122, R123): it reads the row's windows off the stream; if the decoder finds a symbol for
each, DST is exactly their `W` samples and `res_consumed` the bytes of which a bit was consumed; if the stream ends before,
the command ends with DecodeUnderrun. -/
def Obligations.DecodeRowReadsTheStream : Prop :=
  ∀ s : State, s.operands.width.toNat ≠ 0 →
    (∀ is rest, decodeMany (rowWindows s.operands.width.toNat) (bitsOfBytes s.src) = .ok (is, rest) →
      ∃ t : State, exec .decodeRow s = .next t ∧ t.results.status = .ok ∧
        t.dst = samplesOfRow (rowWindows s.operands.width.toNat) is ∧ t.dst.length = s.operands.width.toNat ∧
        t.results.resConsumed = ceilDiv (is.flatMap symbolBits).length 8 ∧ t.results.resConsumed = t.reader.rdPos ∧
        t.rem = 0 ∧ t.phase = .idle ∧ unreadBits s.src t.reader = rest) ∧
    (∀ r, decodeMany (rowWindows s.operands.width.toNat) (bitsOfBytes s.src) = .error r →
      ∃ t : State, exec .decodeRow s = .next t ∧ t.results.status = .error .decodeUnderrun)

/-- DECODE_ROW as one command is its symbol steps (R10, R115, R120): from the state with the row just opened, the machine's
own steps reach exactly the state the command answers, in `ceil_div(W, 4)` steps when no error occurs and no reset cuts it. -/
def Obligations.DecodeRowIsItsSymbolSteps : Prop :=
  ∀ s : State, s.operands.width.toNat ≠ 0 → s.inbox.head? ≠ some .resetNow →
    ∃ n, 1 ≤ n ∧ n ≤ ceilDiv s.operands.width.toNat 4 ∧
      run n (openRow s.operands.width.toNat s.latchWidth) = exec .decodeRow s ∧
      ∀ t, exec .decodeRow s = .next t → t.results.status = .ok → n = ceilDiv s.operands.width.toNat 4

/-- The round trip of a row (R125): for every row with `W >= 1`, decoding what ENCODE_ROW made, with the same width,
succeeds, returns the row, and consumes all of it. -/
def Obligations.RowRoundTrip : Prop :=
  ∀ s s' t : State, s.src.length = s.operands.width.toNat → s.operands.width.toNat ≠ 0 →
    exec .encodeRow s = .next t → s'.src = t.dst → s'.operands.width = s.operands.width →
      ∃ u : State, exec .decodeRow s' = .next u ∧ u.results.status = .ok ∧ u.dst = s.src ∧
        u.results.resConsumed = t.dst.length

/-- Surplus bytes are not read and are no error: whatever stands from `res_consumed` on, fewer bytes than SRC has there, other
ones or more, the result is the same (R124). -/
def Obligations.SurplusBytesAreIgnored : Prop :=
  ∀ (s t : State) (extra : List Byte), exec .decodeRow s = .next t → t.results.status = .ok →
    ∃ u : State, exec .decodeRow { s with src := s.src.take t.results.resConsumed ++ extra } = .next u ∧
      u.results.status = .ok ∧ u.dst = t.dst ∧ u.results.resConsumed = t.results.resConsumed ∧
      t.results.resConsumed ≤ s.src.length

/-- Termination by width (R201 (b)): decoding with a smaller width succeeds and returns the first samples of the row. -/
def Obligations.SmallerWidthDecodesAPrefix : Prop :=
  ∀ s s' t : State, exec .decodeRow s = .next t → t.results.status = .ok → s'.src = s.src →
    s'.operands.width.toNat ≠ 0 → s'.operands.width.toNat ≤ s.operands.width.toNat →
      ∃ u : State, exec .decodeRow s' = .next u ∧ u.results.status = .ok ∧
        u.dst = t.dst.take s'.operands.width.toNat ∧ u.results.resConsumed ≤ t.results.resConsumed

/-- The least input (R126): a row of width `W` needs `ceil_div(ceil_div(W, 4), 8)` bytes; a shorter SRC always underruns. -/
def Obligations.ShortInputUnderruns : Prop :=
  ∀ s : State, s.operands.width.toNat ≠ 0 →
    s.src.length < ceilDiv (ceilDiv s.operands.width.toNat 4) 8 →
      ∃ t : State, exec .decodeRow s = .next t ∧ t.results.status = .error .decodeUnderrun

/-! ### The pipeline -/

/-- ENCODE_IMAGE (R131 to R133): each row is classified; a marked row's line is its packed form, an unmarked row's line is
its samples; the result holds flags and lines in row order. That the writer is empty afterwards, raw rows only among them,
is the model's reading of R203 (log 12). -/
def Obligations.EncodeImageStoresEachRow : Prop :=
  ∀ s : State, s.operands.raster.width.toNat ≠ 0 → s.operands.raster.height.toNat ≠ 0 → s.operands.depth = 8 →
    s.operands.raster.wellShaped = true →
      ∃ t : State, exec .encodeImage s = .next t ∧ t.results.status = .ok ∧
        t.results.resBarch.width = s.operands.raster.width ∧ t.results.resBarch.height = s.operands.raster.height ∧
        t.results.resBarch.flags = s.operands.raster.rows.map (fun row => (classifyRow row).verdict) ∧
        List.Forall₂ (fun row line => if (classifyRow row).verdict then bitsOfBytes line = padToByte (rowBits row)
          else line = row) s.operands.raster.rows t.results.resBarch.lines ∧
        t.latched = { w := s.operands.raster.width, h := s.operands.raster.height, depth := 8 } ∧ t.src = s.src ∧
        t.writer = { acc := 0, free := 8 }

/-- DECODE_IMAGE (R134): a BarchImage whose counts agree and whose lines hold the rows `rows` decodes to them. That it
empties the writer is the model's reading of R203 (log 12). -/
def Obligations.DecodeImageDecodesEachLine : Prop :=
  ∀ (s : State) (rows : List (List Byte)), s.operands.barch.width.toNat ≠ 0 → s.operands.barch.height.toNat ≠ 0 →
    s.operands.barch.countsAgree = true →
    List.Forall₂ (fun (p : Bool × List Byte) row => lineHolds s.operands.barch.width.toNat p.1 p.2 row)
      (s.operands.barch.flags.zip s.operands.barch.lines) rows →
      ∃ t : State, exec .decodeImage s = .next t ∧ t.results.status = .ok ∧
        t.results.resRaster = { width := s.operands.barch.width, height := s.operands.barch.height, rows := rows } ∧
        t.results.resRaster.wellShaped = true ∧ t.src = s.src ∧ t.writer = { acc := 0, free := 8 }

/-- The image round trip (R136): `DECODE_IMAGE(ENCODE_IMAGE(image)) = image`. -/
def Obligations.ImageRoundTrip : Prop :=
  ∀ s s' t : State, s.operands.raster.width.toNat ≠ 0 → s.operands.raster.height.toNat ≠ 0 → s.operands.depth = 8 →
    s.operands.raster.wellShaped = true → exec .encodeImage s = .next t → s'.operands.barch = t.results.resBarch →
      ∃ u : State, exec .decodeImage s' = .next u ∧ u.results.status = .ok ∧ u.results.resRaster = s.operands.raster

/-- The errors of the image commands, in the order of R174: dimensions before depth in ENCODE_IMAGE (R166, R167);
dimensions before counts before rows in DECODE_IMAGE and SERIALIZE (R135, R148). In DECODE_IMAGE the first row that fails
decides: a packed line that ends before its symbols are all there ends in DecodeUnderrun (R122, R169), a raw line that does not
have `W` bytes in MalformedContainer. So a BarchImage with such a packed line never decodes. That ENCODE_IMAGE raises its
errors before it looks at the shape of an ill-shaped RasterImage, which aborts, is the model's choice (log 13). -/
def Obligations.ImageErrorsInOrder : Prop :=
  ∀ s : State,
    ((s.operands.raster.width.toNat = 0 ∨ s.operands.raster.height.toNat = 0) →
      ∃ t, exec .encodeImage s = .next t ∧ t.results.status = .error .invalidDimensions) ∧
    (s.operands.raster.width.toNat ≠ 0 → s.operands.raster.height.toNat ≠ 0 → s.operands.depth ≠ 8 →
      ∃ t, exec .encodeImage s = .next t ∧ t.results.status = .error .unsupportedSampleDepth) ∧
    ((s.operands.barch.width.toNat = 0 ∨ s.operands.barch.height.toNat = 0) →
      ∃ t u, exec .decodeImage s = .next t ∧ exec .serialize s = .next u ∧
        t.results.status = .error .invalidDimensions ∧ u.results.status = .error .invalidDimensions) ∧
    (s.operands.barch.width.toNat ≠ 0 → s.operands.barch.height.toNat ≠ 0 → s.operands.barch.wellShaped = false →
      ∃ t u e, exec .decodeImage s = .next t ∧ exec .serialize s = .next u ∧
        u.results.status = .error .malformedContainer ∧ t.results.status = .error e ∧
        (e = .malformedContainer ∨ (e = .decodeUnderrun ∧ true ∈ s.operands.barch.flags)) ∧
        (s.operands.barch.countsAgree = false → e = .malformedContainer)) ∧
    (s.operands.barch.width.toNat ≠ 0 → s.operands.barch.height.toNat ≠ 0 → s.operands.barch.countsAgree = true →
      ∀ (before after : List (Bool × List Byte)) (flag : Bool) (line : List Byte),
        s.operands.barch.flags.zip s.operands.barch.lines = before ++ (flag, line) :: after →
        (∀ p ∈ before, ∃ row, lineHolds s.operands.barch.width.toNat p.1 p.2 row) →
          (flag = true → RowUnderruns s.operands.barch.width.toNat line →
            ∃ t, exec .decodeImage s = .next t ∧ t.results.status = .error .decodeUnderrun) ∧
          (flag = false → line.length ≠ s.operands.barch.width.toNat →
            ∃ t, exec .decodeImage s = .next t ∧ t.results.status = .error .malformedContainer)) ∧
    (s.operands.barch.width.toNat ≠ 0 → s.operands.barch.height.toNat ≠ 0 → s.operands.barch.wellShaped = true →
      (∃ p ∈ s.operands.barch.flags.zip s.operands.barch.lines, p.1 = true ∧
        RowUnderruns s.operands.barch.width.toNat p.2) →
          ∃ t, exec .decodeImage s = .next t ∧ t.results.status = .error .decodeUnderrun)

/-! ### The container -/

/-- SERIALIZE (R145, R146, R148): magic, width and height little-endian (R34), the flag bitmap MSB first padded with zero
bits, then every line verbatim, with nothing between them and nothing after. -/
def Obligations.SerializeLayout : Prop :=
  ∀ s : State, s.operands.barch.width.toNat ≠ 0 → s.operands.barch.height.toNat ≠ 0 →
    s.operands.barch.wellShaped = true →
      ∃ (t : State) (w h bitmap : List Byte), exec .serialize s = .next t ∧ t.results.status = .ok ∧
        t.dst = s.magic ++ w ++ h ++ bitmap ++ s.operands.barch.lines.flatten ∧
        w.length = 4 ∧ h.length = 4 ∧ bitmap.length = ceilDiv s.operands.barch.height.toNat 8 ∧
        s.operands.barch.width.toNat = (w.getD 0 0).toNat + 256 * (w.getD 1 0).toNat + 65536 * (w.getD 2 0).toNat +
          16777216 * (w.getD 3 0).toNat ∧
        s.operands.barch.height.toNat = (h.getD 0 0).toNat + 256 * (h.getD 1 0).toNat + 65536 * (h.getD 2 0).toNat +
          16777216 * (h.getD 3 0).toNat ∧
        bitsOfBytes bitmap = padToByte s.operands.barch.flags ∧
        t.dst.length = s.magic.length + 8 + ceilDiv s.operands.barch.height.toNat 8 +
          (s.operands.barch.lines.map List.length).sum ∧
        t.src = s.src

/-- DESERIALIZE (R150, R151, R153): a container whose raw lines have `W` bytes and whose packed lines are exactly as long as
their symbols, whatever their padding and their choice of symbols, is cut back into its rows. The bits of the bitmap behind the
flags of its `H` rows are ignored, zero or not, and so are the bytes after the last row. That the writer is empty afterwards is
the model's reading of R203 (log 12). -/
def Obligations.DeserializeCutsTheRows : Prop :=
  ∀ (s : State) (m : BarchImage) (bitmap extra : List Byte), m.width.toNat ≠ 0 → m.height.toNat ≠ 0 →
    m.countsAgree = true → (∀ p ∈ m.flags.zip m.lines, lineExact m.width.toNat p.1 p.2) →
    bitmap.length = ceilDiv m.height.toNat 8 → (bitsOfBytes bitmap).take m.height.toNat = m.flags →
    s.src = s.magic ++ bytesOfU32 m.width ++ bytesOfU32 m.height ++ bitmap ++ m.lines.flatten ++ extra →
      ∃ t : State, exec .deserialize s = .next t ∧ t.results.status = .ok ∧ t.results.resBarch = m ∧
        t.latched = { s.latched with w := m.width, h := m.height } ∧ t.src = s.src ∧ t.writer = { acc := 0, free := 8 }

/-- The container round trip (R154): what SERIALIZE writes, DESERIALIZE reads back, whatever bytes follow, for every BarchImage
in order whose packed lines are each what ENCODE_ROW makes of some row of width `W`; and so for every result of
ENCODE_IMAGE. -/
def Obligations.ContainerRoundTrip : Prop :=
  (∀ (s' s'' u : State) (extra : List Byte), s'.operands.barch.width.toNat ≠ 0 → s'.operands.barch.height.toNat ≠ 0 →
    s'.operands.barch.wellShaped = true →
    (∀ p ∈ s'.operands.barch.flags.zip s'.operands.barch.lines, p.1 = true →
      ∃ r t : State, r.src.length = r.operands.width.toNat ∧ r.operands.width = s'.operands.barch.width ∧
        exec .encodeRow r = .next t ∧ t.dst = p.2) →
    exec .serialize s' = .next u → s''.src = u.dst ++ extra → s''.magic = s'.magic →
      ∃ v : State, exec .deserialize s'' = .next v ∧ v.results.status = .ok ∧ v.results.resBarch = s'.operands.barch) ∧
  (∀ (s s' s'' t u : State) (extra : List Byte), s.operands.raster.width.toNat ≠ 0 →
    s.operands.raster.height.toNat ≠ 0 → s.operands.depth = 8 → s.operands.raster.wellShaped = true →
    exec .encodeImage s = .next t → s'.operands.barch = t.results.resBarch → exec .serialize s' = .next u →
    s''.src = u.dst ++ extra → s''.magic = s'.magic →
      ∃ v : State, exec .deserialize s'' = .next v ∧ v.results.status = .ok ∧ v.results.resBarch = t.results.resBarch)

/-- The header checks of DESERIALIZE (R150, R152, R166, R168), in order: too short, wrong magic, too short for the integers,
a zero dimension, too short for the bitmap. -/
def Obligations.DeserializeHeaderChecks : Prop :=
  ∀ s : State,
    let p := s.magic.length
    let w := u32OfBytes ((s.src.drop p).take 4)
    let h := u32OfBytes ((s.src.drop (p + 4)).take 4)
    ∃ t : State, exec .deserialize s = .next t ∧
      (s.src.length < p ∨ s.src.take p ≠ s.magic ∨ s.src.length < p + 8 →
        t.results.status = .error .malformedContainer) ∧
      (s.src.take p = s.magic → p + 8 ≤ s.src.length →
        ((w.toNat = 0 ∨ h.toNat = 0) → t.results.status = .error .invalidDimensions) ∧
        (w.toNat ≠ 0 → h.toNat ≠ 0 → s.src.length < p + 8 + ceilDiv h.toNat 8 →
          t.results.status = .error .malformedContainer) ∧
        (w.toNat ≠ 0 → h.toNat ≠ 0 →
          t.results.status = .ok ∨ t.results.status = .error .malformedContainer))

/-- "row_data truncated before all rows are reconstructed" is rejected (R152): every strict prefix of a container, cut
anywhere, ends in MalformedContainer, whatever the bits of its bitmap behind the flags of its `H` rows (R153). -/
def Obligations.TruncatedContainerIsRejected : Prop :=
  ∀ (s : State) (m : BarchImage) (bitmap : List Byte) (n : Nat), m.width.toNat ≠ 0 → m.height.toNat ≠ 0 →
    m.countsAgree = true → (∀ p ∈ m.flags.zip m.lines, lineExact m.width.toNat p.1 p.2) →
    bitmap.length = ceilDiv m.height.toNat 8 → (bitsOfBytes bitmap).take m.height.toNat = m.flags →
    n < (containerWith s.magic bitmap m).length → s.src = (containerWith s.magic bitmap m).take n →
      ∃ t : State, exec .deserialize s = .next t ∧ t.results.status = .error .malformedContainer

/-- A BarchImage that DESERIALIZE returns "satisfies the invariants of 20_memory.md rule R46" (R150), has no zero dimension,
and its lines are the bytes that follow the bitmap. -/
def Obligations.DeserializedImageIsWellShaped : Prop :=
  ∀ s t : State, exec .deserialize s = .next t → t.results.status = .ok →
    t.results.resBarch.wellShaped = true ∧ t.results.resBarch.width.toNat ≠ 0 ∧ t.results.resBarch.height.toNat ≠ 0 ∧
      t.results.resBarch.lines.flatten <+:
        s.src.drop (s.magic.length + 8 + ceilDiv t.results.resBarch.height.toNat 8)

/-! ### The whole machine -/

/-- "no rule reads SRC at an index >= src_len" (R16): no step and no instruction ever reads past the end of a buffer, in any
state. -/
def Obligations.NoReadPastTheBuffer : Prop :=
  ∀ (s : State) (f : Fault), step s ≠ .fault f ∧ ∀ i, exec i s ≠ .fault f

/-- "SRC is never modified" (R175, R43), and no instruction writes ABORTED (R26), nor the operand registers, MAGIC and the
host's moves: those are the model's own fields (log 2, log 3, log 6), and that the operand registers stay after an error too is
its reading (log 27). -/
def Obligations.InputsAreNeverWritten : Prop :=
  ∀ (i : Instr) (s t : State), exec i s = .next t →
    t.src = s.src ∧ t.operands = s.operands ∧ t.magic = s.magic ∧ t.inbox = s.inbox ∧ t.aborted = s.aborted

/-- Which command can end with which result, and from which cause, each said of the operands, SRC and MAGIC the command starts
with (R166 to R170). The three entries of the last clause are the aborts
of R171; `writerInvariant` needs a BitWriter outside R12's range, which the premise excludes. -/
def Obligations.CommandResultTable : Prop :=
  ∀ (i : Instr) (s : State), i.isCommand = true → 1 ≤ s.writer.free → s.writer.free ≤ 8 →
    (∀ t, exec i s = .next t → t.results.status ≠ .ok →
      (t.results.status = .error .invalidDimensions ∧
        ((i = .encodeRow ∨ i = .decodeRow) ∧ s.operands.width = 0 ∨
         i = .encodeImage ∧ (s.operands.raster.width = 0 ∨ s.operands.raster.height = 0) ∨
         (i = .decodeImage ∨ i = .serialize) ∧ (s.operands.barch.width = 0 ∨ s.operands.barch.height = 0) ∨
         i = .deserialize ∧ HeaderRead s.magic s.src ∧
          (headerWidth s.magic s.src = 0 ∨ headerHeight s.magic s.src = 0))) ∨
      (t.results.status = .error .unsupportedSampleDepth ∧ i = .encodeImage ∧ s.operands.depth ≠ 8) ∨
      (t.results.status = .error .malformedContainer ∧
        ((i = .decodeImage ∨ i = .serialize) ∧ s.operands.barch.wellShaped = false ∨
         i = .deserialize ∧ ContainerMalformed s.magic s.src)) ∨
      (t.results.status = .error .decodeUnderrun ∧
        (i = .brPull ∧ (unreadBits s.src s.reader).length < s.operands.nbits.toNat ∨
         i = .decodeRow ∧ RowUnderruns s.operands.width.toNat s.src ∨
         i = .decodeImage ∧ ∃ p ∈ s.operands.barch.flags.zip s.operands.barch.lines, p.1 = true ∧
          RowUnderruns s.operands.barch.width.toNat p.2))) ∧
    (∀ r, exec i s = .refused r →
      r = .badBitCount ∧ (i = .bwPush ∨ i = .brPull) ∧ legalBitCount s.operands.nbits = false ∨
      r = .rowLengthMismatch ∧ (i = .classify ∨ i = .encodeRow) ∧ s.src.length ≠ s.operands.width.toNat ∨
      r = .rasterShape ∧ i = .encodeImage ∧ s.operands.raster.wellShaped = false)

/-- Error entry (R175): a command that ends with an error leaves `status` and nothing else of its own. The result registers,
the structured results, DST, the working registers, the BitWriter and the BitReader hold free values; only a BR.PULL keeps the
BitReader. SRC, ABORTED, MAGIC, the operand registers and the host's moves are as before, no row is open, and `W`, `H`, `DEPTH`
hold the command's operands. (That the free values stay in the ranges of R12, R15 and R16 is the model's reading, log 8; that
BR.PULL keeps nothing else, log 9; that the latched operands and the operand registers stay, log 27 and log 28.) -/
def Obligations.ErrorEntryLeavesOnlyTheStatus : Prop :=
  ∀ (i : Instr) (s t : State) (e : ErrorKind), i.isCommand = true → exec i s = .next t → t.results.status = .error e →
    t.src = s.src ∧ t.aborted = s.aborted ∧ t.magic = s.magic ∧ t.operands = s.operands ∧ t.inbox = s.inbox ∧
    t.phase = .idle ∧ LatchedBy i s t.latched ∧
    t.reader = (if i = .brPull then s.reader else
      { cur := Config.freeCur s.fresh, avail := Config.freeAvail s.fresh % 9,
        rdPos := Config.freeRdPos s.fresh % (s.src.length + 1) }) ∧
    t.writer = { acc := Config.freeAcc s.fresh, free := 1 + Config.freeFree s.fresh % 8 } ∧
    t.dst = Config.freeDst s.fresh ∧
    t.results =
      { status := .error e, resFlag := Config.freeResFlag s.fresh, resBits := Config.freeResBits s.fresh,
        resByteValid := Config.freeResByteValid s.fresh, resByte := Config.freeResByte s.fresh,
        resConsumed := Config.freeResConsumed s.fresh, resBarch := Config.freeResBarch s.fresh,
        resRaster := Config.freeResRaster s.fresh } ∧
    t.residue = { val := Config.freeVal s.fresh, vrem := Config.freeVrem s.fresh } ∧
    t.counters =
      { wrun := Config.freeWrun s.fresh, brun := Config.freeBrun s.fresh, wbat := Config.freeWbat s.fresh,
        bbat := Config.freeBbat s.fresh } ∧
    t.window =
      { col := Config.freeCol s.fresh, win0 := Config.freeWin0 s.fresh, win1 := Config.freeWin1 s.fresh,
        win2 := Config.freeWin2 s.fresh, win3 := Config.freeWin3 s.fresh, wcnt := Config.freeWcnt s.fresh } ∧
    t.rem = Config.freeRem s.fresh ∧
    t.pipeline =
      { row := Config.freeRow s.fresh, flags := Config.freeFlags s.fresh, lines := Config.freeLines s.fresh,
        rows := Config.freeRows s.fresh } ∧
    t.fresh = s.fresh + 1

/-- "The result of such a command therefore does not depend on what ran before it, nor on whether reset came before it"
(R192): from two states that hold the same operands, input buffer and MAGIC, a command above the BitPacker level ends the
same way with the same results. -/
def Obligations.CommandsAboveBitPackerAreStateless : Prop :=
  ∀ (i : Instr) (s s' : State), i.aboveBitPacker = true → s.src = s'.src → s.operands = s'.operands → s.magic = s'.magic →
    (∀ r, exec i s = .refused r → exec i s' = .refused r) ∧
    (∀ t, exec i s = .next t → ∃ t', exec i s' = .next t' ∧ t'.results.status = t.results.status ∧
      (t.results.status = .ok →
        (i = .classify → t'.results.resFlag = t.results.resFlag) ∧
        (i = .encodeRow ∨ i = .serialize → t'.dst = t.dst) ∧
        (i = .decodeRow → t'.dst = t.dst ∧ t'.results.resConsumed = t.results.resConsumed) ∧
        (i = .encodeImage ∨ i = .deserialize → t'.results.resBarch = t.results.resBarch) ∧
        (i = .decodeImage → t'.results.resRaster = t.results.resRaster)))

/-- "re-issuing the failed command with the same operands fails the same way" (R176). -/
def Obligations.RetryFailsTheSameWay : Prop :=
  ∀ (i : Instr) (s t : State) (e : ErrorKind), i.isCommand = true → exec i s = .next t → t.results.status = .error e →
    ∃ u : State, exec i t = .next u ∧ u.results.status = .error e

/-- The invariant holds at reset (R12, R15, R26). -/
def Obligations.InvariantAtReset : Prop := Inv State.reset

/-- Every step keeps the invariant: the ranges of `free`, `avail` and `rd_pos` (R12, R15, R16), ABORTED clear (R26), and in an
open row `len(out) = W − rem` (R22). That the ranges hold after an error too, where R175 (e) says any value, is the model's
reading (log 8); that they hold of the BitReader where the host has replaced SRC or an image-level command has ended, log 12
and log 19. -/
def Obligations.EveryStepKeepsTheInvariant : Prop :=
  ∀ s t : State, Inv s → step s = .next t → Inv t

/-! ### Frames -/

/-- What BW.RESET, BW.PUSH and BW.FLUSH leave unchanged: everything but the BitWriter, the PACK residue, DST and the result
registers; and a push or a flush appends to DST, so every byte below `dst_len` reads as before (R37, R73 to R75). -/
def Obligations.WriterCommandsFrame : Prop :=
  ∀ (i : Instr) (s t : State), i = .bwReset ∨ i = .bwPush ∨ i = .bwFlush → exec i s = .next t →
    t = { s with writer := t.writer, residue := t.residue, dst := t.dst, results := t.results, fresh := t.fresh } ∧
    (i ≠ .bwPush → t.residue = s.residue) ∧
    (i ≠ .bwReset → ∀ a < s.dst.length, memByte t.dst a = memByte s.dst a)

/-- What BR.OPEN, BR.PULL and CLASSIFY leave unchanged when they end OK: BR.OPEN and BR.PULL write the BitReader and the
result registers, CLASSIFY its counters, `W` and the result registers; DST is none of their results and so any value after
them (R25); SRC keeps every byte (R77, R78, R90). That BR.OPEN and BR.PULL keep the BitWriter, and CLASSIFY the BitReader
(log 10), and that CLASSIFY empties the BitWriter (log 12) is the model's reading. -/
def Obligations.ReaderAndClassifierFrame : Prop :=
  ∀ (i : Instr) (s t : State), exec i s = .next t → t.results.status = .ok →
    (i = .brOpen ∨ i = .brPull →
      t = { s with reader := t.reader, dst := Config.freeDst s.fresh, results := t.results, fresh := t.fresh }) ∧
    (i = .classify →
      t = { s with writer := { acc := 0, free := 8 }, counters := t.counters, dst := Config.freeDst s.fresh,
                   latched := { s.latched with w := s.operands.width }, results := t.results, fresh := t.fresh })

/-- What a symbol leaves unchanged: everything but DST, `rem` and, where it is the row's last, the end of the command; it
appends to DST, so every byte below `dst_len` reads as before (R116 to R119). The BitReader was moved by the fetch. -/
def Obligations.SymbolsFrame : Prop :=
  ∀ (i : Instr) (s t : State), i.isCommand = false → exec i s = .next t →
    t = { s with dst := t.dst, rem := t.rem, phase := t.phase, results := t.results, fresh := t.fresh } ∧
    (t.rem ≠ 0 → t.phase = s.phase ∧ t.results = s.results) ∧
    (∀ a < s.dst.length, memByte t.dst a = memByte s.dst a) ∧ s.rem - t.rem ≤ 4 ∧ t.dst.length = s.dst.length + (s.rem - t.rem)

/-- What the row commands leave unchanged when they end OK: ENCODE_ROW writes the BitWriter, the PACK residue, the window,
`W`, DST and the result registers; DECODE_ROW the BitReader, `rem`, `W`, DST and the result registers (R100, R115, R192). That
DECODE_ROW empties the BitWriter, and that ENCODE_ROW keeps the BitReader, is the model's reading of R27, R192 and R203
(log 12). -/
def Obligations.RowCommandsFrame : Prop :=
  ∀ s t : State,
    (exec .encodeRow s = .next t → t.results.status = .ok →
      t = { s with writer := t.writer, residue := t.residue, window := t.window, dst := t.dst,
                   latched := { s.latched with w := s.operands.width }, results := t.results, fresh := t.fresh }) ∧
    (exec .decodeRow s = .next t → t.results.status = .ok →
      t = { s with writer := { acc := 0, free := 8 }, reader := t.reader, rem := 0, dst := t.dst, phase := .idle,
                   latched := { s.latched with w := s.operands.width }, results := t.results, fresh := t.fresh })

/-- What the image and container commands leave unchanged when they end OK. ENCODE_IMAGE writes the encoder's registers, the
counters, the BarchImage being built, `W`, `H`, `DEPTH` and the result registers; DECODE_IMAGE `rem`, the pipeline's registers,
`W`, `H` and the result registers; SERIALIZE DST, the pipeline's registers, `W`, `H` and the result registers; DESERIALIZE what
DECODE_IMAGE writes but for the rows. Each resets the BitWriter and leaves the BitReader open. SRC keeps every byte (R131, R134,
R148, R150, R203; that it is the BitWriter they reset, that the BitReader holds any value in its range, that the working
registers of the other units stay, and that DST is any value after all but SERIALIZE, is the model's reading: log 11, log 12,
log 23). -/
def Obligations.ImageCommandsFrame : Prop :=
  ∀ s t : State, t.results.status = .ok →
    (exec .encodeImage s = .next t →
      t = { s with writer := { acc := 0, free := 8 }, reader := t.reader, residue := t.residue, counters := t.counters,
                   window := t.window, dst := Config.freeDst s.fresh,
                   pipeline := { t.pipeline with rows := s.pipeline.rows },
                   latched := { w := s.operands.raster.width, h := s.operands.raster.height, depth := s.operands.depth },
                   results := t.results, fresh := t.fresh }) ∧
    (exec .decodeImage s = .next t →
      t = { s with writer := { acc := 0, free := 8 }, reader := t.reader, rem := t.rem, dst := Config.freeDst s.fresh,
                   phase := t.phase, pipeline := t.pipeline,
                   latched := { s.latched with w := s.operands.barch.width, h := s.operands.barch.height },
                   results := t.results, fresh := t.fresh }) ∧
    (exec .serialize s = .next t →
      t = { s with writer := { acc := 0, free := 8 }, reader := t.reader, dst := t.dst, pipeline := t.pipeline,
                   latched := { s.latched with w := s.operands.barch.width, h := s.operands.barch.height },
                   results := t.results, fresh := t.fresh }) ∧
    (exec .deserialize s = .next t →
      t = { s with writer := { acc := 0, free := 8 }, reader := t.reader, rem := t.rem, dst := Config.freeDst s.fresh,
                   phase := t.phase,
                   pipeline := { t.pipeline with rows := s.pipeline.rows },
                   latched := { s.latched with w := t.results.resBarch.width, h := t.results.resBarch.height },
                   results := t.results, fresh := t.fresh })

/-! ### Reset inside a command, and higher commands between pushes -/

/-- "A reset applied while a command is running ends the command with no result: `DST` and every structured result hold
`any value`, and the registers take their reset values" (R194), for a command of the host's and for a row between two of its
symbols; after it the core waits for the host's next move. The form of such a reset, a host move that
does not wait, and that the moves behind it stay are the model's choice (log 17). -/
def Obligations.ResetEndsTheRunningCommand : Prop :=
  ∀ (s : State) (rest : List HostMove),
    ((s.phase = .decoding ∧ s.inbox = .resetNow :: rest) ∨
      (Accepting s ∧ ∃ writes cmd i, decodeCommand cmd = .ok i ∧ s.inbox = .issue writes cmd :: .resetNow :: rest)) →
    ∃ t : State, step s = .next t ∧ RegistersAtReset t ∧ t.phase = .idle ∧ t.inbox = rest ∧
      t.dst = Config.freeDst s.fresh ∧ t.results.resBarch = Config.freeResBarch s.fresh ∧
      t.results.resRaster = Config.freeResRaster s.fresh ∧ (rest = [] → step t = .next t)

/-- A higher command between pushes: it "re-initialises the writer or reader and empties `DST`; pending bits are lost" (R203,
U14), so nothing is pending after it (R27), and a BW.FLUSH then appends nothing to what it left in DST. That CLASSIFY, the
decoding commands, SERIALIZE and DESERIALIZE empty the BitWriter too is the model's reading (log 12). -/
def Obligations.HigherCommandsLoseThePendingBits : Prop :=
  ∀ (i : Instr) (s t : State), i.aboveBitPacker = true → exec i s = .next t → t.results.status = .ok →
    t.writer = { acc := 0, free := 8 } ∧
    ∃ u : State, exec .bwFlush t = .next u ∧ u.dst = t.dst ∧ u.writer = t.writer ∧ u.results.resByteValid = false

/-! ### The host's operand writes -/

/-- What the host's operand writes put where (R30, R195): each operand register and SRC hold the last value written to them
before the command, or the old one. Every other register, DST and MAGIC stay, and so does the BitReader without a write of
SRC; with one it holds a free value in the ranges of R15 and R16. That the operands stand in registers and keep their values
from command to command is the model's choice (log 2), and so is the BitReader on a new SRC (log 19). -/
def Obligations.OperandWritesReachTheirRegisters : Prop :=
  ∀ (s : State) (writes : List OperandWrite) (cmd : BitVec 4) (rest : List HostMove) (i : Instr),
    Accepting s → s.inbox = .issue writes cmd :: rest → rest.head? ≠ some .resetNow → decodeCommand cmd = .ok i →
      ∃ u : State, step s = exec i u ∧
        u = { s with operands := u.operands, src := u.src, reader := u.reader, inbox := rest, fresh := u.fresh } ∧
        u.operands =
          { value := lastWrite OperandWrite.value? writes s.operands.value
            nbits := lastWrite OperandWrite.nbits? writes s.operands.nbits
            width := lastWrite OperandWrite.width? writes s.operands.width
            depth := lastWrite OperandWrite.depth? writes s.operands.depth
            raster := lastWrite OperandWrite.raster? writes s.operands.raster
            barch := lastWrite OperandWrite.barch? writes s.operands.barch } ∧
        u.src = lastWrite OperandWrite.src? writes s.src ∧
        u.fresh = s.fresh + (writes.filterMap OperandWrite.src?).length ∧
        (writes.filterMap OperandWrite.src? = [] → u.reader = s.reader) ∧
        (writes.filterMap OperandWrite.src? ≠ [] → u.reader.avail ≤ 8 ∧ u.reader.rdPos ≤ u.src.length)
end

