-- ==== Sys2Proof/Laws/State.lean ====
section
/-! SUPPORT. One lemma per field per update of State, each true by `rfl`, so that no proof unfolds a record update. -/

namespace Sys2Proof.Machine

@[simp] theorem Results.any_status (st : Status) (n : Nat) : (Results.any st n).status = st := rfl

/-- The free values of the BitReader stand in the ranges of R15 and R16. -/
theorem anyReader_ok (srcLen n : Nat) : (anyReader srcLen n).avail ≤ 8 ∧ (anyReader srcLen n).rdPos ≤ srcLen :=
  ⟨Nat.le_of_lt_succ (Nat.mod_lt _ (by omega)), Nat.le_of_lt_succ (Nat.mod_lt _ (by omega))⟩

/-- The free values of the BitWriter stand in the range of R12. -/
theorem anyWriter_ok (n : Nat) : 1 ≤ (anyWriter n).free ∧ (anyWriter n).free ≤ 8 := by
  have := Nat.mod_lt (Config.freeFree n) (show 0 < 8 by omega)
  simp only [anyWriter]; omega

/-! ### State.endOk -/

@[simp] theorem State.endOk_writer (s : State) : s.endOk.writer = s.writer := rfl
@[simp] theorem State.endOk_dst (s : State) : s.endOk.dst = s.dst := rfl
@[simp] theorem State.endOk_reader (s : State) : s.endOk.reader = s.reader := rfl
@[simp] theorem State.endOk_src (s : State) : s.endOk.src = s.src := rfl
@[simp] theorem State.endOk_residue (s : State) : s.endOk.residue = s.residue := rfl
@[simp] theorem State.endOk_counters (s : State) : s.endOk.counters = s.counters := rfl
@[simp] theorem State.endOk_window (s : State) : s.endOk.window = s.window := rfl
@[simp] theorem State.endOk_rem (s : State) : s.endOk.rem = s.rem := rfl
@[simp] theorem State.endOk_pipeline (s : State) : s.endOk.pipeline = s.pipeline := rfl
@[simp] theorem State.endOk_latched (s : State) : s.endOk.latched = s.latched := rfl
@[simp] theorem State.endOk_operands (s : State) : s.endOk.operands = s.operands := rfl
@[simp] theorem State.endOk_results (s : State) : s.endOk.results = Results.any .ok s.fresh := rfl
@[simp] theorem State.endOk_aborted (s : State) : s.endOk.aborted = s.aborted := rfl
@[simp] theorem State.endOk_phase (s : State) : s.endOk.phase = s.phase := rfl
@[simp] theorem State.endOk_magic (s : State) : s.endOk.magic = s.magic := rfl
@[simp] theorem State.endOk_inbox (s : State) : s.endOk.inbox = s.inbox := rfl
@[simp] theorem State.endOk_fresh (s : State) : s.endOk.fresh = s.fresh + 1 := rfl

/-! ### State.setResFlag -/

@[simp] theorem State.setResFlag_writer (v : Bool) (s : State) : (s.setResFlag v).writer = s.writer := rfl
@[simp] theorem State.setResFlag_dst (v : Bool) (s : State) : (s.setResFlag v).dst = s.dst := rfl
@[simp] theorem State.setResFlag_reader (v : Bool) (s : State) : (s.setResFlag v).reader = s.reader := rfl
@[simp] theorem State.setResFlag_src (v : Bool) (s : State) : (s.setResFlag v).src = s.src := rfl
@[simp] theorem State.setResFlag_residue (v : Bool) (s : State) : (s.setResFlag v).residue = s.residue := rfl
@[simp] theorem State.setResFlag_counters (v : Bool) (s : State) : (s.setResFlag v).counters = s.counters := rfl
@[simp] theorem State.setResFlag_window (v : Bool) (s : State) : (s.setResFlag v).window = s.window := rfl
@[simp] theorem State.setResFlag_rem (v : Bool) (s : State) : (s.setResFlag v).rem = s.rem := rfl
@[simp] theorem State.setResFlag_pipeline (v : Bool) (s : State) : (s.setResFlag v).pipeline = s.pipeline := rfl
@[simp] theorem State.setResFlag_latched (v : Bool) (s : State) : (s.setResFlag v).latched = s.latched := rfl
@[simp] theorem State.setResFlag_operands (v : Bool) (s : State) : (s.setResFlag v).operands = s.operands := rfl
@[simp] theorem State.setResFlag_results (v : Bool) (s : State) :
    (s.setResFlag v).results = { s.results with resFlag := v } := rfl
@[simp] theorem State.setResFlag_aborted (v : Bool) (s : State) : (s.setResFlag v).aborted = s.aborted := rfl
@[simp] theorem State.setResFlag_phase (v : Bool) (s : State) : (s.setResFlag v).phase = s.phase := rfl
@[simp] theorem State.setResFlag_magic (v : Bool) (s : State) : (s.setResFlag v).magic = s.magic := rfl
@[simp] theorem State.setResFlag_inbox (v : Bool) (s : State) : (s.setResFlag v).inbox = s.inbox := rfl
@[simp] theorem State.setResFlag_fresh (v : Bool) (s : State) : (s.setResFlag v).fresh = s.fresh := rfl

/-! ### State.setResBits -/

@[simp] theorem State.setResBits_writer (v : Byte) (s : State) : (s.setResBits v).writer = s.writer := rfl
@[simp] theorem State.setResBits_dst (v : Byte) (s : State) : (s.setResBits v).dst = s.dst := rfl
@[simp] theorem State.setResBits_reader (v : Byte) (s : State) : (s.setResBits v).reader = s.reader := rfl
@[simp] theorem State.setResBits_src (v : Byte) (s : State) : (s.setResBits v).src = s.src := rfl
@[simp] theorem State.setResBits_residue (v : Byte) (s : State) : (s.setResBits v).residue = s.residue := rfl
@[simp] theorem State.setResBits_counters (v : Byte) (s : State) : (s.setResBits v).counters = s.counters := rfl
@[simp] theorem State.setResBits_window (v : Byte) (s : State) : (s.setResBits v).window = s.window := rfl
@[simp] theorem State.setResBits_rem (v : Byte) (s : State) : (s.setResBits v).rem = s.rem := rfl
@[simp] theorem State.setResBits_pipeline (v : Byte) (s : State) : (s.setResBits v).pipeline = s.pipeline := rfl
@[simp] theorem State.setResBits_latched (v : Byte) (s : State) : (s.setResBits v).latched = s.latched := rfl
@[simp] theorem State.setResBits_operands (v : Byte) (s : State) : (s.setResBits v).operands = s.operands := rfl
@[simp] theorem State.setResBits_results (v : Byte) (s : State) :
    (s.setResBits v).results = { s.results with resBits := v } := rfl
@[simp] theorem State.setResBits_aborted (v : Byte) (s : State) : (s.setResBits v).aborted = s.aborted := rfl
@[simp] theorem State.setResBits_phase (v : Byte) (s : State) : (s.setResBits v).phase = s.phase := rfl
@[simp] theorem State.setResBits_magic (v : Byte) (s : State) : (s.setResBits v).magic = s.magic := rfl
@[simp] theorem State.setResBits_inbox (v : Byte) (s : State) : (s.setResBits v).inbox = s.inbox := rfl
@[simp] theorem State.setResBits_fresh (v : Byte) (s : State) : (s.setResBits v).fresh = s.fresh := rfl

/-! ### State.setResByte -/

@[simp] theorem State.setResByte_writer (x : Byte) (out : List Byte) (s : State) :
    (s.setResByte x out).writer = s.writer := rfl
@[simp] theorem State.setResByte_dst (x : Byte) (out : List Byte) (s : State) :
    (s.setResByte x out).dst = s.dst := rfl
@[simp] theorem State.setResByte_reader (x : Byte) (out : List Byte) (s : State) :
    (s.setResByte x out).reader = s.reader := rfl
@[simp] theorem State.setResByte_src (x : Byte) (out : List Byte) (s : State) :
    (s.setResByte x out).src = s.src := rfl
@[simp] theorem State.setResByte_residue (x : Byte) (out : List Byte) (s : State) :
    (s.setResByte x out).residue = s.residue := rfl
@[simp] theorem State.setResByte_counters (x : Byte) (out : List Byte) (s : State) :
    (s.setResByte x out).counters = s.counters := rfl
@[simp] theorem State.setResByte_window (x : Byte) (out : List Byte) (s : State) :
    (s.setResByte x out).window = s.window := rfl
@[simp] theorem State.setResByte_rem (x : Byte) (out : List Byte) (s : State) :
    (s.setResByte x out).rem = s.rem := rfl
@[simp] theorem State.setResByte_pipeline (x : Byte) (out : List Byte) (s : State) :
    (s.setResByte x out).pipeline = s.pipeline := rfl
@[simp] theorem State.setResByte_latched (x : Byte) (out : List Byte) (s : State) :
    (s.setResByte x out).latched = s.latched := rfl
@[simp] theorem State.setResByte_operands (x : Byte) (out : List Byte) (s : State) :
    (s.setResByte x out).operands = s.operands := rfl
@[simp] theorem State.setResByte_results (x : Byte) (out : List Byte) (s : State) :
    (s.setResByte x out).results = { s.results with resByteValid := !out.isEmpty, resByte := out.getLastD x } := rfl
@[simp] theorem State.setResByte_aborted (x : Byte) (out : List Byte) (s : State) :
    (s.setResByte x out).aborted = s.aborted := rfl
@[simp] theorem State.setResByte_phase (x : Byte) (out : List Byte) (s : State) :
    (s.setResByte x out).phase = s.phase := rfl
@[simp] theorem State.setResByte_magic (x : Byte) (out : List Byte) (s : State) :
    (s.setResByte x out).magic = s.magic := rfl
@[simp] theorem State.setResByte_inbox (x : Byte) (out : List Byte) (s : State) :
    (s.setResByte x out).inbox = s.inbox := rfl
@[simp] theorem State.setResByte_fresh (x : Byte) (out : List Byte) (s : State) :
    (s.setResByte x out).fresh = s.fresh := rfl

/-! ### State.clearResByteValid -/

@[simp] theorem State.clearResByteValid_writer (s : State) : s.clearResByteValid.writer = s.writer := rfl
@[simp] theorem State.clearResByteValid_dst (s : State) : s.clearResByteValid.dst = s.dst := rfl
@[simp] theorem State.clearResByteValid_reader (s : State) : s.clearResByteValid.reader = s.reader := rfl
@[simp] theorem State.clearResByteValid_src (s : State) : s.clearResByteValid.src = s.src := rfl
@[simp] theorem State.clearResByteValid_residue (s : State) : s.clearResByteValid.residue = s.residue := rfl
@[simp] theorem State.clearResByteValid_counters (s : State) : s.clearResByteValid.counters = s.counters := rfl
@[simp] theorem State.clearResByteValid_window (s : State) : s.clearResByteValid.window = s.window := rfl
@[simp] theorem State.clearResByteValid_rem (s : State) : s.clearResByteValid.rem = s.rem := rfl
@[simp] theorem State.clearResByteValid_pipeline (s : State) : s.clearResByteValid.pipeline = s.pipeline := rfl
@[simp] theorem State.clearResByteValid_latched (s : State) : s.clearResByteValid.latched = s.latched := rfl
@[simp] theorem State.clearResByteValid_operands (s : State) : s.clearResByteValid.operands = s.operands := rfl
@[simp] theorem State.clearResByteValid_results (s : State) :
    s.clearResByteValid.results = { s.results with resByteValid := false } := rfl
@[simp] theorem State.clearResByteValid_aborted (s : State) : s.clearResByteValid.aborted = s.aborted := rfl
@[simp] theorem State.clearResByteValid_phase (s : State) : s.clearResByteValid.phase = s.phase := rfl
@[simp] theorem State.clearResByteValid_magic (s : State) : s.clearResByteValid.magic = s.magic := rfl
@[simp] theorem State.clearResByteValid_inbox (s : State) : s.clearResByteValid.inbox = s.inbox := rfl
@[simp] theorem State.clearResByteValid_fresh (s : State) : s.clearResByteValid.fresh = s.fresh := rfl

/-! ### State.setResConsumed -/

@[simp] theorem State.setResConsumed_writer (n : Nat) (s : State) : (s.setResConsumed n).writer = s.writer := rfl
@[simp] theorem State.setResConsumed_dst (n : Nat) (s : State) : (s.setResConsumed n).dst = s.dst := rfl
@[simp] theorem State.setResConsumed_reader (n : Nat) (s : State) : (s.setResConsumed n).reader = s.reader := rfl
@[simp] theorem State.setResConsumed_src (n : Nat) (s : State) : (s.setResConsumed n).src = s.src := rfl
@[simp] theorem State.setResConsumed_residue (n : Nat) (s : State) : (s.setResConsumed n).residue = s.residue := rfl
@[simp] theorem State.setResConsumed_counters (n : Nat) (s : State) :
    (s.setResConsumed n).counters = s.counters := rfl
@[simp] theorem State.setResConsumed_window (n : Nat) (s : State) : (s.setResConsumed n).window = s.window := rfl
@[simp] theorem State.setResConsumed_rem (n : Nat) (s : State) : (s.setResConsumed n).rem = s.rem := rfl
@[simp] theorem State.setResConsumed_pipeline (n : Nat) (s : State) :
    (s.setResConsumed n).pipeline = s.pipeline := rfl
@[simp] theorem State.setResConsumed_latched (n : Nat) (s : State) : (s.setResConsumed n).latched = s.latched := rfl
@[simp] theorem State.setResConsumed_operands (n : Nat) (s : State) :
    (s.setResConsumed n).operands = s.operands := rfl
@[simp] theorem State.setResConsumed_results (n : Nat) (s : State) :
    (s.setResConsumed n).results = { s.results with resConsumed := n } := rfl
@[simp] theorem State.setResConsumed_aborted (n : Nat) (s : State) : (s.setResConsumed n).aborted = s.aborted := rfl
@[simp] theorem State.setResConsumed_phase (n : Nat) (s : State) : (s.setResConsumed n).phase = s.phase := rfl
@[simp] theorem State.setResConsumed_magic (n : Nat) (s : State) : (s.setResConsumed n).magic = s.magic := rfl
@[simp] theorem State.setResConsumed_inbox (n : Nat) (s : State) : (s.setResConsumed n).inbox = s.inbox := rfl
@[simp] theorem State.setResConsumed_fresh (n : Nat) (s : State) : (s.setResConsumed n).fresh = s.fresh := rfl

/-! ### State.setResBarch -/

@[simp] theorem State.setResBarch_writer (m : BarchImage) (s : State) : (s.setResBarch m).writer = s.writer := rfl
@[simp] theorem State.setResBarch_dst (m : BarchImage) (s : State) : (s.setResBarch m).dst = s.dst := rfl
@[simp] theorem State.setResBarch_reader (m : BarchImage) (s : State) : (s.setResBarch m).reader = s.reader := rfl
@[simp] theorem State.setResBarch_src (m : BarchImage) (s : State) : (s.setResBarch m).src = s.src := rfl
@[simp] theorem State.setResBarch_residue (m : BarchImage) (s : State) : (s.setResBarch m).residue = s.residue := rfl
@[simp] theorem State.setResBarch_counters (m : BarchImage) (s : State) :
    (s.setResBarch m).counters = s.counters := rfl
@[simp] theorem State.setResBarch_window (m : BarchImage) (s : State) : (s.setResBarch m).window = s.window := rfl
@[simp] theorem State.setResBarch_rem (m : BarchImage) (s : State) : (s.setResBarch m).rem = s.rem := rfl
@[simp] theorem State.setResBarch_pipeline (m : BarchImage) (s : State) :
    (s.setResBarch m).pipeline = s.pipeline := rfl
@[simp] theorem State.setResBarch_latched (m : BarchImage) (s : State) : (s.setResBarch m).latched = s.latched := rfl
@[simp] theorem State.setResBarch_operands (m : BarchImage) (s : State) :
    (s.setResBarch m).operands = s.operands := rfl
@[simp] theorem State.setResBarch_results (m : BarchImage) (s : State) :
    (s.setResBarch m).results = { s.results with resBarch := m } := rfl
@[simp] theorem State.setResBarch_aborted (m : BarchImage) (s : State) : (s.setResBarch m).aborted = s.aborted := rfl
@[simp] theorem State.setResBarch_phase (m : BarchImage) (s : State) : (s.setResBarch m).phase = s.phase := rfl
@[simp] theorem State.setResBarch_magic (m : BarchImage) (s : State) : (s.setResBarch m).magic = s.magic := rfl
@[simp] theorem State.setResBarch_inbox (m : BarchImage) (s : State) : (s.setResBarch m).inbox = s.inbox := rfl
@[simp] theorem State.setResBarch_fresh (m : BarchImage) (s : State) : (s.setResBarch m).fresh = s.fresh := rfl

/-! ### State.setResRaster -/

@[simp] theorem State.setResRaster_writer (m : RasterImage) (s : State) : (s.setResRaster m).writer = s.writer := rfl
@[simp] theorem State.setResRaster_dst (m : RasterImage) (s : State) : (s.setResRaster m).dst = s.dst := rfl
@[simp] theorem State.setResRaster_reader (m : RasterImage) (s : State) : (s.setResRaster m).reader = s.reader := rfl
@[simp] theorem State.setResRaster_src (m : RasterImage) (s : State) : (s.setResRaster m).src = s.src := rfl
@[simp] theorem State.setResRaster_residue (m : RasterImage) (s : State) :
    (s.setResRaster m).residue = s.residue := rfl
@[simp] theorem State.setResRaster_counters (m : RasterImage) (s : State) :
    (s.setResRaster m).counters = s.counters := rfl
@[simp] theorem State.setResRaster_window (m : RasterImage) (s : State) : (s.setResRaster m).window = s.window := rfl
@[simp] theorem State.setResRaster_rem (m : RasterImage) (s : State) : (s.setResRaster m).rem = s.rem := rfl
@[simp] theorem State.setResRaster_pipeline (m : RasterImage) (s : State) :
    (s.setResRaster m).pipeline = s.pipeline := rfl
@[simp] theorem State.setResRaster_latched (m : RasterImage) (s : State) :
    (s.setResRaster m).latched = s.latched := rfl
@[simp] theorem State.setResRaster_operands (m : RasterImage) (s : State) :
    (s.setResRaster m).operands = s.operands := rfl
@[simp] theorem State.setResRaster_results (m : RasterImage) (s : State) :
    (s.setResRaster m).results = { s.results with resRaster := m } := rfl
@[simp] theorem State.setResRaster_aborted (m : RasterImage) (s : State) :
    (s.setResRaster m).aborted = s.aborted := rfl
@[simp] theorem State.setResRaster_phase (m : RasterImage) (s : State) : (s.setResRaster m).phase = s.phase := rfl
@[simp] theorem State.setResRaster_magic (m : RasterImage) (s : State) : (s.setResRaster m).magic = s.magic := rfl
@[simp] theorem State.setResRaster_inbox (m : RasterImage) (s : State) : (s.setResRaster m).inbox = s.inbox := rfl
@[simp] theorem State.setResRaster_fresh (m : RasterImage) (s : State) : (s.setResRaster m).fresh = s.fresh := rfl

/-! ### State.latchWidth -/

@[simp] theorem State.latchWidth_writer (s : State) : s.latchWidth.writer = s.writer := rfl
@[simp] theorem State.latchWidth_dst (s : State) : s.latchWidth.dst = s.dst := rfl
@[simp] theorem State.latchWidth_reader (s : State) : s.latchWidth.reader = s.reader := rfl
@[simp] theorem State.latchWidth_src (s : State) : s.latchWidth.src = s.src := rfl
@[simp] theorem State.latchWidth_residue (s : State) : s.latchWidth.residue = s.residue := rfl
@[simp] theorem State.latchWidth_counters (s : State) : s.latchWidth.counters = s.counters := rfl
@[simp] theorem State.latchWidth_window (s : State) : s.latchWidth.window = s.window := rfl
@[simp] theorem State.latchWidth_rem (s : State) : s.latchWidth.rem = s.rem := rfl
@[simp] theorem State.latchWidth_pipeline (s : State) : s.latchWidth.pipeline = s.pipeline := rfl
@[simp] theorem State.latchWidth_latched (s : State) :
    s.latchWidth.latched = { s.latched with w := s.operands.width } := rfl
@[simp] theorem State.latchWidth_operands (s : State) : s.latchWidth.operands = s.operands := rfl
@[simp] theorem State.latchWidth_results (s : State) : s.latchWidth.results = s.results := rfl
@[simp] theorem State.latchWidth_aborted (s : State) : s.latchWidth.aborted = s.aborted := rfl
@[simp] theorem State.latchWidth_phase (s : State) : s.latchWidth.phase = s.phase := rfl
@[simp] theorem State.latchWidth_magic (s : State) : s.latchWidth.magic = s.magic := rfl
@[simp] theorem State.latchWidth_inbox (s : State) : s.latchWidth.inbox = s.inbox := rfl
@[simp] theorem State.latchWidth_fresh (s : State) : s.latchWidth.fresh = s.fresh := rfl

/-! ### State.latchDims -/

@[simp] theorem State.latchDims_writer (w h : U32) (s : State) : (s.latchDims w h).writer = s.writer := rfl
@[simp] theorem State.latchDims_dst (w h : U32) (s : State) : (s.latchDims w h).dst = s.dst := rfl
@[simp] theorem State.latchDims_reader (w h : U32) (s : State) : (s.latchDims w h).reader = s.reader := rfl
@[simp] theorem State.latchDims_src (w h : U32) (s : State) : (s.latchDims w h).src = s.src := rfl
@[simp] theorem State.latchDims_residue (w h : U32) (s : State) : (s.latchDims w h).residue = s.residue := rfl
@[simp] theorem State.latchDims_counters (w h : U32) (s : State) : (s.latchDims w h).counters = s.counters := rfl
@[simp] theorem State.latchDims_window (w h : U32) (s : State) : (s.latchDims w h).window = s.window := rfl
@[simp] theorem State.latchDims_rem (w h : U32) (s : State) : (s.latchDims w h).rem = s.rem := rfl
@[simp] theorem State.latchDims_pipeline (w h : U32) (s : State) : (s.latchDims w h).pipeline = s.pipeline := rfl
@[simp] theorem State.latchDims_latched (w h : U32) (s : State) :
    (s.latchDims w h).latched = { s.latched with w := w, h := h } := rfl
@[simp] theorem State.latchDims_operands (w h : U32) (s : State) : (s.latchDims w h).operands = s.operands := rfl
@[simp] theorem State.latchDims_results (w h : U32) (s : State) : (s.latchDims w h).results = s.results := rfl
@[simp] theorem State.latchDims_aborted (w h : U32) (s : State) : (s.latchDims w h).aborted = s.aborted := rfl
@[simp] theorem State.latchDims_phase (w h : U32) (s : State) : (s.latchDims w h).phase = s.phase := rfl
@[simp] theorem State.latchDims_magic (w h : U32) (s : State) : (s.latchDims w h).magic = s.magic := rfl
@[simp] theorem State.latchDims_inbox (w h : U32) (s : State) : (s.latchDims w h).inbox = s.inbox := rfl
@[simp] theorem State.latchDims_fresh (w h : U32) (s : State) : (s.latchDims w h).fresh = s.fresh := rfl

/-! ### State.latchDepth -/

@[simp] theorem State.latchDepth_writer (s : State) : s.latchDepth.writer = s.writer := rfl
@[simp] theorem State.latchDepth_dst (s : State) : s.latchDepth.dst = s.dst := rfl
@[simp] theorem State.latchDepth_reader (s : State) : s.latchDepth.reader = s.reader := rfl
@[simp] theorem State.latchDepth_src (s : State) : s.latchDepth.src = s.src := rfl
@[simp] theorem State.latchDepth_residue (s : State) : s.latchDepth.residue = s.residue := rfl
@[simp] theorem State.latchDepth_counters (s : State) : s.latchDepth.counters = s.counters := rfl
@[simp] theorem State.latchDepth_window (s : State) : s.latchDepth.window = s.window := rfl
@[simp] theorem State.latchDepth_rem (s : State) : s.latchDepth.rem = s.rem := rfl
@[simp] theorem State.latchDepth_pipeline (s : State) : s.latchDepth.pipeline = s.pipeline := rfl
@[simp] theorem State.latchDepth_latched (s : State) :
    s.latchDepth.latched = { s.latched with depth := s.operands.depth } := rfl
@[simp] theorem State.latchDepth_operands (s : State) : s.latchDepth.operands = s.operands := rfl
@[simp] theorem State.latchDepth_results (s : State) : s.latchDepth.results = s.results := rfl
@[simp] theorem State.latchDepth_aborted (s : State) : s.latchDepth.aborted = s.aborted := rfl
@[simp] theorem State.latchDepth_phase (s : State) : s.latchDepth.phase = s.phase := rfl
@[simp] theorem State.latchDepth_magic (s : State) : s.latchDepth.magic = s.magic := rfl
@[simp] theorem State.latchDepth_inbox (s : State) : s.latchDepth.inbox = s.inbox := rfl
@[simp] theorem State.latchDepth_fresh (s : State) : s.latchDepth.fresh = s.fresh := rfl

/-! ### State.latchRaster -/

@[simp] theorem State.latchRaster_writer (s : State) : s.latchRaster.writer = s.writer := rfl
@[simp] theorem State.latchRaster_dst (s : State) : s.latchRaster.dst = s.dst := rfl
@[simp] theorem State.latchRaster_reader (s : State) : s.latchRaster.reader = s.reader := rfl
@[simp] theorem State.latchRaster_src (s : State) : s.latchRaster.src = s.src := rfl
@[simp] theorem State.latchRaster_residue (s : State) : s.latchRaster.residue = s.residue := rfl
@[simp] theorem State.latchRaster_counters (s : State) : s.latchRaster.counters = s.counters := rfl
@[simp] theorem State.latchRaster_window (s : State) : s.latchRaster.window = s.window := rfl
@[simp] theorem State.latchRaster_rem (s : State) : s.latchRaster.rem = s.rem := rfl
@[simp] theorem State.latchRaster_pipeline (s : State) : s.latchRaster.pipeline = s.pipeline := rfl
@[simp] theorem State.latchRaster_latched (s : State) :
    s.latchRaster.latched = { w := s.operands.raster.width, h := s.operands.raster.height, depth := s.operands.depth } := rfl
@[simp] theorem State.latchRaster_operands (s : State) : s.latchRaster.operands = s.operands := rfl
@[simp] theorem State.latchRaster_results (s : State) : s.latchRaster.results = s.results := rfl
@[simp] theorem State.latchRaster_aborted (s : State) : s.latchRaster.aborted = s.aborted := rfl
@[simp] theorem State.latchRaster_phase (s : State) : s.latchRaster.phase = s.phase := rfl
@[simp] theorem State.latchRaster_magic (s : State) : s.latchRaster.magic = s.magic := rfl
@[simp] theorem State.latchRaster_inbox (s : State) : s.latchRaster.inbox = s.inbox := rfl
@[simp] theorem State.latchRaster_fresh (s : State) : s.latchRaster.fresh = s.fresh := rfl

/-! ### State.latchBarch -/

@[simp] theorem State.latchBarch_writer (s : State) : s.latchBarch.writer = s.writer := rfl
@[simp] theorem State.latchBarch_dst (s : State) : s.latchBarch.dst = s.dst := rfl
@[simp] theorem State.latchBarch_reader (s : State) : s.latchBarch.reader = s.reader := rfl
@[simp] theorem State.latchBarch_src (s : State) : s.latchBarch.src = s.src := rfl
@[simp] theorem State.latchBarch_residue (s : State) : s.latchBarch.residue = s.residue := rfl
@[simp] theorem State.latchBarch_counters (s : State) : s.latchBarch.counters = s.counters := rfl
@[simp] theorem State.latchBarch_window (s : State) : s.latchBarch.window = s.window := rfl
@[simp] theorem State.latchBarch_rem (s : State) : s.latchBarch.rem = s.rem := rfl
@[simp] theorem State.latchBarch_pipeline (s : State) : s.latchBarch.pipeline = s.pipeline := rfl
@[simp] theorem State.latchBarch_latched (s : State) :
    s.latchBarch.latched = { s.latched with w := s.operands.barch.width, h := s.operands.barch.height } := rfl
@[simp] theorem State.latchBarch_operands (s : State) : s.latchBarch.operands = s.operands := rfl
@[simp] theorem State.latchBarch_results (s : State) : s.latchBarch.results = s.results := rfl
@[simp] theorem State.latchBarch_aborted (s : State) : s.latchBarch.aborted = s.aborted := rfl
@[simp] theorem State.latchBarch_phase (s : State) : s.latchBarch.phase = s.phase := rfl
@[simp] theorem State.latchBarch_magic (s : State) : s.latchBarch.magic = s.magic := rfl
@[simp] theorem State.latchBarch_inbox (s : State) : s.latchBarch.inbox = s.inbox := rfl
@[simp] theorem State.latchBarch_fresh (s : State) : s.latchBarch.fresh = s.fresh := rfl

/-! ### State.emit -/

@[simp] theorem State.emit_writer (bytes : List Byte) (s : State) : (s.emit bytes).writer = s.writer := rfl
@[simp] theorem State.emit_dst (bytes : List Byte) (s : State) : (s.emit bytes).dst = s.dst ++ bytes := rfl
@[simp] theorem State.emit_reader (bytes : List Byte) (s : State) : (s.emit bytes).reader = s.reader := rfl
@[simp] theorem State.emit_src (bytes : List Byte) (s : State) : (s.emit bytes).src = s.src := rfl
@[simp] theorem State.emit_residue (bytes : List Byte) (s : State) : (s.emit bytes).residue = s.residue := rfl
@[simp] theorem State.emit_counters (bytes : List Byte) (s : State) : (s.emit bytes).counters = s.counters := rfl
@[simp] theorem State.emit_window (bytes : List Byte) (s : State) : (s.emit bytes).window = s.window := rfl
@[simp] theorem State.emit_rem (bytes : List Byte) (s : State) : (s.emit bytes).rem = s.rem := rfl
@[simp] theorem State.emit_pipeline (bytes : List Byte) (s : State) : (s.emit bytes).pipeline = s.pipeline := rfl
@[simp] theorem State.emit_latched (bytes : List Byte) (s : State) : (s.emit bytes).latched = s.latched := rfl
@[simp] theorem State.emit_operands (bytes : List Byte) (s : State) : (s.emit bytes).operands = s.operands := rfl
@[simp] theorem State.emit_results (bytes : List Byte) (s : State) : (s.emit bytes).results = s.results := rfl
@[simp] theorem State.emit_aborted (bytes : List Byte) (s : State) : (s.emit bytes).aborted = s.aborted := rfl
@[simp] theorem State.emit_phase (bytes : List Byte) (s : State) : (s.emit bytes).phase = s.phase := rfl
@[simp] theorem State.emit_magic (bytes : List Byte) (s : State) : (s.emit bytes).magic = s.magic := rfl
@[simp] theorem State.emit_inbox (bytes : List Byte) (s : State) : (s.emit bytes).inbox = s.inbox := rfl
@[simp] theorem State.emit_fresh (bytes : List Byte) (s : State) : (s.emit bytes).fresh = s.fresh := rfl

/-! ### State.forgetDst -/

@[simp] theorem State.forgetDst_writer (s : State) : s.forgetDst.writer = s.writer := rfl
@[simp] theorem State.forgetDst_dst (s : State) : s.forgetDst.dst = Config.freeDst s.fresh := rfl
@[simp] theorem State.forgetDst_reader (s : State) : s.forgetDst.reader = s.reader := rfl
@[simp] theorem State.forgetDst_src (s : State) : s.forgetDst.src = s.src := rfl
@[simp] theorem State.forgetDst_residue (s : State) : s.forgetDst.residue = s.residue := rfl
@[simp] theorem State.forgetDst_counters (s : State) : s.forgetDst.counters = s.counters := rfl
@[simp] theorem State.forgetDst_window (s : State) : s.forgetDst.window = s.window := rfl
@[simp] theorem State.forgetDst_rem (s : State) : s.forgetDst.rem = s.rem := rfl
@[simp] theorem State.forgetDst_pipeline (s : State) : s.forgetDst.pipeline = s.pipeline := rfl
@[simp] theorem State.forgetDst_latched (s : State) : s.forgetDst.latched = s.latched := rfl
@[simp] theorem State.forgetDst_operands (s : State) : s.forgetDst.operands = s.operands := rfl
@[simp] theorem State.forgetDst_results (s : State) : s.forgetDst.results = s.results := rfl
@[simp] theorem State.forgetDst_aborted (s : State) : s.forgetDst.aborted = s.aborted := rfl
@[simp] theorem State.forgetDst_phase (s : State) : s.forgetDst.phase = s.phase := rfl
@[simp] theorem State.forgetDst_magic (s : State) : s.forgetDst.magic = s.magic := rfl
@[simp] theorem State.forgetDst_inbox (s : State) : s.forgetDst.inbox = s.inbox := rfl
@[simp] theorem State.forgetDst_fresh (s : State) : s.forgetDst.fresh = s.fresh := rfl

/-! ### State.forgetReader -/

@[simp] theorem State.forgetReader_writer (s : State) : s.forgetReader.writer = s.writer := rfl
@[simp] theorem State.forgetReader_dst (s : State) : s.forgetReader.dst = s.dst := rfl
@[simp] theorem State.forgetReader_reader (s : State) : s.forgetReader.reader = anyReader s.src.length s.fresh := rfl
@[simp] theorem State.forgetReader_src (s : State) : s.forgetReader.src = s.src := rfl
@[simp] theorem State.forgetReader_residue (s : State) : s.forgetReader.residue = s.residue := rfl
@[simp] theorem State.forgetReader_counters (s : State) : s.forgetReader.counters = s.counters := rfl
@[simp] theorem State.forgetReader_window (s : State) : s.forgetReader.window = s.window := rfl
@[simp] theorem State.forgetReader_rem (s : State) : s.forgetReader.rem = s.rem := rfl
@[simp] theorem State.forgetReader_pipeline (s : State) : s.forgetReader.pipeline = s.pipeline := rfl
@[simp] theorem State.forgetReader_latched (s : State) : s.forgetReader.latched = s.latched := rfl
@[simp] theorem State.forgetReader_operands (s : State) : s.forgetReader.operands = s.operands := rfl
@[simp] theorem State.forgetReader_results (s : State) : s.forgetReader.results = s.results := rfl
@[simp] theorem State.forgetReader_aborted (s : State) : s.forgetReader.aborted = s.aborted := rfl
@[simp] theorem State.forgetReader_phase (s : State) : s.forgetReader.phase = s.phase := rfl
@[simp] theorem State.forgetReader_magic (s : State) : s.forgetReader.magic = s.magic := rfl
@[simp] theorem State.forgetReader_inbox (s : State) : s.forgetReader.inbox = s.inbox := rfl
@[simp] theorem State.forgetReader_fresh (s : State) : s.forgetReader.fresh = s.fresh := rfl

/-! ### State.endImage -/

@[simp] theorem State.endImage_writer (s : State) : s.endImage.writer = s.writer := rfl
@[simp] theorem State.endImage_dst (s : State) : s.endImage.dst = Config.freeDst s.fresh := rfl
@[simp] theorem State.endImage_reader (s : State) : s.endImage.reader = anyReader s.src.length s.fresh := rfl
@[simp] theorem State.endImage_src (s : State) : s.endImage.src = s.src := rfl
@[simp] theorem State.endImage_residue (s : State) : s.endImage.residue = s.residue := rfl
@[simp] theorem State.endImage_counters (s : State) : s.endImage.counters = s.counters := rfl
@[simp] theorem State.endImage_window (s : State) : s.endImage.window = s.window := rfl
@[simp] theorem State.endImage_rem (s : State) : s.endImage.rem = s.rem := rfl
@[simp] theorem State.endImage_pipeline (s : State) : s.endImage.pipeline = s.pipeline := rfl
@[simp] theorem State.endImage_latched (s : State) : s.endImage.latched = s.latched := rfl
@[simp] theorem State.endImage_operands (s : State) : s.endImage.operands = s.operands := rfl
@[simp] theorem State.endImage_results (s : State) : s.endImage.results = Results.any .ok s.fresh := rfl
@[simp] theorem State.endImage_aborted (s : State) : s.endImage.aborted = s.aborted := rfl
@[simp] theorem State.endImage_phase (s : State) : s.endImage.phase = s.phase := rfl
@[simp] theorem State.endImage_magic (s : State) : s.endImage.magic = s.magic := rfl
@[simp] theorem State.endImage_inbox (s : State) : s.endImage.inbox = s.inbox := rfl
@[simp] theorem State.endImage_fresh (s : State) : s.endImage.fresh = s.fresh + 1 := rfl

/-! ### State.pushBits -/

@[simp] theorem State.pushBits_writer (v : Byte) (n : Nat) (s : State) :
    (s.pushBits v n).writer = { acc := (pushRun s.writer v n).acc, free := (pushRun s.writer v n).free } := rfl
@[simp] theorem State.pushBits_dst (v : Byte) (n : Nat) (s : State) :
    (s.pushBits v n).dst = s.dst ++ (pushRun s.writer v n).out := rfl
@[simp] theorem State.pushBits_reader (v : Byte) (n : Nat) (s : State) : (s.pushBits v n).reader = s.reader := rfl
@[simp] theorem State.pushBits_src (v : Byte) (n : Nat) (s : State) : (s.pushBits v n).src = s.src := rfl
@[simp] theorem State.pushBits_residue (v : Byte) (n : Nat) (s : State) :
    (s.pushBits v n).residue = { val := (pushRun s.writer v n).val, vrem := (pushRun s.writer v n).vrem } := rfl
@[simp] theorem State.pushBits_counters (v : Byte) (n : Nat) (s : State) :
    (s.pushBits v n).counters = s.counters := rfl
@[simp] theorem State.pushBits_window (v : Byte) (n : Nat) (s : State) : (s.pushBits v n).window = s.window := rfl
@[simp] theorem State.pushBits_rem (v : Byte) (n : Nat) (s : State) : (s.pushBits v n).rem = s.rem := rfl
@[simp] theorem State.pushBits_pipeline (v : Byte) (n : Nat) (s : State) :
    (s.pushBits v n).pipeline = s.pipeline := rfl
@[simp] theorem State.pushBits_latched (v : Byte) (n : Nat) (s : State) : (s.pushBits v n).latched = s.latched := rfl
@[simp] theorem State.pushBits_operands (v : Byte) (n : Nat) (s : State) :
    (s.pushBits v n).operands = s.operands := rfl
@[simp] theorem State.pushBits_results (v : Byte) (n : Nat) (s : State) : (s.pushBits v n).results = s.results := rfl
@[simp] theorem State.pushBits_aborted (v : Byte) (n : Nat) (s : State) : (s.pushBits v n).aborted = s.aborted := rfl
@[simp] theorem State.pushBits_phase (v : Byte) (n : Nat) (s : State) : (s.pushBits v n).phase = s.phase := rfl
@[simp] theorem State.pushBits_magic (v : Byte) (n : Nat) (s : State) : (s.pushBits v n).magic = s.magic := rfl
@[simp] theorem State.pushBits_inbox (v : Byte) (n : Nat) (s : State) : (s.pushBits v n).inbox = s.inbox := rfl
@[simp] theorem State.pushBits_fresh (v : Byte) (n : Nat) (s : State) : (s.pushBits v n).fresh = s.fresh := rfl

/-! ### State.flushBits -/

@[simp] theorem State.flushBits_writer (s : State) : s.flushBits.writer = flushedWriter s.writer := rfl
@[simp] theorem State.flushBits_dst (s : State) : s.flushBits.dst = s.dst ++ flushOut s.writer := rfl
@[simp] theorem State.flushBits_reader (s : State) : s.flushBits.reader = s.reader := rfl
@[simp] theorem State.flushBits_src (s : State) : s.flushBits.src = s.src := rfl
@[simp] theorem State.flushBits_residue (s : State) : s.flushBits.residue = s.residue := rfl
@[simp] theorem State.flushBits_counters (s : State) : s.flushBits.counters = s.counters := rfl
@[simp] theorem State.flushBits_window (s : State) : s.flushBits.window = s.window := rfl
@[simp] theorem State.flushBits_rem (s : State) : s.flushBits.rem = s.rem := rfl
@[simp] theorem State.flushBits_pipeline (s : State) : s.flushBits.pipeline = s.pipeline := rfl
@[simp] theorem State.flushBits_latched (s : State) : s.flushBits.latched = s.latched := rfl
@[simp] theorem State.flushBits_operands (s : State) : s.flushBits.operands = s.operands := rfl
@[simp] theorem State.flushBits_results (s : State) : s.flushBits.results = s.results := rfl
@[simp] theorem State.flushBits_aborted (s : State) : s.flushBits.aborted = s.aborted := rfl
@[simp] theorem State.flushBits_phase (s : State) : s.flushBits.phase = s.phase := rfl
@[simp] theorem State.flushBits_magic (s : State) : s.flushBits.magic = s.magic := rfl
@[simp] theorem State.flushBits_inbox (s : State) : s.flushBits.inbox = s.inbox := rfl
@[simp] theorem State.flushBits_fresh (s : State) : s.flushBits.fresh = s.fresh := rfl

/-! ### State.openWriter -/

@[simp] theorem State.openWriter_writer (s : State) : s.openWriter.writer = { acc := 0, free := 8 } := rfl
@[simp] theorem State.openWriter_dst (s : State) : s.openWriter.dst = [] := rfl
@[simp] theorem State.openWriter_reader (s : State) : s.openWriter.reader = s.reader := rfl
@[simp] theorem State.openWriter_src (s : State) : s.openWriter.src = s.src := rfl
@[simp] theorem State.openWriter_residue (s : State) : s.openWriter.residue = s.residue := rfl
@[simp] theorem State.openWriter_counters (s : State) : s.openWriter.counters = s.counters := rfl
@[simp] theorem State.openWriter_window (s : State) : s.openWriter.window = s.window := rfl
@[simp] theorem State.openWriter_rem (s : State) : s.openWriter.rem = s.rem := rfl
@[simp] theorem State.openWriter_pipeline (s : State) : s.openWriter.pipeline = s.pipeline := rfl
@[simp] theorem State.openWriter_latched (s : State) : s.openWriter.latched = s.latched := rfl
@[simp] theorem State.openWriter_operands (s : State) : s.openWriter.operands = s.operands := rfl
@[simp] theorem State.openWriter_results (s : State) : s.openWriter.results = s.results := rfl
@[simp] theorem State.openWriter_aborted (s : State) : s.openWriter.aborted = s.aborted := rfl
@[simp] theorem State.openWriter_phase (s : State) : s.openWriter.phase = s.phase := rfl
@[simp] theorem State.openWriter_magic (s : State) : s.openWriter.magic = s.magic := rfl
@[simp] theorem State.openWriter_inbox (s : State) : s.openWriter.inbox = s.inbox := rfl
@[simp] theorem State.openWriter_fresh (s : State) : s.openWriter.fresh = s.fresh := rfl

/-! ### State.produce -/

@[simp] theorem State.produce_writer (xs : List Byte) (s : State) : (s.produce xs).writer = s.writer := rfl
@[simp] theorem State.produce_dst (xs : List Byte) (s : State) : (s.produce xs).dst = s.dst ++ xs := rfl
@[simp] theorem State.produce_reader (xs : List Byte) (s : State) : (s.produce xs).reader = s.reader := rfl
@[simp] theorem State.produce_src (xs : List Byte) (s : State) : (s.produce xs).src = s.src := rfl
@[simp] theorem State.produce_residue (xs : List Byte) (s : State) : (s.produce xs).residue = s.residue := rfl
@[simp] theorem State.produce_counters (xs : List Byte) (s : State) : (s.produce xs).counters = s.counters := rfl
@[simp] theorem State.produce_window (xs : List Byte) (s : State) : (s.produce xs).window = s.window := rfl
@[simp] theorem State.produce_rem (xs : List Byte) (s : State) : (s.produce xs).rem = s.rem - xs.length := rfl
@[simp] theorem State.produce_pipeline (xs : List Byte) (s : State) : (s.produce xs).pipeline = s.pipeline := rfl
@[simp] theorem State.produce_latched (xs : List Byte) (s : State) : (s.produce xs).latched = s.latched := rfl
@[simp] theorem State.produce_operands (xs : List Byte) (s : State) : (s.produce xs).operands = s.operands := rfl
@[simp] theorem State.produce_results (xs : List Byte) (s : State) : (s.produce xs).results = s.results := rfl
@[simp] theorem State.produce_aborted (xs : List Byte) (s : State) : (s.produce xs).aborted = s.aborted := rfl
@[simp] theorem State.produce_phase (xs : List Byte) (s : State) : (s.produce xs).phase = s.phase := rfl
@[simp] theorem State.produce_magic (xs : List Byte) (s : State) : (s.produce xs).magic = s.magic := rfl
@[simp] theorem State.produce_inbox (xs : List Byte) (s : State) : (s.produce xs).inbox = s.inbox := rfl
@[simp] theorem State.produce_fresh (xs : List Byte) (s : State) : (s.produce xs).fresh = s.fresh := rfl

/-! ### State.addLine -/

@[simp] theorem State.addLine_writer (flag : Bool) (line : List Byte) (s : State) :
    (s.addLine flag line).writer = s.writer := rfl
@[simp] theorem State.addLine_dst (flag : Bool) (line : List Byte) (s : State) :
    (s.addLine flag line).dst = s.dst := rfl
@[simp] theorem State.addLine_reader (flag : Bool) (line : List Byte) (s : State) :
    (s.addLine flag line).reader = s.reader := rfl
@[simp] theorem State.addLine_src (flag : Bool) (line : List Byte) (s : State) :
    (s.addLine flag line).src = s.src := rfl
@[simp] theorem State.addLine_residue (flag : Bool) (line : List Byte) (s : State) :
    (s.addLine flag line).residue = s.residue := rfl
@[simp] theorem State.addLine_counters (flag : Bool) (line : List Byte) (s : State) :
    (s.addLine flag line).counters = s.counters := rfl
@[simp] theorem State.addLine_window (flag : Bool) (line : List Byte) (s : State) :
    (s.addLine flag line).window = s.window := rfl
@[simp] theorem State.addLine_rem (flag : Bool) (line : List Byte) (s : State) :
    (s.addLine flag line).rem = s.rem := rfl
@[simp] theorem State.addLine_pipeline (flag : Bool) (line : List Byte) (s : State) :
    (s.addLine flag line).pipeline = { s.pipeline with flags := s.pipeline.flags ++ [flag], lines := s.pipeline.lines ++ [line] } := rfl
@[simp] theorem State.addLine_latched (flag : Bool) (line : List Byte) (s : State) :
    (s.addLine flag line).latched = s.latched := rfl
@[simp] theorem State.addLine_operands (flag : Bool) (line : List Byte) (s : State) :
    (s.addLine flag line).operands = s.operands := rfl
@[simp] theorem State.addLine_results (flag : Bool) (line : List Byte) (s : State) :
    (s.addLine flag line).results = s.results := rfl
@[simp] theorem State.addLine_aborted (flag : Bool) (line : List Byte) (s : State) :
    (s.addLine flag line).aborted = s.aborted := rfl
@[simp] theorem State.addLine_phase (flag : Bool) (line : List Byte) (s : State) :
    (s.addLine flag line).phase = s.phase := rfl
@[simp] theorem State.addLine_magic (flag : Bool) (line : List Byte) (s : State) :
    (s.addLine flag line).magic = s.magic := rfl
@[simp] theorem State.addLine_inbox (flag : Bool) (line : List Byte) (s : State) :
    (s.addLine flag line).inbox = s.inbox := rfl
@[simp] theorem State.addLine_fresh (flag : Bool) (line : List Byte) (s : State) :
    (s.addLine flag line).fresh = s.fresh := rfl

/-! ### State.addRow -/

@[simp] theorem State.addRow_writer (row : List Byte) (s : State) : (s.addRow row).writer = s.writer := rfl
@[simp] theorem State.addRow_dst (row : List Byte) (s : State) : (s.addRow row).dst = s.dst := rfl
@[simp] theorem State.addRow_reader (row : List Byte) (s : State) : (s.addRow row).reader = s.reader := rfl
@[simp] theorem State.addRow_src (row : List Byte) (s : State) : (s.addRow row).src = s.src := rfl
@[simp] theorem State.addRow_residue (row : List Byte) (s : State) : (s.addRow row).residue = s.residue := rfl
@[simp] theorem State.addRow_counters (row : List Byte) (s : State) : (s.addRow row).counters = s.counters := rfl
@[simp] theorem State.addRow_window (row : List Byte) (s : State) : (s.addRow row).window = s.window := rfl
@[simp] theorem State.addRow_rem (row : List Byte) (s : State) : (s.addRow row).rem = s.rem := rfl
@[simp] theorem State.addRow_pipeline (row : List Byte) (s : State) :
    (s.addRow row).pipeline = { s.pipeline with rows := s.pipeline.rows ++ [row] } := rfl
@[simp] theorem State.addRow_latched (row : List Byte) (s : State) : (s.addRow row).latched = s.latched := rfl
@[simp] theorem State.addRow_operands (row : List Byte) (s : State) : (s.addRow row).operands = s.operands := rfl
@[simp] theorem State.addRow_results (row : List Byte) (s : State) : (s.addRow row).results = s.results := rfl
@[simp] theorem State.addRow_aborted (row : List Byte) (s : State) : (s.addRow row).aborted = s.aborted := rfl
@[simp] theorem State.addRow_phase (row : List Byte) (s : State) : (s.addRow row).phase = s.phase := rfl
@[simp] theorem State.addRow_magic (row : List Byte) (s : State) : (s.addRow row).magic = s.magic := rfl
@[simp] theorem State.addRow_inbox (row : List Byte) (s : State) : (s.addRow row).inbox = s.inbox := rfl
@[simp] theorem State.addRow_fresh (row : List Byte) (s : State) : (s.addRow row).fresh = s.fresh := rfl

/-! ### State.openPipeline -/

@[simp] theorem State.openPipeline_writer (s : State) : s.openPipeline.writer = { acc := 0, free := 8 } := rfl
@[simp] theorem State.openPipeline_dst (s : State) : s.openPipeline.dst = [] := rfl
@[simp] theorem State.openPipeline_reader (s : State) : s.openPipeline.reader = s.reader := rfl
@[simp] theorem State.openPipeline_src (s : State) : s.openPipeline.src = s.src := rfl
@[simp] theorem State.openPipeline_residue (s : State) : s.openPipeline.residue = s.residue := rfl
@[simp] theorem State.openPipeline_counters (s : State) : s.openPipeline.counters = s.counters := rfl
@[simp] theorem State.openPipeline_window (s : State) : s.openPipeline.window = s.window := rfl
@[simp] theorem State.openPipeline_rem (s : State) : s.openPipeline.rem = s.rem := rfl
@[simp] theorem State.openPipeline_pipeline (s : State) :
    s.openPipeline.pipeline = { s.pipeline with row := 0, flags := [], lines := [] } := rfl
@[simp] theorem State.openPipeline_latched (s : State) : s.openPipeline.latched = s.latched := rfl
@[simp] theorem State.openPipeline_operands (s : State) : s.openPipeline.operands = s.operands := rfl
@[simp] theorem State.openPipeline_results (s : State) : s.openPipeline.results = s.results := rfl
@[simp] theorem State.openPipeline_aborted (s : State) : s.openPipeline.aborted = s.aborted := rfl
@[simp] theorem State.openPipeline_phase (s : State) : s.openPipeline.phase = s.phase := rfl
@[simp] theorem State.openPipeline_magic (s : State) : s.openPipeline.magic = s.magic := rfl
@[simp] theorem State.openPipeline_inbox (s : State) : s.openPipeline.inbox = s.inbox := rfl
@[simp] theorem State.openPipeline_fresh (s : State) : s.openPipeline.fresh = s.fresh := rfl

/-! ### State.openBarch -/

@[simp] theorem State.openBarch_writer (s : State) : s.openBarch.writer = { acc := 0, free := 8 } := rfl
@[simp] theorem State.openBarch_dst (s : State) : s.openBarch.dst = [] := rfl
@[simp] theorem State.openBarch_reader (s : State) : s.openBarch.reader = s.reader := rfl
@[simp] theorem State.openBarch_src (s : State) : s.openBarch.src = s.src := rfl
@[simp] theorem State.openBarch_residue (s : State) : s.openBarch.residue = s.residue := rfl
@[simp] theorem State.openBarch_counters (s : State) : s.openBarch.counters = s.counters := rfl
@[simp] theorem State.openBarch_window (s : State) : s.openBarch.window = s.window := rfl
@[simp] theorem State.openBarch_rem (s : State) : s.openBarch.rem = s.rem := rfl
@[simp] theorem State.openBarch_pipeline (s : State) :
    s.openBarch.pipeline = { row := 0, flags := s.operands.barch.flags, lines := s.operands.barch.lines, rows := [] } := rfl
@[simp] theorem State.openBarch_latched (s : State) : s.openBarch.latched = s.latched := rfl
@[simp] theorem State.openBarch_operands (s : State) : s.openBarch.operands = s.operands := rfl
@[simp] theorem State.openBarch_results (s : State) : s.openBarch.results = s.results := rfl
@[simp] theorem State.openBarch_aborted (s : State) : s.openBarch.aborted = s.aborted := rfl
@[simp] theorem State.openBarch_phase (s : State) : s.openBarch.phase = s.phase := rfl
@[simp] theorem State.openBarch_magic (s : State) : s.openBarch.magic = s.magic := rfl
@[simp] theorem State.openBarch_inbox (s : State) : s.openBarch.inbox = s.inbox := rfl
@[simp] theorem State.openBarch_fresh (s : State) : s.openBarch.fresh = s.fresh := rfl

/-! ### State.lastRow -/

@[simp] theorem State.lastRow_writer (s : State) : s.lastRow.writer = s.writer := rfl
@[simp] theorem State.lastRow_dst (s : State) : s.lastRow.dst = s.dst := rfl
@[simp] theorem State.lastRow_reader (s : State) : s.lastRow.reader = s.reader := rfl
@[simp] theorem State.lastRow_src (s : State) : s.lastRow.src = s.src := rfl
@[simp] theorem State.lastRow_residue (s : State) : s.lastRow.residue = s.residue := rfl
@[simp] theorem State.lastRow_counters (s : State) : s.lastRow.counters = s.counters := rfl
@[simp] theorem State.lastRow_window (s : State) : s.lastRow.window = s.window := rfl
@[simp] theorem State.lastRow_rem (s : State) : s.lastRow.rem = s.rem := rfl
@[simp] theorem State.lastRow_pipeline (s : State) :
    s.lastRow.pipeline = { s.pipeline with row := s.latched.h.toNat - 1 } := rfl
@[simp] theorem State.lastRow_latched (s : State) : s.lastRow.latched = s.latched := rfl
@[simp] theorem State.lastRow_operands (s : State) : s.lastRow.operands = s.operands := rfl
@[simp] theorem State.lastRow_results (s : State) : s.lastRow.results = s.results := rfl
@[simp] theorem State.lastRow_aborted (s : State) : s.lastRow.aborted = s.aborted := rfl
@[simp] theorem State.lastRow_phase (s : State) : s.lastRow.phase = s.phase := rfl
@[simp] theorem State.lastRow_magic (s : State) : s.lastRow.magic = s.magic := rfl
@[simp] theorem State.lastRow_inbox (s : State) : s.lastRow.inbox = s.inbox := rfl
@[simp] theorem State.lastRow_fresh (s : State) : s.lastRow.fresh = s.fresh := rfl

/-! ### State.errorEntry -/

@[simp] theorem State.errorEntry_writer (e : ErrorKind) (s : State) :
    (s.errorEntry e).writer = anyWriter s.fresh := rfl
@[simp] theorem State.errorEntry_dst (e : ErrorKind) (s : State) :
    (s.errorEntry e).dst = Config.freeDst s.fresh := rfl
@[simp] theorem State.errorEntry_reader (e : ErrorKind) (s : State) :
    (s.errorEntry e).reader = anyReader s.src.length s.fresh := rfl
@[simp] theorem State.errorEntry_src (e : ErrorKind) (s : State) : (s.errorEntry e).src = s.src := rfl
@[simp] theorem State.errorEntry_residue (e : ErrorKind) (s : State) :
    (s.errorEntry e).residue = { val := Config.freeVal s.fresh, vrem := Config.freeVrem s.fresh } := rfl
@[simp] theorem State.errorEntry_rem (e : ErrorKind) (s : State) :
    (s.errorEntry e).rem = Config.freeRem s.fresh := rfl
@[simp] theorem State.errorEntry_latched (e : ErrorKind) (s : State) : (s.errorEntry e).latched = s.latched := rfl
@[simp] theorem State.errorEntry_operands (e : ErrorKind) (s : State) : (s.errorEntry e).operands = s.operands := rfl
@[simp] theorem State.errorEntry_results (e : ErrorKind) (s : State) :
    (s.errorEntry e).results = Results.any (.error e) s.fresh := rfl
@[simp] theorem State.errorEntry_aborted (e : ErrorKind) (s : State) : (s.errorEntry e).aborted = s.aborted := rfl
@[simp] theorem State.errorEntry_phase (e : ErrorKind) (s : State) : (s.errorEntry e).phase = .idle := rfl
@[simp] theorem State.errorEntry_magic (e : ErrorKind) (s : State) : (s.errorEntry e).magic = s.magic := rfl
@[simp] theorem State.errorEntry_inbox (e : ErrorKind) (s : State) : (s.errorEntry e).inbox = s.inbox := rfl
@[simp] theorem State.errorEntry_fresh (e : ErrorKind) (s : State) : (s.errorEntry e).fresh = s.fresh + 1 := rfl

/-! ### State.errorEntryKeepingReader -/

@[simp] theorem State.errorEntryKeepingReader_writer (e : ErrorKind) (s : State) :
    (s.errorEntryKeepingReader e).writer = anyWriter s.fresh := rfl
@[simp] theorem State.errorEntryKeepingReader_dst (e : ErrorKind) (s : State) :
    (s.errorEntryKeepingReader e).dst = Config.freeDst s.fresh := rfl
@[simp] theorem State.errorEntryKeepingReader_reader (e : ErrorKind) (s : State) :
    (s.errorEntryKeepingReader e).reader = s.reader := rfl
@[simp] theorem State.errorEntryKeepingReader_src (e : ErrorKind) (s : State) :
    (s.errorEntryKeepingReader e).src = s.src := rfl
@[simp] theorem State.errorEntryKeepingReader_residue (e : ErrorKind) (s : State) :
    (s.errorEntryKeepingReader e).residue = { val := Config.freeVal s.fresh, vrem := Config.freeVrem s.fresh } := rfl
@[simp] theorem State.errorEntryKeepingReader_rem (e : ErrorKind) (s : State) :
    (s.errorEntryKeepingReader e).rem = Config.freeRem s.fresh := rfl
@[simp] theorem State.errorEntryKeepingReader_latched (e : ErrorKind) (s : State) :
    (s.errorEntryKeepingReader e).latched = s.latched := rfl
@[simp] theorem State.errorEntryKeepingReader_operands (e : ErrorKind) (s : State) :
    (s.errorEntryKeepingReader e).operands = s.operands := rfl
@[simp] theorem State.errorEntryKeepingReader_results (e : ErrorKind) (s : State) :
    (s.errorEntryKeepingReader e).results = Results.any (.error e) s.fresh := rfl
@[simp] theorem State.errorEntryKeepingReader_aborted (e : ErrorKind) (s : State) :
    (s.errorEntryKeepingReader e).aborted = s.aborted := rfl
@[simp] theorem State.errorEntryKeepingReader_phase (e : ErrorKind) (s : State) :
    (s.errorEntryKeepingReader e).phase = .idle := rfl
@[simp] theorem State.errorEntryKeepingReader_magic (e : ErrorKind) (s : State) :
    (s.errorEntryKeepingReader e).magic = s.magic := rfl
@[simp] theorem State.errorEntryKeepingReader_inbox (e : ErrorKind) (s : State) :
    (s.errorEntryKeepingReader e).inbox = s.inbox := rfl
@[simp] theorem State.errorEntryKeepingReader_fresh (e : ErrorKind) (s : State) :
    (s.errorEntryKeepingReader e).fresh = s.fresh + 1 := rfl

/-! ### State.resetMove -/

@[simp] theorem State.resetMove_writer (rest : List HostMove) (s : State) :
    (s.resetMove rest).writer = State.reset.writer := rfl
@[simp] theorem State.resetMove_dst (rest : List HostMove) (s : State) :
    (s.resetMove rest).dst = State.reset.dst := rfl
@[simp] theorem State.resetMove_reader (rest : List HostMove) (s : State) :
    (s.resetMove rest).reader = State.reset.reader := rfl
@[simp] theorem State.resetMove_src (rest : List HostMove) (s : State) :
    (s.resetMove rest).src = State.reset.src := rfl
@[simp] theorem State.resetMove_residue (rest : List HostMove) (s : State) :
    (s.resetMove rest).residue = State.reset.residue := rfl
@[simp] theorem State.resetMove_counters (rest : List HostMove) (s : State) :
    (s.resetMove rest).counters = State.reset.counters := rfl
@[simp] theorem State.resetMove_window (rest : List HostMove) (s : State) :
    (s.resetMove rest).window = State.reset.window := rfl
@[simp] theorem State.resetMove_rem (rest : List HostMove) (s : State) :
    (s.resetMove rest).rem = State.reset.rem := rfl
@[simp] theorem State.resetMove_pipeline (rest : List HostMove) (s : State) :
    (s.resetMove rest).pipeline = State.reset.pipeline := rfl
@[simp] theorem State.resetMove_latched (rest : List HostMove) (s : State) :
    (s.resetMove rest).latched = State.reset.latched := rfl
@[simp] theorem State.resetMove_operands (rest : List HostMove) (s : State) :
    (s.resetMove rest).operands = State.reset.operands := rfl
@[simp] theorem State.resetMove_results (rest : List HostMove) (s : State) :
    (s.resetMove rest).results = State.reset.results := rfl
@[simp] theorem State.resetMove_aborted (rest : List HostMove) (s : State) :
    (s.resetMove rest).aborted = State.reset.aborted := rfl
@[simp] theorem State.resetMove_phase (rest : List HostMove) (s : State) :
    (s.resetMove rest).phase = State.reset.phase := rfl
@[simp] theorem State.resetMove_magic (rest : List HostMove) (s : State) : (s.resetMove rest).magic = s.magic := rfl
@[simp] theorem State.resetMove_inbox (rest : List HostMove) (s : State) : (s.resetMove rest).inbox = rest := rfl
@[simp] theorem State.resetMove_fresh (rest : List HostMove) (s : State) : (s.resetMove rest).fresh = s.fresh := rfl

/-! ### State.resetCut -/

@[simp] theorem State.resetCut_writer (rest : List HostMove) (s : State) :
    (s.resetCut rest).writer = State.reset.writer := rfl
@[simp] theorem State.resetCut_dst (rest : List HostMove) (s : State) :
    (s.resetCut rest).dst = Config.freeDst s.fresh := rfl
@[simp] theorem State.resetCut_reader (rest : List HostMove) (s : State) :
    (s.resetCut rest).reader = State.reset.reader := rfl
@[simp] theorem State.resetCut_src (rest : List HostMove) (s : State) : (s.resetCut rest).src = State.reset.src := rfl
@[simp] theorem State.resetCut_residue (rest : List HostMove) (s : State) :
    (s.resetCut rest).residue = State.reset.residue := rfl
@[simp] theorem State.resetCut_counters (rest : List HostMove) (s : State) :
    (s.resetCut rest).counters = State.reset.counters := rfl
@[simp] theorem State.resetCut_window (rest : List HostMove) (s : State) :
    (s.resetCut rest).window = State.reset.window := rfl
@[simp] theorem State.resetCut_rem (rest : List HostMove) (s : State) : (s.resetCut rest).rem = State.reset.rem := rfl
@[simp] theorem State.resetCut_pipeline (rest : List HostMove) (s : State) :
    (s.resetCut rest).pipeline = State.reset.pipeline := rfl
@[simp] theorem State.resetCut_latched (rest : List HostMove) (s : State) :
    (s.resetCut rest).latched = State.reset.latched := rfl
@[simp] theorem State.resetCut_operands (rest : List HostMove) (s : State) :
    (s.resetCut rest).operands = State.reset.operands := rfl
@[simp] theorem State.resetCut_results (rest : List HostMove) (s : State) :
    (s.resetCut rest).results = { State.reset.results with
      resBarch := Config.freeResBarch s.fresh, resRaster := Config.freeResRaster s.fresh } := rfl
@[simp] theorem State.resetCut_aborted (rest : List HostMove) (s : State) :
    (s.resetCut rest).aborted = State.reset.aborted := rfl
@[simp] theorem State.resetCut_phase (rest : List HostMove) (s : State) :
    (s.resetCut rest).phase = State.reset.phase := rfl
@[simp] theorem State.resetCut_magic (rest : List HostMove) (s : State) : (s.resetCut rest).magic = s.magic := rfl
@[simp] theorem State.resetCut_inbox (rest : List HostMove) (s : State) : (s.resetCut rest).inbox = rest := rfl
@[simp] theorem State.resetCut_fresh (rest : List HostMove) (s : State) : (s.resetCut rest).fresh = s.fresh + 1 := rfl

/-! ### openRow -/

@[simp] theorem openRow_writer (w : Nat) (s : State) : (openRow w s).writer = { acc := 0, free := 8 } := rfl
@[simp] theorem openRow_dst (w : Nat) (s : State) : (openRow w s).dst = [] := rfl
@[simp] theorem openRow_reader (w : Nat) (s : State) : (openRow w s).reader = s.reader.opened := rfl
@[simp] theorem openRow_src (w : Nat) (s : State) : (openRow w s).src = s.src := rfl
@[simp] theorem openRow_residue (w : Nat) (s : State) : (openRow w s).residue = s.residue := rfl
@[simp] theorem openRow_counters (w : Nat) (s : State) : (openRow w s).counters = s.counters := rfl
@[simp] theorem openRow_window (w : Nat) (s : State) : (openRow w s).window = s.window := rfl
@[simp] theorem openRow_rem (w : Nat) (s : State) : (openRow w s).rem = w := rfl
@[simp] theorem openRow_pipeline (w : Nat) (s : State) : (openRow w s).pipeline = s.pipeline := rfl
@[simp] theorem openRow_latched (w : Nat) (s : State) : (openRow w s).latched = s.latched := rfl
@[simp] theorem openRow_operands (w : Nat) (s : State) : (openRow w s).operands = s.operands := rfl
@[simp] theorem openRow_results (w : Nat) (s : State) : (openRow w s).results = s.results := rfl
@[simp] theorem openRow_aborted (w : Nat) (s : State) : (openRow w s).aborted = s.aborted := rfl
@[simp] theorem openRow_phase (w : Nat) (s : State) : (openRow w s).phase = .decoding := rfl
@[simp] theorem openRow_magic (w : Nat) (s : State) : (openRow w s).magic = s.magic := rfl
@[simp] theorem openRow_inbox (w : Nat) (s : State) : (openRow w s).inbox = s.inbox := rfl
@[simp] theorem openRow_fresh (w : Nat) (s : State) : (openRow w s).fresh = s.fresh := rfl

/-! ### applyWrites: the host writes operands, SRC and with it the BitReader, and nothing else -/

@[simp] theorem State.applyWrite_writer (s : State) (w : OperandWrite) : (s.applyWrite w).writer = s.writer := by
  cases w <;> rfl
@[simp] theorem State.applyWrite_dst (s : State) (w : OperandWrite) : (s.applyWrite w).dst = s.dst := by
  cases w <;> rfl
@[simp] theorem State.applyWrite_residue (s : State) (w : OperandWrite) : (s.applyWrite w).residue = s.residue := by
  cases w <;> rfl
@[simp] theorem State.applyWrite_counters (s : State) (w : OperandWrite) : (s.applyWrite w).counters = s.counters := by
  cases w <;> rfl
@[simp] theorem State.applyWrite_window (s : State) (w : OperandWrite) : (s.applyWrite w).window = s.window := by
  cases w <;> rfl
@[simp] theorem State.applyWrite_rem (s : State) (w : OperandWrite) : (s.applyWrite w).rem = s.rem := by
  cases w <;> rfl
@[simp] theorem State.applyWrite_pipeline (s : State) (w : OperandWrite) : (s.applyWrite w).pipeline = s.pipeline := by
  cases w <;> rfl
@[simp] theorem State.applyWrite_latched (s : State) (w : OperandWrite) : (s.applyWrite w).latched = s.latched := by
  cases w <;> rfl
@[simp] theorem State.applyWrite_results (s : State) (w : OperandWrite) : (s.applyWrite w).results = s.results := by
  cases w <;> rfl
@[simp] theorem State.applyWrite_aborted (s : State) (w : OperandWrite) : (s.applyWrite w).aborted = s.aborted := by
  cases w <;> rfl
@[simp] theorem State.applyWrite_phase (s : State) (w : OperandWrite) : (s.applyWrite w).phase = s.phase := by
  cases w <;> rfl
@[simp] theorem State.applyWrite_magic (s : State) (w : OperandWrite) : (s.applyWrite w).magic = s.magic := by
  cases w <;> rfl
@[simp] theorem State.applyWrite_inbox (s : State) (w : OperandWrite) : (s.applyWrite w).inbox = s.inbox := by
  cases w <;> rfl
@[simp] theorem State.applyWrites_writer (s : State) (ws : List OperandWrite) : (s.applyWrites ws).writer = s.writer := by
  induction ws generalizing s with
  | nil => rfl
  | cons w ws ih => exact (ih _).trans (s.applyWrite_writer w)
@[simp] theorem State.applyWrites_dst (s : State) (ws : List OperandWrite) : (s.applyWrites ws).dst = s.dst := by
  induction ws generalizing s with
  | nil => rfl
  | cons w ws ih => exact (ih _).trans (s.applyWrite_dst w)
@[simp] theorem State.applyWrites_residue (s : State) (ws : List OperandWrite) : (s.applyWrites ws).residue = s.residue := by
  induction ws generalizing s with
  | nil => rfl
  | cons w ws ih => exact (ih _).trans (s.applyWrite_residue w)
@[simp] theorem State.applyWrites_counters (s : State) (ws : List OperandWrite) : (s.applyWrites ws).counters = s.counters := by
  induction ws generalizing s with
  | nil => rfl
  | cons w ws ih => exact (ih _).trans (s.applyWrite_counters w)
@[simp] theorem State.applyWrites_window (s : State) (ws : List OperandWrite) : (s.applyWrites ws).window = s.window := by
  induction ws generalizing s with
  | nil => rfl
  | cons w ws ih => exact (ih _).trans (s.applyWrite_window w)
@[simp] theorem State.applyWrites_rem (s : State) (ws : List OperandWrite) : (s.applyWrites ws).rem = s.rem := by
  induction ws generalizing s with
  | nil => rfl
  | cons w ws ih => exact (ih _).trans (s.applyWrite_rem w)
@[simp] theorem State.applyWrites_pipeline (s : State) (ws : List OperandWrite) : (s.applyWrites ws).pipeline = s.pipeline := by
  induction ws generalizing s with
  | nil => rfl
  | cons w ws ih => exact (ih _).trans (s.applyWrite_pipeline w)
@[simp] theorem State.applyWrites_latched (s : State) (ws : List OperandWrite) : (s.applyWrites ws).latched = s.latched := by
  induction ws generalizing s with
  | nil => rfl
  | cons w ws ih => exact (ih _).trans (s.applyWrite_latched w)
@[simp] theorem State.applyWrites_results (s : State) (ws : List OperandWrite) : (s.applyWrites ws).results = s.results := by
  induction ws generalizing s with
  | nil => rfl
  | cons w ws ih => exact (ih _).trans (s.applyWrite_results w)
@[simp] theorem State.applyWrites_aborted (s : State) (ws : List OperandWrite) : (s.applyWrites ws).aborted = s.aborted := by
  induction ws generalizing s with
  | nil => rfl
  | cons w ws ih => exact (ih _).trans (s.applyWrite_aborted w)
@[simp] theorem State.applyWrites_phase (s : State) (ws : List OperandWrite) : (s.applyWrites ws).phase = s.phase := by
  induction ws generalizing s with
  | nil => rfl
  | cons w ws ih => exact (ih _).trans (s.applyWrite_phase w)
@[simp] theorem State.applyWrites_magic (s : State) (ws : List OperandWrite) : (s.applyWrites ws).magic = s.magic := by
  induction ws generalizing s with
  | nil => rfl
  | cons w ws ih => exact (ih _).trans (s.applyWrite_magic w)
@[simp] theorem State.applyWrites_inbox (s : State) (ws : List OperandWrite) : (s.applyWrites ws).inbox = s.inbox := by
  induction ws generalizing s with
  | nil => rfl
  | cons w ws ih => exact (ih _).trans (s.applyWrite_inbox w)

/-- The writes of the host keep the BitReader in the ranges of R15 and R16, on the SRC that then stands. -/
theorem State.applyWrites_reader {s : State} (h8 : s.reader.avail ≤ 8) (hr : s.reader.rdPos ≤ s.src.length)
    (ws : List OperandWrite) :
    (s.applyWrites ws).reader.avail ≤ 8 ∧ (s.applyWrites ws).reader.rdPos ≤ (s.applyWrites ws).src.length := by
  induction ws generalizing s with
  | nil => exact ⟨h8, hr⟩
  | cons w ws ih =>
    refine ih ?_ ?_ <;> cases w <;> first | assumption | skip
    · exact (anyReader_ok _ _).1
    · exact (anyReader_ok _ _).2

/-! ### Latching is idempotent and forgets what it replaces -/

@[simp] theorem State.latchWidth_latchWidth (s : State) : s.latchWidth.latchWidth = s.latchWidth := rfl

@[simp] theorem State.latchDims_latchDims (w h w' h' : U32) (s : State) :
    (s.latchDims w h).latchDims w' h' = s.latchDims w' h' := rfl

end Sys2Proof.Machine
end

