-- ==== Sys2Proof/Laws/Bits.lean ====
section
/-! SUPPORT. Bits as lists: fields, bytes and the numbers they spell. -/

namespace Sys2Proof

@[simp] theorem bitsOfByte_length (b : Byte) : (bitsOfByte b).length = 8 := rfl

@[simp] theorem fieldBits_length (v n : Nat) : (fieldBits v n).length = n := by simp [fieldBits]

@[simp] theorem fieldBits_zero (v : Nat) : fieldBits v 0 = [] := rfl

theorem fieldBits_getElem (v n i : Nat) (h : i < (fieldBits v n).length) :
    (fieldBits v n)[i] = v.testBit (n - 1 - i) := by simp [fieldBits]

/-- A field of eight bits is the byte's bits. -/
theorem fieldBits_byte (b : Byte) : fieldBits b.toNat 8 = bitsOfByte b := by
  simp [fieldBits, bitsOfByte, List.range_succ, BitVec.getLsbD]

/-- The high `m` bits of a field, then its low `n`. -/
theorem fieldBits_add (v m n : Nat) : fieldBits v (m + n) = fieldBits (v >>> n) m ++ fieldBits v n := by
  apply List.ext_getElem (by simp)
  intro i h1 h2
  rw [fieldBits_getElem, List.getElem_append]
  simp only [fieldBits_length] at h1 ⊢
  split
  · rw [fieldBits_getElem, Nat.testBit_shiftRight]; congr 1; omega
  · rw [fieldBits_getElem]; congr 1; omega

/-- A field cut in two: its low `f` bits come last. -/
theorem fieldBits_split (v : Nat) {f n : Nat} (h : f ≤ n) :
    fieldBits v n = fieldBits (v >>> f) (n - f) ++ fieldBits v f := by
  rw [← fieldBits_add, Nat.sub_add_cancel h]

/-- A field depends on the bits it holds only. -/
theorem fieldBits_congr {v w n : Nat} (h : ∀ i < n, v.testBit i = w.testBit i) : fieldBits v n = fieldBits w n := by
  apply List.ext_getElem (by simp)
  intro i h1 h2
  rw [fieldBits_getElem, fieldBits_getElem]
  simp only [fieldBits_length] at h1
  exact h _ (by omega)

theorem fieldBits_mod (v n : Nat) : fieldBits (v % 2 ^ n) n = fieldBits v n :=
  fieldBits_congr fun i h => by simp [Nat.testBit_mod_two_pow, h]

theorem natOfBits_snoc (bits : Bits) (b : Bool) : natOfBits (bits ++ [b]) = 2 * natOfBits bits + b.toNat := by
  simp [natOfBits]

theorem fieldBits_succ (v n : Nat) : fieldBits v (n + 1) = fieldBits (v / 2) n ++ [v.testBit 0] := by
  rw [fieldBits_add v n 1, Nat.shiftRight_one]; rfl

/-- The number a field spells is its value, cut to its width. -/
theorem natOfBits_fieldBits (v n : Nat) : natOfBits (fieldBits v n) = v % 2 ^ n := by
  induction n generalizing v with
  | zero => simp [natOfBits, Nat.mod_one]
  | succ n ih =>
    rw [fieldBits_succ, natOfBits_snoc, ih, Nat.pow_succ, Nat.mul_comm (2 ^ n) 2, Nat.mod_mul, Nat.testBit_zero]
    rcases Nat.mod_two_eq_zero_or_one v with h | h <;> (simp [h]; try omega)

theorem natOfBits_lt (bits : Bits) : natOfBits bits < 2 ^ bits.length := by
  induction bits using List.reverseRecOn with
  | nil => simp [natOfBits]
  | append_singleton bits b ih =>
    rw [natOfBits_snoc, List.length_append, List.length_singleton, Nat.pow_succ]
    cases b <;> (simp; omega)

/-- Every bit string is the field of the number it spells. -/
theorem fieldBits_natOfBits (bits : Bits) : fieldBits (natOfBits bits) bits.length = bits := by
  induction bits using List.reverseRecOn with
  | nil => rfl
  | append_singleton bits b ih =>
    rw [List.length_append, List.length_singleton, fieldBits_succ, natOfBits_snoc]
    have h1 : (2 * natOfBits bits + b.toNat) / 2 = natOfBits bits := by cases b <;> (simp; try omega)
    have h2 : (2 * natOfBits bits + b.toNat).testBit 0 = b := by
      cases b <;> simp [Nat.testBit_zero]
    rw [h1, h2, ih]

@[simp] theorem byteOfBits_bitsOfByte (b : Byte) : byteOfBits (bitsOfByte b) = b := by
  rw [byteOfBits, ← fieldBits_byte, natOfBits_fieldBits]
  apply BitVec.eq_of_toNat_eq
  have := b.isLt
  simpa using this

theorem bitsOfByte_byteOfBits {bits : Bits} (h : bits.length = 8) : bitsOfByte (byteOfBits bits) = bits := by
  rw [← fieldBits_byte, byteOfBits, BitVec.toNat_ofNat, fieldBits_mod]
  conv_rhs => rw [← fieldBits_natOfBits bits, h]

theorem bitsOfByte_injective {a b : Byte} (h : bitsOfByte a = bitsOfByte b) : a = b := by
  rw [← byteOfBits_bitsOfByte a, h, byteOfBits_bitsOfByte]

@[simp] theorem bitsOfBytes_nil : bitsOfBytes [] = [] := rfl

@[simp] theorem bitsOfBytes_cons (x : Byte) (xs : List Byte) :
    bitsOfBytes (x :: xs) = bitsOfByte x ++ bitsOfBytes xs := by simp [bitsOfBytes]

@[simp] theorem bitsOfBytes_append (xs ys : List Byte) :
    bitsOfBytes (xs ++ ys) = bitsOfBytes xs ++ bitsOfBytes ys := by simp [bitsOfBytes]

@[simp] theorem bitsOfBytes_length (xs : List Byte) : (bitsOfBytes xs).length = 8 * xs.length := by
  induction xs with
  | nil => rfl
  | cons x xs ih => simp [ih]; omega

/-- A buffer is known by its bits. -/
theorem bitsOfBytes_injective {xs ys : List Byte} (h : bitsOfBytes xs = bitsOfBytes ys) : xs = ys := by
  induction xs generalizing ys with
  | nil =>
    cases ys with
    | nil => rfl
    | cons y ys => have := congrArg List.length h; simp at this; omega
  | cons x xs ih =>
    cases ys with
    | nil => have := congrArg List.length h; simp at this
    | cons y ys =>
      rw [bitsOfBytes_cons, bitsOfBytes_cons] at h
      obtain ⟨h1, h2⟩ := List.append_inj h (by simp)
      rw [bitsOfByte_injective h1, ih h2]

theorem bitsOfBytes_drop (xs : List Byte) (n : Nat) : bitsOfBytes (xs.drop n) = (bitsOfBytes xs).drop (8 * n) := by
  induction n generalizing xs with
  | zero => rfl
  | succ n ih =>
    cases xs with
    | nil => rfl
    | cons x xs =>
      have h1 : (bitsOfByte x).drop (8 * (n + 1)) = [] := List.drop_eq_nil_of_le (by simp; try omega)
      have h2 : 8 * (n + 1) - (bitsOfByte x).length = 8 * n := by rw [bitsOfByte_length]; omega
      rw [List.drop_succ_cons, ih, bitsOfBytes_cons, List.drop_append, h1, h2, List.nil_append]

end Sys2Proof
end

