-- ==== Sys2Proof/Laws/BitWriter.lean ====
section
/-! SUPPORT. The bit writer: a push appends its field to the bits written (R76), a flush pads them to a byte (R74). -/

namespace Sys2Proof.Machine

theorem lowMask_getLsbD {m i : Nat} (hi : i < 8) : (lowMask m).getLsbD i = decide (i < m) := by
  rw [lowMask, BitVec.getLsbD_ofNat, Nat.testBit_two_pow_sub_one]; simp [hi]

/-- Bit `i` of a masked value. -/
theorem and_lowMask_getLsbD (v : Byte) {m i : Nat} (hi : i < 8) :
    (v &&& lowMask m).getLsbD i = (v.getLsbD i && decide (i < m)) := by
  rw [BitVec.getLsbD_and, lowMask_getLsbD hi]

theorem and_lowMask_twice (v : Byte) {m n : Nat} (h : n ≤ m) : (v &&& lowMask n) &&& lowMask m = v &&& lowMask n := by
  apply BitVec.eq_of_getLsbD_eq
  intro i hi
  rw [and_lowMask_getLsbD _ hi, and_lowMask_getLsbD _ hi]
  by_cases h1 : i < n
  · simp [h1, Nat.lt_of_lt_of_le h1 h]
  · simp [h1]

theorem shiftRight_and_lowMask (v : Byte) {m n : Nat} (h : m ≤ n) :
    ((v &&& lowMask n) >>> (n - m)) &&& lowMask m = (v &&& lowMask n) >>> (n - m) := by
  apply BitVec.eq_of_getLsbD_eq
  intro i hi
  rw [and_lowMask_getLsbD _ hi, BitVec.getLsbD_ushiftRight]
  by_cases h1 : i < m
  · simp [h1]
  · by_cases h2 : n - m + i < 8
    · rw [and_lowMask_getLsbD _ h2]
      simp [h1, show ¬ (n - m + i < n) by omega]
    · simp [h1, BitVec.getLsbD_of_ge _ _ (Nat.le_of_not_lt h2)]

theorem shiftLeft_and_lowMask (v : Byte) {m k : Nat} (h : 8 ≤ m + k) :
    (v &&& lowMask m) <<< k = v <<< k := by
  apply BitVec.eq_of_getLsbD_eq
  intro i hi
  rw [BitVec.getLsbD_shiftLeft, BitVec.getLsbD_shiftLeft]
  by_cases h1 : i < k
  · simp [h1]
  · rw [and_lowMask_getLsbD _ (by omega)]
    simp [show i - k < m by omega]

/-- BW.PUSH that leaves room in the byte: the field goes below the pending bits and nothing is emitted (R73's closed form,
`t < 8`). -/
theorem pushRun_fits (w : BitWriter) (v : Byte) {n : Nat} (h1 : 1 ≤ n) (h : n < w.free) :
    pushRun w v n = { acc := w.acc ||| ((v &&& lowMask n) <<< (w.free - n)), free := w.free - n,
                      val := v &&& lowMask n, vrem := 0, out := [] } := by
  obtain ⟨k, rfl⟩ : ∃ k, n = k + 1 := ⟨n - 1, by omega⟩
  have hm : min w.free (k + 1) = k + 1 := by omega
  have hs : w.free - (k + 1) ≠ 0 := by omega
  cases k with
  | zero => simp [pushRun, packLoop, pack, completeByte, hm, hs, and_lowMask_twice]
  | succ k => simp [pushRun, packLoop, pack, completeByte, hm, hs, and_lowMask_twice]

/-- BW.PUSH that fills the byte: it is emitted and the rest of the field starts the next one (R73's closed form,
`t >= 8`). -/
theorem pushRun_fills (w : BitWriter) (v : Byte) {n : Nat} (hf : 1 ≤ w.free) (hn : n ≤ 8) (h : w.free ≤ n) :
    pushRun w v n = { acc := (v &&& lowMask n) <<< (8 - (n - w.free)), free := 8 - (n - w.free),
                      val := v &&& lowMask n, vrem := 0, out := [w.acc ||| ((v &&& lowMask n) >>> (n - w.free))] } := by
  obtain ⟨k, rfl⟩ : ∃ k, n = k + 1 := ⟨n - 1, by omega⟩
  have hm : min w.free (k + 1) = w.free := by omega
  by_cases he : w.free = k + 1
  · have : (v &&& lowMask (k + 1)) <<< 8 = 0 := BitVec.shiftLeft_eq_zero (by omega)
    cases k with
    | zero => simp [pushRun, packLoop, pack, completeByte, he, and_lowMask_twice, this]
    | succ k => simp [pushRun, packLoop, pack, completeByte, he, and_lowMask_twice, this]
  · obtain ⟨j, hj⟩ : ∃ j, k + 1 - w.free = j + 1 := ⟨k - w.free, by omega⟩
    obtain ⟨i, rfl⟩ : ∃ i, k = i + 1 := ⟨k - 1, by omega⟩
    have hm2 : min 8 (i + 1 + 1 - w.free) = i + 1 + 1 - w.free := by omega
    have hs : 8 - (i + 1 + 1 - w.free) ≠ 0 := by omega
    have hv : i + 1 + 1 - w.free ≠ 0 := by omega
    have hmask : ((v &&& lowMask (i + 1 + 1)) &&& lowMask (i + 1 + 1 - w.free)) <<< (8 - (i + 1 + 1 - w.free)) =
        (v &&& lowMask (i + 1 + 1)) <<< (8 - (i + 1 + 1 - w.free)) := shiftLeft_and_lowMask _ (by omega)
    have hr : ((v &&& lowMask (i + 1 + 1)) >>> (i + 1 + 1 - w.free)) &&& lowMask w.free =
        (v &&& lowMask (i + 1 + 1)) >>> (i + 1 + 1 - w.free) := shiftRight_and_lowMask v h
    cases i with
    | zero => simp [pushRun, packLoop, pack, completeByte, hm, hm2, hs, hv, hmask, hr]
    | succ i => simp [pushRun, packLoop, pack, completeByte, hm, hm2, hs, hv, hmask, hr]

/-- What a push does to a BitWriter in range: it stays in range, the residue is empty, and at most one byte is completed. -/
theorem pushRun_range (w : BitWriter) (v : Byte) {n : Nat} (h1 : 1 ≤ w.free) (h8 : w.free ≤ 8) (hn1 : 1 ≤ n) (hn : n ≤ 8) :
    let p := pushRun w v n
    1 ≤ p.free ∧ p.free ≤ 8 ∧ p.vrem = 0 ∧ p.out.length = (8 - w.free + n) / 8 := by
  by_cases h : n < w.free
  · rw [pushRun_fits w v hn1 h]
    refine ⟨by simp; omega, by simp; omega, rfl, ?_⟩
    simp; omega
  · rw [pushRun_fills w v h1 hn (by omega)]
    refine ⟨by simp; omega, by simp, rfl, ?_⟩
    simp only [List.length_singleton]; omega

/-- The pending bits of a byte as a field. -/
theorem take_bitsOfByte (a : Byte) {f : Nat} (h : f ≤ 8) :
    (bitsOfByte a).take (8 - f) = fieldBits (a.toNat >>> f) (8 - f) := by
  rw [← fieldBits_byte, fieldBits_split _ h, List.take_left' (by simp)]

/-- **The writer's law (R76).** A push appends the field's bits to the bits written, and keeps the BitWriter invariant. -/
theorem pushRun_written (dst : List Byte) (w : BitWriter) (v : Byte) {n : Nat} (hw : w.Ok) (hn1 : 1 ≤ n) (hn : n ≤ 8) :
    let p := pushRun w v n
    writtenBits (dst ++ p.out) { acc := p.acc, free := p.free } = writtenBits dst w ++ fieldBits v.toNat n ∧
      BitWriter.Ok { acc := p.acc, free := p.free } := by
  obtain ⟨h1, h8, hz⟩ := hw
  have hzero : ∀ i, i < w.free → w.acc.getLsbD i = false := by
    intro i hi
    have := congrArg (fun x => x.getLsbD i) hz
    rw [and_lowMask_getLsbD _ (by omega)] at this
    simpa [hi] using this
  have htb : ∀ (x : Byte) i, x.toNat.testBit i = x.getLsbD i := fun _ _ => rfl
  by_cases h : n < w.free
  · simp only [pushRun_fits w v hn1 h, List.append_nil]
    constructor
    · simp only [writtenBits, List.append_assoc]
      congr 1
      rw [take_bitsOfByte _ (by omega), take_bitsOfByte _ h8]
      rw [show 8 - (w.free - n) = 8 - w.free + n by omega, fieldBits_add, ← Nat.shiftRight_add]
      rw [show w.free - n + n = w.free by omega]
      congr 1
      · apply fieldBits_congr
        intro i hi
        simp only [Nat.testBit_shiftRight, htb, BitVec.getLsbD_or, BitVec.getLsbD_shiftLeft]
        rw [and_lowMask_getLsbD _ (by omega)]
        simp [show ¬ (w.free + i - (w.free - n) < n) by omega]
      · apply fieldBits_congr
        intro i hi
        simp only [Nat.testBit_shiftRight, htb, BitVec.getLsbD_or, BitVec.getLsbD_shiftLeft]
        rw [hzero _ (by omega), and_lowMask_getLsbD _ (by omega)]
        simp [show w.free - n + i - (w.free - n) = i by omega, hi, show w.free - n + i < 8 by omega]
    · refine ⟨by simp; omega, by simp; omega, ?_⟩
      apply BitVec.eq_of_getLsbD_eq
      intro i hi
      rw [and_lowMask_getLsbD _ hi, BitVec.getLsbD_or, BitVec.getLsbD_shiftLeft]
      by_cases hlt : i < w.free - n
      · simp [hlt, hzero i (by omega)]
      · simp [hlt]
  · have h : w.free ≤ n := by omega
    simp only [pushRun_fills w v h1 hn h]
    constructor
    · simp only [writtenBits, bitsOfBytes_append, List.append_assoc, bitsOfBytes_cons, bitsOfBytes_nil, List.append_nil]
      congr 1
      rw [take_bitsOfByte _ (by omega), take_bitsOfByte _ h8, ← fieldBits_byte]
      have hsplit : fieldBits v.toNat n = fieldBits (v.toNat >>> (n - w.free)) w.free ++ fieldBits v.toNat (n - w.free) := by
        rw [← fieldBits_add, show w.free + (n - w.free) = n by omega]
      rw [hsplit, show (8 : Nat) - (8 - (n - w.free)) = n - w.free by omega, ← List.append_assoc]
      congr 1
      · rw [fieldBits_split _ h8]
        congr 1
        · apply fieldBits_congr
          intro i hi
          simp only [Nat.testBit_shiftRight, htb, BitVec.getLsbD_or, BitVec.getLsbD_ushiftRight]
          by_cases hb : n - w.free + (w.free + i) < 8
          · rw [and_lowMask_getLsbD _ hb]
            simp [show ¬ (n - w.free + (w.free + i) < n) by omega]
          · rw [BitVec.getLsbD_of_ge _ (n - w.free + (w.free + i)) (by omega)]; simp
        · apply fieldBits_congr
          intro i hi
          simp only [Nat.testBit_shiftRight, htb, BitVec.getLsbD_or, BitVec.getLsbD_ushiftRight]
          rw [hzero i hi, and_lowMask_getLsbD _ (by omega)]
          simp; omega
      · apply fieldBits_congr
        intro i hi
        simp only [Nat.testBit_shiftRight, htb, BitVec.getLsbD_shiftLeft]
        rw [and_lowMask_getLsbD _ (by omega)]
        simp [show 8 - (n - w.free) + i - (8 - (n - w.free)) = i by omega, show 8 - (n - w.free) + i < 8 by omega]
        omega
    · refine ⟨by simp; omega, by simp, ?_⟩
      apply BitVec.eq_of_getLsbD_eq
      intro i hi
      rw [and_lowMask_getLsbD _ hi, BitVec.getLsbD_shiftLeft]
      by_cases hlt : i < 8 - (n - w.free) <;> simp [hlt]

/-- A flush pads the bits written with zeros to a byte and leaves the writer empty (R74). -/
theorem flush_written (dst : List Byte) (w : BitWriter) (hw : w.Ok) :
    bitsOfBytes (dst ++ flushOut w) = padToByte (writtenBits dst w) ∧ flushedWriter w = { acc := 0, free := 8 } := by
  obtain ⟨h1, h8, hz⟩ := hw
  have hzero : ∀ i, i < w.free → w.acc.getLsbD i = false := by
    intro i hi
    have := congrArg (fun x => x.getLsbD i) hz
    rw [and_lowMask_getLsbD _ (by omega)] at this
    simpa [hi] using this
  have hlen : (writtenBits dst w).length = 8 * dst.length + (8 - w.free) := by simp [writtenBits]
  by_cases h : w.free < 8
  · constructor
    · have hpad : (8 - (writtenBits dst w).length % 8) % 8 = w.free := by rw [hlen]; omega
      rw [padToByte, hpad, writtenBits, flushOut, if_pos h, bitsOfBytes_append, List.append_assoc]
      congr 1
      rw [bitsOfBytes_cons, bitsOfBytes_nil, List.append_nil]
      conv_lhs => rw [← List.take_append_drop (8 - w.free) (bitsOfByte w.acc)]
      congr 1
      apply List.ext_getElem (by simp; omega)
      intro i h1' h2'
      rw [List.getElem_drop, List.getElem_replicate]
      simp only [← fieldBits_byte]
      rw [fieldBits_getElem]
      exact hzero _ (by simp at h1'; omega)
    · simp [flushedWriter, h]
  · have he : w.free = 8 := by omega
    have hacc : w.acc = 0 := by
      apply BitVec.eq_of_getLsbD_eq
      intro i hi
      simp [hzero i (by omega)]
    refine ⟨?_, ?_⟩
    · have hpad : (8 - (writtenBits dst w).length % 8) % 8 = 0 := by rw [hlen]; omega
      rw [padToByte, hpad, writtenBits, flushOut, if_neg h, he]; simp
    · rw [flushedWriter, if_neg h]
      cases w; simp_all

end Sys2Proof.Machine
end

