-- ==== Sys2Proof/Laws/BitReader.lean ====
section
/-! SUPPORT. The bit reader: a pull answers the next bits as a number and moves past exactly them (R78, R79). -/

namespace Sys2Proof

theorem natOfBits_append (xs ys : Bits) : natOfBits (xs ++ ys) = natOfBits xs * 2 ^ ys.length + natOfBits ys := by
  induction ys using List.reverseRecOn with
  | nil => simp [natOfBits]
  | append_singleton ys b ih =>
    rw [← List.append_assoc, natOfBits_snoc, natOfBits_snoc, ih, List.length_append, List.length_singleton, Nat.pow_succ]
    ring

end Sys2Proof

namespace Sys2Proof.Machine

theorem unreadBits_length (src : List Byte) (b : BitReader) : (unreadBits src b).length = b.unread src := by
  simp [unreadBits, BitReader.unread]; omega

/-- Where a reader stands after taking `n` bits: in range, past exactly `n` bits of the stream, inside the buffer. -/
structure Advanced (src : List Byte) (n : Nat) (b b' : BitReader) : Prop where
  bits   : unreadBits src b' = (unreadBits src b).drop n
  avail  : b'.avail ≤ 8
  short  : b'.avail ≤ 7 ∨ b' = b
  cursor : 8 * b'.rdPos + b.avail = 8 * b.rdPos + b'.avail + n
  mono   : b.rdPos ≤ b'.rdPos
  inside : b'.rdPos ≤ max b.rdPos src.length

theorem Advanced.refl {src : List Byte} {b : BitReader} (h : b.avail ≤ 8) : Advanced src 0 b b :=
  { bits := rfl, avail := h, short := .inr rfl, cursor := by omega, mono := Nat.le_refl _, inside := Nat.le_max_left _ _ }

theorem Advanced.trans {src : List Byte} {m n : Nat} {a b c : BitReader} (h1 : Advanced src m a b)
    (h2 : Advanced src n b c) : Advanced src (m + n) a c where
  bits := by rw [h2.bits, h1.bits, List.drop_drop]
  avail := h2.avail
  short := by
    rcases h2.short with h | h
    · exact .inl h
    · rw [h]; exact h1.short
  cursor := by have := h1.cursor; have := h2.cursor; omega
  mono := Nat.le_trans h1.mono h2.mono
  inside := by have := h1.inside; have := h2.inside; have := h1.mono; omega

/-- A reader that has taken a bit has at most 7 left in its byte, so `rd_pos` counts the bytes touched (R17, R78). -/
theorem Advanced.avail_lt {src : List Byte} {n : Nat} {b b' : BitReader} (h : Advanced src n b b') (hn : 1 ≤ n) :
    b'.avail ≤ 7 := by
  rcases h.short with h7 | rfl
  · exact h7
  · have := h.cursor; omega

/-- A refill loads a byte when none of the current one is left, and changes no unread bit. -/
theorem refill_spec (src : List Byte) (b : BitReader) (h8 : b.avail ≤ 8) (h : 0 < b.unread src) :
    ∃ b', refill src b = .ok b' ∧ 1 ≤ b'.avail ∧ b'.avail ≤ 8 ∧ unreadBits src b' = unreadBits src b ∧
      8 * b'.rdPos + b.avail = 8 * b.rdPos + b'.avail ∧ b.rdPos ≤ b'.rdPos ∧ b'.rdPos ≤ max b.rdPos src.length := by
  by_cases h0 : b.avail = 0
  · have hlt : b.rdPos < src.length := by simp only [BitReader.unread] at h; omega
    refine ⟨{ cur := src[b.rdPos], avail := 8, rdPos := b.rdPos + 1 }, ?_, by simp, by simp, ?_, by simp; omega, by simp, by simp; omega⟩
    · simp [refill, h0, memByte, hlt]
    · simp only [unreadBits, h0, fieldBits_zero, List.nil_append, fieldBits_byte]
      rw [List.drop_eq_getElem_cons hlt, bitsOfBytes_cons]
  · exact ⟨b, by simp [refill, h0], by omega, h8, rfl, by omega, Nat.le_refl _, Nat.le_max_left _ _⟩

/-- The `m` bits the pull takes out of the current byte. -/
theorem chunk_toNat (c : Byte) {a m : Nat} (hm : m ≤ a) (hm8 : m ≤ 8) :
    ((c >>> (a - m)) &&& lowMask m).toNat = natOfBits ((fieldBits c.toNat a).take m) := by
  rw [fieldBits_split c.toNat (Nat.sub_le a m), List.take_left' (by simp; omega), show a - (a - m) = m by omega,
    natOfBits_fieldBits, lowMask, BitVec.toNat_and, BitVec.toNat_ofNat, BitVec.toNat_ushiftRight]
  have : 2 ^ m - 1 < 2 ^ 8 := by
    have := Nat.pow_le_pow_right (n := 2) (by omega) hm8
    have := Nat.one_le_two_pow (n := m)
    omega
  rw [Nat.mod_eq_of_lt this, Nat.and_two_pow_sub_one_eq_mod]

/-- Collecting a chunk below the bits collected so far. -/
theorem collect_toNat (r x : Byte) {m : Nat} (hx : x.toNat < 2 ^ m) :
    ((r <<< m) ||| x).toNat = (r.toNat * 2 ^ m + x.toNat) % 256 := by
  have hx8 := x.isLt
  rw [BitVec.toNat_or, BitVec.toNat_shiftLeft, Nat.shiftLeft_eq]
  apply Nat.eq_of_testBit_eq
  intro i
  rw [Nat.testBit_or, show (256 : Nat) = 2 ^ 8 from rfl, Nat.testBit_mod_two_pow, Nat.testBit_mod_two_pow,
    Nat.mul_comm, Nat.testBit_two_pow_mul_add _ hx]
  by_cases h : i < m
  · by_cases h8 : i < 8
    · simp [h, h8, Nat.testBit_two_pow_mul]
    · have : x.toNat.testBit i = false := Nat.testBit_lt_two_pow (Nat.lt_of_lt_of_le hx8 (Nat.pow_le_pow_right (by omega) (by omega)))
      simp [this, h8]
  · have : x.toNat.testBit i = false := Nat.testBit_lt_two_pow (Nat.lt_of_lt_of_le hx (Nat.pow_le_pow_right (by omega) (by omega)))
    have hmi : m ≤ i := by omega
    simp only [h, this, Nat.testBit_two_pow_mul, if_false, hmi, decide_true, Bool.true_and, Bool.or_false]

theorem pullLoop_spec (src : List Byte) (fuel n : Nat) (r : Byte) (b : BitReader) (hf : n ≤ fuel) (h8 : b.avail ≤ 8)
    (h : n ≤ b.unread src) :
    ∃ v b', pullLoop src fuel n r b = .ok (v, b') ∧ Advanced src n b b' ∧
      v.toNat = (r.toNat * 2 ^ n + natOfBits ((unreadBits src b).take n)) % 256 := by
  induction fuel generalizing n r b with
  | zero =>
    obtain rfl : n = 0 := by omega
    have := r.isLt
    exact ⟨r, b, rfl, .refl h8, by simp [natOfBits]; omega⟩
  | succ fuel ih =>
    by_cases h0 : n = 0
    · subst h0
      have := r.isLt
      exact ⟨r, b, by simp [pullLoop], .refl h8, by simp [natOfBits]; omega⟩
    · obtain ⟨c, hc, hc1, hc8, hbits, hcur, hmono, hin⟩ := refill_spec src b h8 (by omega)
      have hm1 : 1 ≤ min n c.avail := by omega
      have hlen : c.unread src = b.unread src := by rw [← unreadBits_length, ← unreadBits_length, hbits]
      have hdrop : unreadBits src { c with avail := c.avail - min n c.avail } = (unreadBits src c).drop (min n c.avail) := by
        simp only [unreadBits]
        rw [fieldBits_split c.cur.toNat (Nat.sub_le c.avail (min n c.avail)), List.append_assoc, List.drop_left' (by simp; omega)]
      have hlen2 : ({ c with avail := c.avail - min n c.avail } : BitReader).unread src = c.unread src - min n c.avail := by
        rw [← unreadBits_length, ← unreadBits_length, hdrop, List.length_drop]
      obtain ⟨v, b', hv, hadv, hval⟩ := ih (n - min n c.avail)
        ((r <<< min n c.avail) ||| ((c.cur >>> (c.avail - min n c.avail)) &&& lowMask (min n c.avail)))
        { c with avail := c.avail - min n c.avail } (by omega) (by simp; omega) (by rw [hlen2, hlen]; omega)
      have hone : Advanced src (min n c.avail) b { c with avail := c.avail - min n c.avail } :=
        { bits := by rw [hdrop, hbits], avail := by simp; omega, short := .inl (by simp; omega),
          cursor := by simp; omega, mono := hmono, inside := hin }
      refine ⟨v, b', ?_, ?_, ?_⟩
      · simp only [pullLoop, h0, if_false, hc]; exact hv
      · have := hone.trans hadv
        rwa [show min n c.avail + (n - min n c.avail) = n by omega] at this
      · have hchunk := chunk_toNat c.cur (Nat.min_le_right n c.avail) (by omega)
        have hlt : ((c.cur >>> (c.avail - min n c.avail)) &&& lowMask (min n c.avail)).toNat < 2 ^ min n c.avail := by
          rw [hchunk]
          refine Nat.lt_of_lt_of_le (natOfBits_lt _) (Nat.pow_le_pow_right (by omega) ?_)
          simp
        have htake : (unreadBits src b).take n =
            (fieldBits c.cur.toNat c.avail).take (min n c.avail) ++
              ((unreadBits src b).drop (min n c.avail)).take (n - min n c.avail) := by
          conv_lhs => rw [show n = min n c.avail + (n - min n c.avail) by omega, List.take_add]
          congr 1
          rw [← hbits, unreadBits, List.take_append_of_le_length (by simp)]
        have hl2 : (((unreadBits src b).drop (min n c.avail)).take (n - min n c.avail)).length = n - min n c.avail := by
          rw [List.length_take, List.length_drop, unreadBits_length]; omega
        rw [hval, collect_toNat _ _ hlt, hchunk, hdrop, hbits, htake, natOfBits_append, hl2]
        conv_rhs => rw [show 2 ^ n = 2 ^ min n c.avail * 2 ^ (n - min n c.avail) by rw [← Nat.pow_add]; congr 1; omega]
        rw [Nat.add_mod, Nat.mod_mul_mod, ← Nat.add_mod]
        congr 1
        ring

/-- **The reader's law (R78).** With `n` bits left, a pull answers the next `n` as a number and moves past exactly them. -/
theorem pullBits_spec (src : List Byte) {n : Nat} (b : BitReader) (hn : n ≤ 8) (h8 : b.avail ≤ 8) (h : n ≤ b.unread src) :
    ∃ v b', pullBits src n b = .ok (v, b') ∧ Advanced src n b b' ∧ v.toNat = natOfBits ((unreadBits src b).take n) := by
  obtain ⟨v, b', hv, hadv, hval⟩ := pullLoop_spec src n n 0 b (Nat.le_refl _) h8 h
  refine ⟨v, b', by rw [pullBits, if_neg (Nat.not_lt.mpr h), hv], hadv, ?_⟩
  have : natOfBits ((unreadBits src b).take n) < 2 ^ 8 :=
    Nat.lt_of_lt_of_le (natOfBits_lt _) (Nat.pow_le_pow_right (by omega) (by simp; omega))
  rw [hval, Nat.mod_eq_of_lt (by simpa using this)]; simp

/-- With fewer than `n` bits left, a pull raises DecodeUnderrun (R78). -/
theorem pullBits_underrun (src : List Byte) {n : Nat} (b : BitReader) (h : b.unread src < n) :
    pullBits src n b = .error (.raised .decodeUnderrun) := by simp [pullBits, h]

end Sys2Proof.Machine
end

