-- ==== Sys2Proof/Laws/Classifier.lean ====
section
/-! SUPPORT. The classifier: what a run of equal samples counts (R91) and what the counters keep (R19). -/

namespace Sys2Proof.Machine

theorem classifyRow_eq (row : List Byte) : classifyRow row = row.foldl sampleStep { wrun := 0, brun := 0, wbat := 0, bbat := 0 } := rfl

/-- A run of `n` white samples completes `(wrun + n) div 4` batches (R91). -/
theorem foldl_white (n : Nat) (c : Counters) (h : c.wrun < 4) :
    (List.replicate n Config.white).foldl sampleStep c =
      { wrun := (c.wrun + n) % 4, brun := if n = 0 then c.brun else 0, wbat := c.wbat + (c.wrun + n) / 4, bbat := c.bbat } := by
  induction n generalizing c with
  | zero => cases c; simp at h ⊢; omega
  | succ n ih =>
    have hs : sampleStep c Config.white = { wrun := (c.wrun + 1) % 4, brun := 0, wbat := c.wbat + (c.wrun + 1) / 4, bbat := c.bbat } := by
      rw [sampleStep, if_pos rfl, Config.batch]
      split <;> simp <;> omega
    rw [List.replicate_succ, List.foldl_cons, hs, ih _ (by simp only; omega)]
    simp; omega

/-- A run of `n` black samples completes `(brun + n) div 4` batches (R91). -/
theorem foldl_black (n : Nat) (c : Counters) (h : c.brun < 4) :
    (List.replicate n Config.black).foldl sampleStep c =
      { wrun := if n = 0 then c.wrun else 0, brun := (c.brun + n) % 4, wbat := c.wbat, bbat := c.bbat + (c.brun + n) / 4 } := by
  induction n generalizing c with
  | zero => cases c; simp at h ⊢; omega
  | succ n ih =>
    have hs : sampleStep c Config.black = { wrun := 0, brun := (c.brun + 1) % 4, wbat := c.wbat, bbat := c.bbat + (c.brun + 1) / 4 } := by
      rw [sampleStep, if_neg (by decide), if_pos rfl, Config.batch]
      split <;> simp <;> omega
    rw [List.replicate_succ, List.foldl_cons, hs, ih _ (by simp only; omega)]
    simp; omega

/-- A run of gray samples ends both runs and completes no batch (R91). -/
theorem foldl_gray (n : Nat) (x : Byte) (c : Counters) (hw : x ≠ Config.white) (hb : x ≠ Config.black) :
    (List.replicate (n + 1) x).foldl sampleStep c = { c with wrun := 0, brun := 0 } := by
  have hs : ∀ c, sampleStep c x = { c with wrun := 0, brun := 0 } := fun c => by rw [sampleStep, if_neg hw, if_neg hb]
  induction n generalizing c with
  | zero => simp [hs]
  | succ n ih => rw [List.replicate_succ, List.foldl_cons, ih, hs]

/-- What the counters keep between two samples (R19): the runs are shorter than a batch and not both begun, and every batch
completed took four samples. -/
structure Counters.Ok (seen : Nat) (c : Counters) : Prop where
  wrun  : c.wrun ≤ 3
  brun  : c.brun ≤ 3
  apart : c.wrun = 0 ∨ c.brun = 0
  count : 4 * (c.wbat + c.bbat) + c.wrun + c.brun ≤ seen

theorem sampleStep_ok {n : Nat} {c : Counters} (x : Byte) (h : c.Ok n) : (sampleStep c x).Ok (n + 1) := by
  obtain ⟨h1, h2, h3, h4⟩ := h
  unfold sampleStep Config.batch
  split
  · split <;> constructor <;> simp <;> omega
  · split
    · split <;> constructor <;> simp <;> omega
    · constructor <;> simp; omega

/-- The counters after any row keep it. -/
theorem classifyRow_ok (row : List Byte) : (classifyRow row).Ok row.length := by
  have : ∀ (row : List Byte) n c, Counters.Ok n c → (row.foldl sampleStep c).Ok (n + row.length) := by
    intro row
    induction row with
    | nil => intro n c h; exact h
    | cons x xs ih =>
      intro n c h
      have := ih _ _ (sampleStep_ok x h)
      rwa [Nat.add_assoc, Nat.add_comm 1] at this
  have := this row 0 { wrun := 0, brun := 0, wbat := 0, bbat := 0 } ⟨by simp, by simp, .inl rfl, by simp⟩
  rwa [Nat.zero_add] at this

/-- The runs' law (R91): after runs of equal samples, neighbouring runs different, the batches counted are those of each run
by itself. -/
theorem foldl_runs (runs : List (Byte × Nat)) (c : Counters) (hc : runs.IsChain fun p q => p.1 ≠ q.1)
    (hp : ∀ p ∈ runs, 0 < p.2) (hw : c.wrun < 4) (hb : c.brun < 4)
    (hw0 : ∀ p, runs.head? = some p → p.1 = Config.white → c.wrun = 0)
    (hb0 : ∀ p, runs.head? = some p → p.1 = Config.black → c.brun = 0) :
    ((rowOfRuns runs).foldl sampleStep c).wbat + ((rowOfRuns runs).foldl sampleStep c).bbat =
      c.wbat + c.bbat + batchesOfRuns runs := by
  induction runs generalizing c with
  | nil => simp [rowOfRuns, batchesOfRuns]
  | cons p runs ih =>
    obtain ⟨x, n⟩ := p
    have hn : 0 < n := hp (x, n) (by simp)
    rw [List.isChain_cons] at hc
    have hp' : ∀ p ∈ runs, 0 < p.2 := fun q hq => hp q (by simp [hq])
    have hcons : batchesOfRuns ((x, n) :: runs) = (if x = Config.white ∨ x = Config.black then n / 4 else 0) + batchesOfRuns runs := by
      simp [batchesOfRuns]
    rw [hcons, rowOfRuns, List.flatMap_cons, List.foldl_append]
    rw [← rowOfRuns]
    by_cases h1 : x = Config.white
    · subst h1
      have h0 := hw0 _ rfl rfl
      rw [foldl_white n c hw, ih _ hc.2 hp' (by simp only; omega) (by simp only; split <;> omega)
        (fun q hq he => absurd he.symm (hc.1 q hq)) (fun q hq he => by simp; omega)]
      simp [h0]; omega
    · by_cases h2 : x = Config.black
      · subst h2
        have h0 := hb0 _ rfl rfl
        rw [foldl_black n c hb, ih _ hc.2 hp' (by simp only; split <;> omega) (by simp only; omega)
          (fun q hq he => by simp; omega) (fun q hq he => absurd he.symm (hc.1 q hq))]
        simp [h0]; omega
      · obtain ⟨m, rfl⟩ : ∃ m, n = m + 1 := ⟨n - 1, by omega⟩
        rw [foldl_gray m x c h1 h2, ih _ hc.2 hp' (by simp) (by simp) (fun _ _ _ => rfl) (fun _ _ _ => rfl)]
        simp [h1, h2]

end Sys2Proof.Machine
end

