-- ==== Sys2Proof/Laws/Memory.lean ====
section
/-! SUPPORT. The two buffers as memory: their cells stand in the canonical form whatever is appended or replaced, equal
cells are equal buffers, a read of one byte is a read of its cell, and an append leaves every byte below it alone. -/

namespace Sys2Proof.Machine

/-- The canonical form holds of every buffer, so every operation that leaves a buffer keeps it. -/
theorem Memory.cells_wf (base : Nat) (buf : List Byte) : Memory.wf base (Memory.cells base buf) = true := by
  induction buf generalizing base with
  | nil => rfl
  | cons x xs ih => simp [Memory.cells, Memory.wf, ih]

/-- Both buffers of every state are in the canonical form, those after reset among them. -/
theorem State.buffers_wf (s : State) :
    Memory.wf 0 (Memory.cells 0 s.src) = true ∧ Memory.wf 0 (Memory.cells 0 s.dst) = true :=
  ⟨Memory.cells_wf 0 s.src, Memory.cells_wf 0 s.dst⟩

/-- After reset nothing is listed. -/
theorem State.reset_cells : Memory.cells 0 State.reset.src = [] ∧ Memory.cells 0 State.reset.dst = [] := ⟨rfl, rfl⟩

/-- Equal memories are equal data. -/
theorem Memory.cells_injective {base : Nat} {a b : List Byte} (h : Memory.cells base a = Memory.cells base b) : a = b := by
  induction a generalizing base b with
  | nil => cases b <;> simp_all [Memory.cells]
  | cons x xs ih =>
    cases b with
    | nil => simp [Memory.cells] at h
    | cons y ys =>
      simp only [Memory.cells, List.cons.injEq, Prod.mk.injEq, true_and] at h
      rw [h.1, ih h.2]

/-- A cell is listed exactly where the buffer holds its byte. -/
theorem Memory.mem_cells {base : Nat} {buf : List Byte} {a : Nat} {x : Byte} :
    (a, x) ∈ Memory.cells base buf ↔ base ≤ a ∧ buf[a - base]? = some x := by
  induction buf generalizing base with
  | nil => simp [Memory.cells]
  | cons y ys ih =>
    rw [Memory.cells, List.mem_cons, ih, Prod.mk.injEq]
    constructor
    · rintro (⟨rfl, rfl⟩ | ⟨h1, h2⟩)
      · simp
      · refine ⟨by omega, ?_⟩
        rw [show a - base = a - (base + 1) + 1 by omega, List.getElem?_cons_succ, h2]
    · rintro ⟨h1, h2⟩
      by_cases h : a = base
      · subst h; simp at h2; exact .inl ⟨rfl, h2.symm⟩
      · refine .inr ⟨by omega, ?_⟩
        rwa [show a - base = a - (base + 1) + 1 by omega, List.getElem?_cons_succ] at h2

/-- Reading one byte is reading its cell; an address that is not listed does not exist. -/
theorem memByte_eq_ok {buf : List Byte} {i : Nat} {x : Byte} : memByte buf i = .ok x ↔ (i, x) ∈ Memory.cells 0 buf := by
  rw [Memory.mem_cells, Nat.sub_zero, memByte]
  cases buf[i]? <;> simp

/-- An append leaves every byte below the old length as it was (R37). -/
theorem memByte_append {buf out : List Byte} {i : Nat} (h : i < buf.length) : memByte (buf ++ out) i = memByte buf i := by
  simp [memByte, List.getElem?_append_left h]

/-- A read inside the buffer answers its bytes; this is the only way it can be asked for (R16). -/
theorem memRead_eq_ok {buf : List Byte} {i n : Nat} (h : i + n ≤ buf.length) : memRead buf i n = .ok ((buf.drop i).take n) := by
  rw [memRead, if_pos h]

end Sys2Proof.Machine
end

