-- ==== Sys2Proof/Laws/Symbols.lean ====
section
/-! SUPPORT. Reading a symbol: the decoder on bits, and the fetch that finds what the decoder reads (R54, R116). -/

namespace Sys2Proof
open Machine

/-! ### Samples -/

theorem takeSample_byte (x : Byte) (rest : Bits) : takeSample (bitsOfByte x ++ rest) = some (x, rest) := by
  rw [takeSample, if_pos (by simp), List.take_left' (by simp), List.drop_left' (by simp), byteOfBits_bitsOfByte]

theorem takeSamples_bytes (xs : List Byte) (rest : Bits) :
    takeSamples xs.length (bitsOfBytes xs ++ rest) = some (xs, rest) := by
  induction xs with
  | nil => rfl
  | cons x xs ih => simp [takeSamples, takeSample_byte, ih]

theorem takeSamples_some {k : Nat} {bits rest : Bits} {xs : List Byte} (h : takeSamples k bits = some (xs, rest)) :
    bits = bitsOfBytes xs ++ rest ∧ xs.length = k := by
  induction k generalizing bits xs with
  | zero => simp only [takeSamples, Option.some.injEq, Prod.mk.injEq] at h; obtain ⟨rfl, rfl⟩ := h; simp
  | succ k ih =>
    rw [takeSamples, takeSample] at h
    split at h
    · cases h
    · rename_i s r hs
      split at hs
      · rename_i h8
        simp only [Option.some.injEq, Prod.mk.injEq] at hs
        obtain ⟨rfl, rfl⟩ := hs
        split at h
        · cases h
        · rename_i ss r hss
          simp only [Option.some.injEq, Prod.mk.injEq] at h
          obtain ⟨rfl, rfl⟩ := h
          obtain ⟨h1, h2⟩ := ih hss
          refine ⟨?_, by simp [h2]⟩
          rw [bitsOfBytes_cons, bitsOfByte_byteOfBits (by simp [h8]), List.append_assoc, ← h1, List.take_append_drop]
      · cases hs

theorem takeSamples_none {k : Nat} {bits : Bits} : takeSamples k bits = none ↔ bits.length < 8 * k := by
  induction k generalizing bits with
  | zero => simp [takeSamples]
  | succ k ih =>
    rw [takeSamples, takeSample]
    by_cases h8 : 8 ≤ bits.length
    · simp only [h8, if_true]
      have := @ih (bits.drop 8)
      rw [List.length_drop] at this
      cases hs : takeSamples k (bits.drop 8) with
      | none => simp only [true_iff]; have := this.mp hs; omega
      | some p => simp only [reduceCtorEq, false_iff]; intro hl; rw [this.mpr (by omega)] at hs; cases hs
    · simp only [h8, if_false, true_iff]; omega

/-! ### Literals -/

theorem literalOf_isSome (xs : List Byte) (h1 : 1 ≤ xs.length) (h4 : xs.length ≤ 4) : ∃ i, literalOf xs = some i := by
  match xs, h1, h4 with
  | [a], _, _ => exact ⟨_, rfl⟩
  | [a, b], _, _ => exact ⟨_, rfl⟩
  | [a, b, c], _, _ => exact ⟨_, rfl⟩
  | [a, b, c, d], _, _ => exact ⟨_, rfl⟩
  | _ :: _ :: _ :: _ :: _ :: _, _, h => simp at h; omega

theorem literalOf_facts {xs : List Byte} {i : Instr} (h : literalOf xs = some i) (k : Nat) :
    symbolBits i = true :: true :: bitsOfBytes xs ∧ samplesOf k i = xs ∧ i.fitsWindow xs.length = true ∧
      1 ≤ xs.length ∧ xs.length ≤ 4 := by
  match xs, h with
  | [a], h => cases h; exact ⟨rfl, rfl, rfl, by simp, by simp⟩
  | [a, b], h => cases h; exact ⟨rfl, rfl, rfl, by simp, by simp⟩
  | [a, b, c], h => cases h; exact ⟨rfl, rfl, rfl, by simp, by simp⟩
  | [a, b, c, d], h => cases h; exact ⟨rfl, rfl, rfl, by simp, by simp⟩

/-! ### The symbol decoder -/

/-- What reading a symbol can answer: the symbol whose bits stand at the front, which fits the window. -/
theorem decodeSymbol_ok {k : Nat} {bits rest : Bits} {i : Instr} (h : decodeSymbol k bits = .ok (i, rest)) :
    bits = symbolBits i ++ rest ∧ i.fitsWindow k = true ∧ (samplesOf k i).length = k ∧ 1 ≤ k ∧ k ≤ 4 := by
  unfold decodeSymbol at h
  split at h
  · rename_i hk
    simp only [Config.batch] at hk
    split at h
    · cases h
    · cases h; exact ⟨rfl, decide_eq_true hk, by simp [samplesOf], hk.1, hk.2⟩
    · cases h
    · cases h; exact ⟨rfl, decide_eq_true hk, by simp [samplesOf], hk.1, hk.2⟩
    · split at h
      · cases h
      · rename_i xs r hxs
        split at h
        · cases h
        · rename_i j hj
          cases h
          obtain ⟨hb, hl⟩ := takeSamples_some hxs
          obtain ⟨h1, h2, h3, -, -⟩ := literalOf_facts hj k
          rw [h1, h2, hb]
          exact ⟨by simp, by rw [← hl]; exact h3, hl, hk.1, hk.2⟩
  · cases h

/-- Reading a symbol fails on a window of 1 to 4 only where the stream ends inside the symbol. -/
theorem decodeSymbol_error {k : Nat} {bits : Bits} {r : Reject} (hk : 1 ≤ k ∧ k ≤ 4) (h : decodeSymbol k bits = .error r) :
    r = .shortSymbol ∧ (bits = [] ∨ bits = [true] ∨ ∃ rest, bits = true :: true :: rest ∧ rest.length < 8 * k) := by
  unfold decodeSymbol at h
  rw [if_pos (by simpa [Config.batch] using hk)] at h
  split at h
  · cases h; exact ⟨rfl, .inl rfl⟩
  · cases h
  · cases h; exact ⟨rfl, .inr (.inl rfl)⟩
  · cases h
  · rename_i rest
    split at h
    · rename_i hn
      cases h
      exact ⟨rfl, .inr (.inr ⟨rest, rfl, takeSamples_none.mp hn⟩)⟩
    · rename_i xs r' hxs
      obtain ⟨-, hl⟩ := takeSamples_some hxs
      obtain ⟨i, hi⟩ := literalOf_isSome xs (by omega) (by omega)
      rw [hi] at h
      cases h

theorem decodeSymbol_white {k : Nat} (hk : 1 ≤ k ∧ k ≤ 4) (rest : Bits) :
    decodeSymbol k (false :: rest) = .ok (.white, rest) := by
  rw [decodeSymbol, if_pos (by simpa [Config.batch] using hk)]

theorem decodeSymbol_black {k : Nat} (hk : 1 ≤ k ∧ k ≤ 4) (rest : Bits) :
    decodeSymbol k (true :: false :: rest) = .ok (.black, rest) := by
  rw [decodeSymbol, if_pos (by simpa [Config.batch] using hk)]

theorem decodeSymbol_literal {xs : List Byte} {i : Instr} (h : literalOf xs = some i) (rest : Bits) :
    decodeSymbol xs.length (true :: true :: (bitsOfBytes xs ++ rest)) = .ok (i, rest) := by
  obtain ⟨-, -, -, h1, h4⟩ := literalOf_facts h 0
  rw [decodeSymbol, if_pos (by simpa [Config.batch] using ⟨h1, h4⟩)]
  simp [takeSamples_bytes, h]

end Sys2Proof

namespace Sys2Proof.Machine

theorem pullSamples_spec (src : List Byte) (k : Nat) (b : BitReader) (h8 : b.avail ≤ 8) :
    match takeSamples k (unreadBits src b) with
    | some (xs, _) => ∃ b', pullSamples src k b = .ok (xs, b') ∧ Advanced src (8 * k) b b'
    | none => pullSamples src k b = .error (.raised .decodeUnderrun) := by
  induction k generalizing b with
  | zero => exact ⟨b, rfl, .refl h8⟩
  | succ k ih =>
    simp only [takeSamples, takeSample]
    by_cases hl : 8 ≤ (unreadBits src b).length
    · obtain ⟨v, c, hv, hadv, hval⟩ := pullBits_spec src b (Nat.le_refl 8) h8 (by rwa [← unreadBits_length])
      have hx : v = byteOfBits ((unreadBits src b).take 8) := by
        apply BitVec.eq_of_toNat_eq
        rw [hval, byteOfBits, BitVec.toNat_ofNat, Nat.mod_eq_of_lt]
        refine Nat.lt_of_lt_of_le (natOfBits_lt _) (Nat.pow_le_pow_right (by omega) (by simp))
      have := ih c hadv.avail
      rw [hadv.bits] at this
      simp only [hl, if_true, pullSamples, hv]
      revert this
      cases takeSamples k ((unreadBits src b).drop 8) with
      | none => intro h; simp [h]
      | some p =>
        rintro ⟨b', hb', hadv'⟩
        refine ⟨b', by simp [hb', hx], ?_⟩
        rw [show 8 * (k + 1) = 8 + 8 * k by omega]
        exact hadv.trans hadv'
    · simp only [hl, if_false]
      rw [pullSamples, pullBits_underrun src b (by rw [← unreadBits_length]; omega)]

theorem fieldHead {v : Byte} {b : Bool} (h : v.toNat = natOfBits [b]) : (v = 0) ↔ b = false := by
  rw [← BitVec.toNat_inj, h]
  cases b <;> simp [natOfBits]

/-- One bit pulled off a stream whose first bit is `b`. -/
theorem pullBit_spec (src : List Byte) (r : BitReader) (h8 : r.avail ≤ 8) {b : Bool} {rest : Bits}
    (h : unreadBits src r = b :: rest) :
    ∃ v r', pullBits src 1 r = .ok (v, r') ∧ Advanced src 1 r r' ∧ (v = 0 ↔ b = false) ∧ unreadBits src r' = rest := by
  obtain ⟨v, r', hv, hadv, hval⟩ := pullBits_spec src r (by omega) h8
    (show 1 ≤ r.unread src by rw [← unreadBits_length, h]; simp)
  refine ⟨v, r', hv, hadv, fieldHead (by rw [hval, h]; rfl), by rw [hadv.bits, h]; rfl⟩

/-- **The fetch is the decoder (R116, R79).** Pulling a symbol bit by bit finds what the decoder reads off the unread bits,
and moves past exactly its bits; where the stream ends inside the symbol it raises DecodeUnderrun (R122). -/
theorem fetchSymbol_spec (src : List Byte) {k : Nat} (b : BitReader) (hk : 1 ≤ k ∧ k ≤ 4) (h8 : b.avail ≤ 8) :
    match decodeSymbol k (unreadBits src b) with
    | .ok (i, _) => ∃ b', fetchSymbol src k b = .ok (i, b') ∧ Advanced src (symbolBits i).length b b'
    | .error _ => fetchSymbol src k b = .error (.raised .decodeUnderrun) := by
  cases hu : unreadBits src b with
  | nil =>
    have : pullBits src 1 b = .error (.raised .decodeUnderrun) := pullBits_underrun src b (by rw [← unreadBits_length, hu]; simp)
    simp [decodeSymbol, Config.batch, hk, fetchSymbol, fetchBits, this]
  | cons b0 u1 =>
    obtain ⟨v0, c, hv0, hadv0, hz0, hu1⟩ := pullBit_spec src b h8 hu
    cases b0 with
    | false =>
      rw [decodeSymbol_white hk]
      refine ⟨c, ?_, hadv0⟩
      have hw := decodeSymbol_white hk []
      simp [fetchSymbol, fetchBits, hv0, hz0.mpr rfl, decode, hw]
    | true =>
      have hv0' : v0 ≠ 0#8 := fun h => by simpa using hz0.mp h
      cases u1 with
      | nil =>
        have : pullBits src 1 c = .error (.raised .decodeUnderrun) := pullBits_underrun src c (by rw [← unreadBits_length, hu1]; simp)
        simp [decodeSymbol, Config.batch, hk, fetchSymbol, fetchBits, hv0, hv0', this]
      | cons b1 u2 =>
        obtain ⟨v1, d, hv1, hadv1, hz1, hu2⟩ := pullBit_spec src c hadv0.avail hu1
        have h02 : Advanced src 2 b d := hadv0.trans hadv1
        cases b1 with
        | false =>
          rw [decodeSymbol_black hk]
          refine ⟨d, ?_, h02⟩
          have hw := decodeSymbol_black hk []
          simp [fetchSymbol, fetchBits, hv0, hv0', hv1, hz1.mpr rfl, decode, hw]
        | true =>
          have hv1' : v1 ≠ 0#8 := fun h => by simpa using hz1.mp h
          have hs := pullSamples_spec src k d hadv1.avail
          rw [hu2] at hs
          simp only [decodeSymbol, Config.batch, hk, and_self, if_true]
          cases ht : takeSamples k u2 with
          | none =>
            rw [ht] at hs
            simp only at hs ⊢
            simp [fetchSymbol, fetchBits, hv0, hv0', hv1, hv1', hs]
          | some p =>
            obtain ⟨xs, rest⟩ := p
            rw [ht] at hs
            obtain ⟨b', hb', hadv⟩ := hs
            obtain ⟨-, hl⟩ := takeSamples_some ht
            obtain ⟨i, hi⟩ := literalOf_isSome xs (by omega) (by omega)
            obtain ⟨hsym, -⟩ := literalOf_facts hi k
            simp only [hi]
            refine ⟨b', ?_, ?_⟩
            · have hd := decodeSymbol_literal hi []
              rw [hl, List.append_nil] at hd
              simp [fetchSymbol, fetchBits, hv0, hv0', hv1, hv1', hb', decode, hd]
            · rw [hsym, List.length_cons, List.length_cons, bitsOfBytes_length, hl, show 8 * k + 1 + 1 = 2 + 8 * k by omega]
              exact h02.trans hadv

end Sys2Proof.Machine
end

