-- ==== Sys2Proof/Laws/RowDecoder.lean ====
section
/-! SUPPORT. The row decoder: its symbol steps read the row's windows off the unread bits (R115, R120, R122). -/

namespace Sys2Proof.Machine

/-! ### The decoder -/

theorem rowWindows_zero : rowWindows 0 = [] := rfl

theorem rowWindows_pos {w : Nat} (h : 0 < w) : rowWindows w = min 4 w :: rowWindows (w - 4) := by
  unfold rowWindows
  by_cases h4 : w < 4
  · have h1 : w / 4 = 0 := by omega
    have h2 : w % 4 = w := by omega
    have h3 : w - 4 = 0 := by omega
    have h5 : w ≠ 0 := by omega
    have h6 : min 4 w = w := by omega
    simp [h1, h2, h3, h5, h6]
  · have h1 : w / 4 = (w - 4) / 4 + 1 := by omega
    have h2 : (w - 4) % 4 = w % 4 := by omega
    have h6 : min 4 w = 4 := by omega
    rw [h1, h2, h6, List.replicate_succ, List.cons_append]

/-- A symbol that fits the window emits the samples it stands for (R117 to R119). -/
theorem symbolBody_fits (i : Instr) (s : State) (h : i.fitsWindow s.windowSize = true) :
    symbolBody i s = .ok (s.produce (samplesOf s.windowSize i)) := by
  cases i <;> simp_all [Instr.fitsWindow, symbolBody, whiteBody, blackBody, lit1Body, lit2Body, lit3Body, lit4Body,
    runBody, literalBody, samplesOf] <;> omega

/-- **The row decoder (R115, R116, R120).** In an open row the symbol steps read the row's windows off the unread bits: if
the decoder finds a symbol for each, their samples are produced and exactly their bits consumed; if the stream ends before
that, DecodeUnderrun is raised (R122). -/
theorem decodeSymbols_spec (src : List Byte) (fuel : Nat) (s : State) (hf : s.rem ≤ 4 * fuel) (hp : s.phase = .decoding)
    (h8 : s.reader.avail ≤ 8) :
    match decodeMany (rowWindows s.rem) (unreadBits src s.reader) with
    | .ok (is, rest) => ∃ b', decodeSymbols src fuel s =
          .ok { s with reader := b', dst := s.dst ++ samplesOfRow (rowWindows s.rem) is, rem := 0 } ∧
        Advanced src (is.flatMap symbolBits).length s.reader b' ∧ unreadBits src b' = rest ∧
        (samplesOfRow (rowWindows s.rem) is).length = s.rem
    | .error _ => decodeSymbols src fuel s = .error (.raised .decodeUnderrun) := by
  induction fuel generalizing s with
  | zero =>
    have h0 : s.rem = 0 := by omega
    rw [h0, rowWindows_zero]
    exact ⟨s.reader, by simp [decodeSymbols, samplesOfRow, ← h0], .refl h8, rfl, rfl⟩
  | succ fuel ih =>
    by_cases h0 : s.rem = 0
    · rw [h0, rowWindows_zero]
      exact ⟨s.reader, by simp [decodeSymbols, samplesOfRow, ← h0], .refl h8, rfl, rfl⟩
    · have hw : s.windowSize = min 4 s.rem := by simp [State.windowSize, hp, Config.batch]
      have hk : 1 ≤ s.windowSize ∧ s.windowSize ≤ 4 := by rw [hw]; omega
      have hfetch := fetchSymbol_spec src s.reader hk h8
      rw [rowWindows_pos (by omega), ← hw]
      simp only [decodeMany]
      cases hd : decodeSymbol s.windowSize (unreadBits src s.reader) with
      | error r =>
        rw [hd] at hfetch
        simp only at hfetch ⊢
        simp [decodeSymbols, h0, hfetch]
      | ok p =>
        obtain ⟨i, rest⟩ := p
        rw [hd] at hfetch
        obtain ⟨b, hb, hadv⟩ := hfetch
        obtain ⟨hbits, hfit, hlen, -, -⟩ := decodeSymbol_ok hd
        have hrest : unreadBits src b = rest := by
          rw [hadv.bits, hbits, List.drop_left' rfl]
        have hbody : symbolBody i { s with reader := b } =
            .ok ({ s with reader := b }.produce (samplesOf s.windowSize i)) := symbolBody_fits i { s with reader := b } hfit
        have hrem : ({ s with reader := b }.produce (samplesOf s.windowSize i)).rem = s.rem - 4 := by
          have : ({ s with reader := b }.produce (samplesOf s.windowSize i)).rem = s.rem - (samplesOf s.windowSize i).length := rfl
          rw [this, hlen, hw]; omega
        have hnext := ih ({ s with reader := b }.produce (samplesOf s.windowSize i)) (by rw [hrem]; omega) hp hadv.avail
        rw [hrem] at hnext
        have hread : ({ s with reader := b }.produce (samplesOf s.windowSize i)).reader = b := rfl
        rw [hread, hrest] at hnext
        have hrun : decodeSymbols src (fuel + 1) s =
            decodeSymbols src fuel ({ s with reader := b }.produce (samplesOf s.windowSize i)) := by
          simp only [decodeSymbols, h0, if_false, hb, hbody]
        simp only
        cases hm : decodeMany (rowWindows (s.rem - 4)) rest with
        | error r =>
          rw [hm] at hnext
          simp only at hnext ⊢
          rw [hrun, hnext]
        | ok q =>
          obtain ⟨is, rest'⟩ := q
          rw [hm] at hnext
          obtain ⟨b', hb', hadv', hrest', hl'⟩ := hnext
          refine ⟨b', ?_, ?_, hrest', ?_⟩
          · rw [hrun, hb']
            simp [State.produce, samplesOfRow]
          · rw [List.flatMap_cons, List.length_append]
            exact hadv.trans hadv'
          · rw [samplesOfRow, List.zip_cons_cons, List.flatMap_cons, List.length_append, hlen]
            rw [samplesOfRow] at hl'
            rw [hl', hw]; omega

/-! ### Many symbols -/

/-- A symbol read off a stream is read off any longer one. -/
theorem decodeSymbol_append {k : Nat} {bits rest : Bits} {i : Instr} (h : decodeSymbol k bits = .ok (i, rest))
    (extra : Bits) : decodeSymbol k (bits ++ extra) = .ok (i, rest ++ extra) := by
  unfold decodeSymbol at h ⊢
  split at h
  · rename_i hk
    rw [if_pos hk]
    split at h
    · cases h
    · cases h; rfl
    · cases h
    · cases h; rfl
    · split at h
      · cases h
      · rename_i xs r hxs
        split at h
        · cases h
        · rename_i j hj
          cases h
          obtain ⟨rfl, hl⟩ := takeSamples_some hxs
          simp only [List.cons_append, List.append_assoc]
          rw [← hl, takeSamples_bytes]
          simp [hj]
  · cases h

/-- What many symbols are read as: as many as there are windows, their bits stand at the front. -/
theorem decodeMany_ok {ks : List Nat} {bits rest : Bits} {is : List Instr} (h : decodeMany ks bits = .ok (is, rest)) :
    bits = is.flatMap symbolBits ++ rest ∧ is.length = ks.length ∧ (samplesOfRow ks is).length = ks.sum := by
  induction ks generalizing bits is with
  | nil => cases h; simp [samplesOfRow]
  | cons k ks ih =>
    simp only [decodeMany] at h
    split at h
    · cases h
    · rename_i i r hi
      split at h
      · cases h
      · rename_i is' r' his
        cases h
        obtain ⟨hb, -, hl, -, -⟩ := decodeSymbol_ok hi
        obtain ⟨hb', hl', hs'⟩ := ih his
        refine ⟨by rw [hb, hb']; simp, by simp [hl'], ?_⟩
        simp only [samplesOfRow] at hs' ⊢
        rw [List.zip_cons_cons, List.flatMap_cons, List.length_append, hl, hs', List.sum_cons]

theorem decodeMany_append {ks : List Nat} {bits rest : Bits} {is : List Instr} (h : decodeMany ks bits = .ok (is, rest))
    (extra : Bits) : decodeMany ks (bits ++ extra) = .ok (is, rest ++ extra) := by
  induction ks generalizing bits is with
  | nil => cases h; rfl
  | cons k ks ih =>
    simp only [decodeMany] at h ⊢
    split at h
    · cases h
    · rename_i i r hi
      split at h
      · cases h
      · rename_i is' r' his
        cases h
        simp only [decodeSymbol_append hi extra, ih his]

/-- A symbol is read off its own bits, whatever follows them. -/
theorem decodeSymbol_prefix {k : Nat} {bits rest : Bits} {i : Instr} (h : decodeSymbol k bits = .ok (i, rest)) (extra : Bits) :
    decodeSymbol k (symbolBits i ++ extra) = .ok (i, extra) := by
  obtain ⟨hb, -⟩ := decodeSymbol_ok h
  have h0 : decodeSymbol k (symbolBits i) = .ok (i, []) := by
    unfold decodeSymbol at h ⊢
    split at h
    · rename_i hk
      rw [if_pos hk]
      split at h
      · cases h
      · cases h; rfl
      · cases h
      · cases h; rfl
      · split at h
        · cases h
        · rename_i xs r hxs
          split at h
          · cases h
          · rename_i j hj
            obtain ⟨rfl, rfl⟩ : j = i ∧ r = rest := by simpa using h
            obtain ⟨rfl, hl⟩ := takeSamples_some hxs
            have hbits : symbolBits j = true :: true :: bitsOfBytes xs :=
              (List.append_cancel_right (by rw [← hb]; simp)).symm
            have ht := takeSamples_bytes xs []
            rw [List.append_nil, hl] at ht
            simp only [hbits, ht, hj]
    · cases h
  exact decodeSymbol_append h0 extra

/-- A row is read off the bits of its symbols, whatever follows them (R124). -/
theorem decodeMany_prefix {ks : List Nat} {bits rest : Bits} {is : List Instr} (h : decodeMany ks bits = .ok (is, rest))
    (extra : Bits) : decodeMany ks (is.flatMap symbolBits ++ extra) = .ok (is, extra) := by
  induction ks generalizing bits is with
  | nil => cases h; rfl
  | cons k ks ih =>
    simp only [decodeMany] at h ⊢
    split at h
    · cases h
    · rename_i i r hi
      split at h
      · cases h
      · rename_i is' r' his
        cases h
        rw [List.flatMap_cons, List.append_assoc]
        simp only [decodeSymbol_prefix hi, ih his]

theorem rowWindows_sum (w : Nat) : (rowWindows w).sum = w := by
  induction hn : w using Nat.strongRecOn generalizing w with
  | ind n ih =>
    subst hn
    by_cases h : w = 0
    · subst h; rfl
    · rw [rowWindows_pos (by omega), List.sum_cons, ih (w - 4) (by omega) _ rfl]; omega

theorem rowWindows_length (w : Nat) : (rowWindows w).length = ceilDiv w 4 := by
  rw [rowWindows, List.length_append, List.length_replicate, ceilDiv]
  split <;> simp <;> omega

theorem rowWindows_bounds {w k : Nat} (h : k ∈ rowWindows w) : 1 ≤ k ∧ k ≤ 4 := by
  rw [rowWindows, List.mem_append, List.mem_replicate] at h
  rcases h with ⟨-, rfl⟩ | h
  · omega
  · split at h <;> simp at h; omega

/-- Every symbol has at least one bit, so a row has at least one bit a window (R126). -/
theorem symbolBits_pos {k : Nat} {bits rest : Bits} {i : Instr} (h : decodeSymbol k bits = .ok (i, rest)) :
    1 ≤ (symbolBits i).length := by
  obtain ⟨-, hf, -⟩ := decodeSymbol_ok h
  cases i <;> simp_all [Instr.fitsWindow, symbolBits, encode]

theorem decodeMany_length {ks : List Nat} {bits rest : Bits} {is : List Instr} (h : decodeMany ks bits = .ok (is, rest)) :
    ks.length ≤ (is.flatMap symbolBits).length := by
  induction ks generalizing bits is with
  | nil => simp
  | cons k ks ih =>
    simp only [decodeMany] at h
    split at h
    · cases h
    · rename_i i r hi
      split at h
      · cases h
      · rename_i is' r' his
        cases h
        have := symbolBits_pos hi
        have := ih his
        simp only [List.flatMap_cons, List.length_append, List.length_cons]; omega

/-- **The row decoder on a packed buffer.** It answers what the decoder reads off the buffer's bits, with the cursor behind
the last symbol, so `rd_pos` counts the bytes of which a bit was consumed (R123); or it raises DecodeUnderrun (R122). -/
theorem decodeRowBody_spec (src : List Byte) (s : State) :
    match decodeMany (rowWindows s.latched.w.toNat) (bitsOfBytes src) with
    | .ok (is, rest) => ∃ b', decodeRowBody src s =
          .ok { openRow s.latched.w.toNat s with
            reader := b', dst := samplesOfRow (rowWindows s.latched.w.toNat) is, rem := 0 } ∧
        unreadBits src b' = rest ∧ b'.rdPos = ceilDiv (is.flatMap symbolBits).length 8 ∧ b'.avail ≤ 7 ∧
        b'.rdPos ≤ src.length
    | .error _ => decodeRowBody src s = .error (.raised .decodeUnderrun) := by
  have h := decodeSymbols_spec src (ceilDiv s.latched.w.toNat Config.batch) (openRow s.latched.w.toNat s)
    (by simp only [openRow_rem, ceilDiv, Config.batch]; omega) rfl (by simp [BitReader.opened])
  have hu : unreadBits src (openRow s.latched.w.toNat s).reader = bitsOfBytes src := by
    simp [BitReader.opened, unreadBits]
  rw [hu, openRow_rem] at h
  cases hd : decodeMany (rowWindows s.latched.w.toNat) (bitsOfBytes src) with
  | error r => rw [hd] at h; exact h
  | ok p =>
    obtain ⟨is, rest⟩ := p
    rw [hd] at h
    obtain ⟨b', hb, hadv, hr, -⟩ := h
    have hcur := hadv.cursor
    have hin := hadv.inside
    simp only [openRow_reader, BitReader.opened, Nat.mul_zero, Nat.zero_add, Nat.add_zero] at hcur hin
    have h7 : b'.avail ≤ 7 := by
      rcases hadv.short with h | h
      · exact h
      · rw [h]; simp [BitReader.opened]
    refine ⟨b', ?_, hr, ?_, h7, by omega⟩
    · rw [decodeRowBody]; simpa using hb
    · rw [ceilDiv]; omega

end Sys2Proof.Machine
end

