-- ==== Sys2Proof/Laws/RowEncoder.lean ====
section
/-! SUPPORT. The row encoder: it leaves the row's symbols padded to a byte (R100, R107), and they read back as the row. -/

namespace Sys2Proof.Machine

/-- `t` differs from `s` at most in the registers the encoder works on: the BitWriter, the PACK residue, DST and the
window. -/
def OnlyEncoder (s t : State) : Prop :=
  t = { s with writer := t.writer, residue := t.residue, dst := t.dst, window := t.window }

theorem OnlyEncoder.refl (s : State) : OnlyEncoder s s := rfl

theorem OnlyEncoder.trans {s t u : State} (h1 : OnlyEncoder s t) (h2 : OnlyEncoder t u) : OnlyEncoder s u := by
  unfold OnlyEncoder at *
  rw [h2, h1]

theorem OnlyEncoder.latched {s t : State} (h : OnlyEncoder s t) : t.latched = s.latched := by rw [h]

/-- `t` holds the bits `s` held and then `bits`, with its BitWriter in order. -/
structure Wrote (bits : Bits) (s t : State) : Prop where
  only    : OnlyEncoder s t
  written : writtenBits t.dst t.writer = writtenBits s.dst s.writer ++ bits
  ok      : t.writer.Ok

theorem Wrote.trans {a b : Bits} {s t u : State} (h1 : Wrote a s t) (h2 : Wrote b t u) : Wrote (a ++ b) s u where
  only := h1.only.trans h2.only
  written := by rw [h2.written, h1.written, List.append_assoc]
  ok := h2.ok

/-- A push appends its field (R73). -/
theorem pushBits_wrote (s : State) (v : Byte) {n : Nat} (hw : s.writer.Ok) (h1 : 1 ≤ n) (h8 : n ≤ 8) :
    Wrote (fieldBits v.toNat n) s (s.pushBits v n) ∧ (s.pushBits v n).window = s.window := by
  obtain ⟨hb, hok⟩ := pushRun_written s.dst s.writer v hw h1 h8
  exact ⟨{ only := rfl, written := hb, ok := hok }, rfl⟩

theorem emitWhite_wrote (s : State) (hw : s.writer.Ok) : Wrote [false] s (emitWhite s) :=
  (pushBits_wrote s 0 hw (Nat.le_refl 1) (by omega)).1

theorem emitBlack_wrote (s : State) (hw : s.writer.Ok) : Wrote [true, false] s (emitBlack s) :=
  (pushBits_wrote s 0b10 hw (show 1 ≤ 2 by omega) (by omega)).1

theorem pushSamples_wrote (xs : List Byte) (s : State) (hw : s.writer.Ok) :
    Wrote (bitsOfBytes xs) s (xs.foldl (fun t x => t.pushBits x 8) s) := by
  induction xs generalizing s with
  | nil => exact { only := rfl, written := by simp, ok := hw }
  | cons x xs ih =>
    have h := (pushBits_wrote s x hw (by omega) (Nat.le_refl 8)).1
    rw [fieldBits_byte] at h
    rw [bitsOfBytes_cons]
    exact h.trans (ih _ h.ok)

/-- The literal generator appends its prefix and exactly the samples present (R105). -/
theorem emitLit_wrote (s : State) (hw : s.writer.Ok) :
    Wrote (true :: true :: bitsOfBytes s.window.present) s (emitLit s) := by
  have h := pushBits_wrote s 0b11 hw (show 1 ≤ 2 by omega) (by omega)
  exact h.1.trans (pushSamples_wrote _ _ h.1.ok)

theorem Window.present_length (w : Window) (h : w.wcnt ≤ 4) : w.present.length = w.wcnt := by
  simp [Window.present]; omega

theorem Window.fullOf_iff (x : Byte) (w : Window) (h : w.wcnt ≤ 4) : w.fullOf x = true ↔ w.present = List.replicate 4 x := by
  rw [Window.fullOf, Bool.and_eq_true, decide_eq_true_eq, Config.batch, List.all_eq_true]
  constructor
  · rintro ⟨h4, hall⟩
    exact List.eq_replicate_iff.mpr ⟨by rw [w.present_length h, h4], fun y hy => by simpa using hall y hy⟩
  · intro he
    refine ⟨by rw [← w.present_length h, he]; rfl, fun y hy => ?_⟩
    rw [he] at hy
    simp [List.eq_of_mem_replicate hy]

/-- Selection (R102): the window's symbol is appended. -/
theorem emitWindow_wrote (s : State) (hw : s.writer.Ok) (h : s.window.wcnt ≤ 4) :
    Wrote (windowBits s.window.present) s (emitWindow s) := by
  unfold emitWindow windowBits
  by_cases h1 : s.window.fullOf Config.white
  · rw [if_pos h1, if_pos ((Window.fullOf_iff _ _ h).mp h1)]
    exact emitWhite_wrote s hw
  · rw [if_neg h1, if_neg (fun he => h1 ((Window.fullOf_iff _ _ h).mpr he))]
    by_cases h2 : s.window.fullOf Config.black
    · rw [if_pos h2, if_pos ((Window.fullOf_iff _ _ h).mp h2)]
      exact emitBlack_wrote s hw
    · rw [if_neg h2, if_neg (fun he => h2 ((Window.fullOf_iff _ _ h).mpr he))]
      exact emitLit_wrote s hw

theorem take_four (xs : List Byte) (h : xs.length ≤ 4) (a b c d : Byte) :
    [xs.getD 0 a, xs.getD 1 b, xs.getD 2 c, xs.getD 3 d].take xs.length = xs := by
  match xs, h with
  | [], _ => rfl
  | [_], _ => rfl
  | [_, _], _ => rfl
  | [_, _, _], _ => rfl
  | [_, _, _, _], _ => rfl
  | _ :: _ :: _ :: _ :: _ :: _, h => simp at h; omega

/-- Load window (R101): the samples from `col` on, four or what is left, and nothing else changes. -/
theorem loadWindow_spec (row : List Byte) (s : State) (hr : row.length = s.latched.w.toNat)
    (hc : s.window.col ≤ s.latched.w.toNat) :
    ∃ w, loadWindow row s = .ok { s with window := w } ∧ w.col = s.window.col ∧
      w.present = (row.drop s.window.col).take 4 ∧ w.wcnt ≤ 4 := by
  have hle : s.window.col + min 4 (s.latched.w.toNat - s.window.col) ≤ row.length := by omega
  have hlen : ((row.drop s.window.col).take (min 4 (s.latched.w.toNat - s.window.col))).length =
      min 4 (s.latched.w.toNat - s.window.col) := by simp; omega
  simp only [loadWindow, Config.batch, memRead, hle, if_true]
  refine ⟨_, rfl, rfl, ?_, by simp⟩
  have ht : (row.drop s.window.col).take (min 4 (s.latched.w.toNat - s.window.col)) = (row.drop s.window.col).take 4 := by
    rw [← hr, ← List.length_drop, List.take_eq_take_iff]; omega
  have := take_four ((row.drop s.window.col).take (min 4 (s.latched.w.toNat - s.window.col))) (by omega)
    s.window.win0 s.window.win1 s.window.win2 s.window.win3
  rw [hlen] at this
  rw [← ht]
  exact this

theorem rowBits_step (xs : List Byte) (h : xs ≠ []) : rowBits xs = windowBits (xs.take 4) ++ rowBits (xs.drop 4) := by
  match xs, h with
  | [], h => exact absurd rfl h
  | [a], _ => simp [rowBits]
  | [a, b], _ => simp [rowBits]
  | [a, b, c], _ => simp [rowBits]
  | a :: b :: c :: d :: rest, _ => simp [rowBits]

/-- **The encoder's loop (R100 to R106).** From column `col` on, the symbols of the remaining windows are appended. -/
theorem encodeWindows_wrote (row : List Byte) (fuel : Nat) (s : State) (hw : s.writer.Ok)
    (hr : row.length = s.latched.w.toNat) (hf : s.latched.w.toNat ≤ s.window.col + 4 * fuel) :
    ∃ t, encodeWindows row fuel s = .ok t ∧ Wrote (rowBits (row.drop s.window.col)) s t := by
  have hdone : s.latched.w.toNat ≤ s.window.col → Wrote (rowBits (row.drop s.window.col)) s s := by
    intro h
    rw [List.drop_eq_nil_of_le (by omega)]
    exact { only := rfl, written := by simp [rowBits], ok := hw }
  induction fuel generalizing s with
  | zero => exact ⟨s, rfl, hdone (by omega)⟩
  | succ fuel ih =>
    by_cases hlt : s.window.col < s.latched.w.toNat
    · obtain ⟨w, hl, hcol, hpres, hcnt⟩ := loadWindow_spec row s hr (Nat.le_of_lt hlt)
      have hem := emitWindow_wrote { s with window := w } hw hcnt
      have hlat : (emitWindow { s with window := w }).latched = s.latched := hem.only.latched
      obtain ⟨t, ht, hwr⟩ := ih { emitWindow { s with window := w } with window := { w with col := w.col + 4 } } hem.ok
        (by simp only; rw [hlat]; exact hr) (by simp only; rw [hlat, hcol]; omega)
        (by
          intro h
          simp only at h ⊢
          rw [hlat] at h
          rw [List.drop_eq_nil_of_le (by omega)]
          exact { only := rfl, written := by simp [rowBits], ok := hem.ok })
      refine ⟨t, ?_, ?_⟩
      · simp only [encodeWindows, hlt, if_true, hl]
        exact ht
      · have hne : row.drop s.window.col ≠ [] := by
          intro h; have := congrArg List.length h; simp at this; omega
        rw [rowBits_step _ hne, List.drop_drop, ← hpres]
        refine { only := ?_, written := ?_, ok := hwr.ok }
        · refine OnlyEncoder.trans ?_ hwr.only
          unfold OnlyEncoder
          conv_lhs => rw [hem.only]
        · rw [hwr.written, ← List.append_assoc]
          simp only
          rw [hem.written, hcol]
    · exact ⟨s, by simp [encodeWindows, hlt], hdone (by omega)⟩

theorem openWriter_ok : BitWriter.Ok { acc := 0, free := 8 } := by
  refine ⟨by simp, by simp, by simp⟩

/-- **The packed row (R100, R107).** The row encoder leaves in DST exactly the row's symbols padded to a byte, and the
writer empty. -/
theorem encodeRowBody_spec (row : List Byte) (s : State) (hr : row.length = s.latched.w.toNat) :
    ∃ t, encodeRowBody row s = .ok t ∧ OnlyEncoder s t ∧ bitsOfBytes t.dst = padToByte (rowBits row) ∧
      t.writer = { acc := 0, free := 8 } := by
  obtain ⟨t, ht, hwr⟩ := encodeWindows_wrote row (ceilDiv s.latched.w.toNat Config.batch)
    { s.openWriter with window := { s.window with col := 0 } } openWriter_ok hr (by
      simp only [State.openWriter, Config.batch, ceilDiv]; omega)
  obtain ⟨hb, hfl⟩ := flush_written t.dst t.writer hwr.ok
  refine ⟨t.flushBits, by rw [encodeRowBody, ht], ?_, ?_, hfl⟩
  · have : OnlyEncoder t t.flushBits := rfl
    refine OnlyEncoder.trans ?_ (hwr.only.trans this)
    rfl
  · have : t.flushBits.dst = t.dst ++ flushOut t.writer := rfl
    rw [this, hb, hwr.written]
    simp [State.openWriter, writtenBits]

/-! ### The round trip on bits -/

theorem decodeSymbol_window (xs : List Byte) (h1 : 1 ≤ xs.length) (h4 : xs.length ≤ 4) (rest : Bits) :
    ∃ i, decodeSymbol xs.length (windowBits xs ++ rest) = .ok (i, rest) ∧ samplesOf xs.length i = xs ∧
      symbolBits i = windowBits xs := by
  unfold windowBits
  split
  · rename_i h; subst h
    exact ⟨.white, decodeSymbol_white (by simp) _, rfl, rfl⟩
  · split
    · rename_i h; subst h
      exact ⟨.black, decodeSymbol_black (by simp) _, rfl, rfl⟩
    · obtain ⟨i, hi⟩ := literalOf_isSome xs h1 h4
      obtain ⟨hs, hsm, -⟩ := literalOf_facts hi xs.length
      exact ⟨i, by simpa using decodeSymbol_literal hi rest, hsm, hs⟩

/-- The windows of a row read back from its symbols give the row. -/
theorem decodeMany_rowBits (row : List Byte) (rest : Bits) :
    ∃ is, decodeMany (rowWindows row.length) (rowBits row ++ rest) = .ok (is, rest) ∧
      samplesOfRow (rowWindows row.length) is = row ∧ is.flatMap symbolBits = rowBits row := by
  induction hn : row.length using Nat.strongRecOn generalizing row with
  | ind n ih =>
    subst hn
    by_cases h0 : row = []
    · subst h0; exact ⟨[], rfl, rfl, rfl⟩
    · have hl : 0 < row.length := List.length_pos_iff.mpr h0
      obtain ⟨i, hi, hs, hb⟩ := decodeSymbol_window (row.take 4) (by simp; omega) (by simp) (rowBits (row.drop 4) ++ rest)
      obtain ⟨is, his, hss, hbb⟩ := ih (row.length - 4) (by omega) (row.drop 4) (by simp)
      rw [rowWindows_pos hl, rowBits_step row h0]
      rw [List.length_take] at hi hs
      refine ⟨i :: is, ?_, ?_, ?_⟩
      · simp only [decodeMany, List.append_assoc, hi, his]
      · simp only [samplesOfRow] at hss ⊢
        rw [List.zip_cons_cons, List.flatMap_cons, hs, hss, List.take_append_drop]
      · rw [List.flatMap_cons, hb, hbb]

end Sys2Proof.Machine
end

