-- ==== Sys2Proof/Laws/Pipeline.lean ====
section
/-! SUPPORT. The rows of ENCODE_IMAGE and of DECODE_IMAGE: what they answer, as functions of the lines alone, and all they
can change (R131, R134). -/

namespace Sys2Proof.Machine

theorem OnlyEncoder.pipeline {s t : State} (h : OnlyEncoder s t) : t.pipeline = s.pipeline := by rw [h]

/-! ### ENCODE_IMAGE -/

/-- `t` differs from `s` at most in the registers ENCODE_IMAGE's rows work on. -/
def OnlyImageEncoder (s t : State) : Prop :=
  t = { s with writer := t.writer, residue := t.residue, counters := t.counters, window := t.window, dst := t.dst,
               pipeline := { s.pipeline with row := t.pipeline.row, flags := t.pipeline.flags, lines := t.pipeline.lines } }

theorem OnlyImageEncoder.refl (s : State) : OnlyImageEncoder s s := rfl

theorem OnlyImageEncoder.trans {s t u : State} (h1 : OnlyImageEncoder s t) (h2 : OnlyImageEncoder t u) :
    OnlyImageEncoder s u := by
  unfold OnlyImageEncoder at *
  rw [h2, h1]

theorem OnlyImageEncoder.latched {s t : State} (h : OnlyImageEncoder s t) : t.latched = s.latched := by rw [h]

/-- A line stands for its row as ENCODE_IMAGE makes it (R131): packed where the row is marked, otherwise the row itself. -/
def EncodedLine (row line : List Byte) : Prop :=
  if (classifyRow row).verdict then bitsOfBytes line = padToByte (rowBits row) else line = row

/-- One row of ENCODE_IMAGE appends its flag and its line (R131, R133). -/
theorem encodeImageRow_spec (row : List Byte) (s : State) (h : row.length = s.latched.w.toNat) :
    ∃ t line, encodeImageRow row s = .ok t ∧ EncodedLine row line ∧ OnlyImageEncoder s t ∧
      t.pipeline.flags = s.pipeline.flags ++ [(classifyRow row).verdict] ∧ t.pipeline.lines = s.pipeline.lines ++ [line] ∧
      (t.writer = s.writer ∨ t.writer = { acc := 0, free := 8 }) ∧ t.counters = classifyRow row := by
  unfold encodeImageRow EncodedLine
  simp only
  by_cases hv : (classifyRow row).verdict = true
  · simp only [hv, if_true]
    obtain ⟨t, ht, honly, hb, hwr⟩ := encodeRowBody_spec row { s with counters := classifyRow row } h
    rw [ht]
    refine ⟨_, t.dst, rfl, hb, ?_, ?_, ?_, .inr hwr, by rw [honly]; rfl⟩
    · unfold OnlyImageEncoder OnlyEncoder at *; rw [honly]; rfl
    · rw [State.addLine_pipeline, honly.pipeline]
    · rw [State.addLine_pipeline, honly.pipeline]
  · simp only [hv, Bool.false_eq_true, if_false]
    exact ⟨_, row, rfl, rfl, rfl, by rw [State.addLine_pipeline], rfl, .inl rfl, rfl⟩

/-- **The rows of ENCODE_IMAGE (R131).** The counters are left as the last row leaves them. -/
theorem encodeImageRows_spec (rows : List (List Byte)) (s : State) (h : ∀ r ∈ rows, r.length = s.latched.w.toNat) :
    ∃ t lines, encodeImageRows rows s = .ok t ∧ List.Forall₂ EncodedLine rows lines ∧ OnlyImageEncoder s t ∧
      t.pipeline.flags = s.pipeline.flags ++ rows.map (fun row => (classifyRow row).verdict) ∧
      t.pipeline.lines = s.pipeline.lines ++ lines ∧ (t.writer = s.writer ∨ t.writer = { acc := 0, free := 8 }) ∧
      t.counters = (rows.map classifyRow).getLastD s.counters := by
  induction rows generalizing s with
  | nil => exact ⟨s, [], rfl, .nil, rfl, by simp, by simp, .inl rfl, rfl⟩
  | cons row rows ih =>
    obtain ⟨t, line, ht, hl, ho, hf, hls, hw, hc⟩ := encodeImageRow_spec row
      { s with pipeline := { s.pipeline with row := s.pipeline.flags.length } } (h row (by simp))
    have hlat : t.latched = s.latched := ho.latched
    obtain ⟨u, lines, hu, hls', ho', hf', hll, hw', hc'⟩ := ih t (by rw [hlat]; exact fun r hr => h r (by simp [hr]))
    refine ⟨u, line :: lines, ?_, .cons hl hls', ?_, ?_, ?_, ?_, by rw [hc', hc, List.map_cons, List.getLastD_cons]⟩
    · rw [encodeImageRows, ht]; exact hu
    · exact OnlyImageEncoder.trans (t := { s with pipeline := { s.pipeline with row := s.pipeline.flags.length } }) rfl (ho.trans ho')
    · rw [hf', hf]; simp
    · rw [hll, hls]; simp
    · rcases hw' with h | h
      · rw [h]; exact hw
      · exact .inr h

/-! ### DECODE_IMAGE -/

/-- `t` differs from `s` at most in the registers DECODE_IMAGE's rows work on. -/
def OnlyImageDecoder (s t : State) : Prop :=
  t = { s with writer := t.writer, reader := t.reader, rem := t.rem, dst := t.dst, phase := t.phase,
               pipeline := { s.pipeline with row := t.pipeline.row, rows := t.pipeline.rows } }

theorem OnlyImageDecoder.trans {s t u : State} (h1 : OnlyImageDecoder s t) (h2 : OnlyImageDecoder t u) :
    OnlyImageDecoder s u := by
  unfold OnlyImageDecoder at *
  rw [h2, h1]

/-- What a line decodes to, as bits say it (R133, R134). -/
def lineRow (w : Nat) (flag : Bool) (line : List Byte) : Except ErrorKind (List Byte) :=
  if flag then
    match decodeMany (rowWindows w) (bitsOfBytes line) with
    | .ok (is, _) => .ok (samplesOfRow (rowWindows w) is)
    | .error _ => .error .decodeUnderrun
  else if line.length = w then .ok line else .error .malformedContainer

/-- What the lines of a BarchImage decode to, the first error first (R174). -/
def lineRows (w : Nat) : List (Bool × List Byte) → Except ErrorKind (List (List Byte))
  | [] => .ok []
  | (flag, line) :: rest =>
    match lineRow w flag line with
    | .error e => .error e
    | .ok row =>
      match lineRows w rest with
      | .error e => .error e
      | .ok rows => .ok (row :: rows)

theorem lineRow_eq_ok {w : Nat} {flag : Bool} {line row : List Byte} : lineRow w flag line = .ok row ↔ lineHolds w flag line row := by
  unfold lineRow lineHolds
  cases flag
  · simp only [Bool.false_eq_true, if_false]
    constructor
    · intro h; split at h <;> simp_all
    · rintro ⟨rfl, h⟩; simp [h]
  · simp only [if_true]
    cases decodeMany (rowWindows w) (bitsOfBytes line) with
    | error r => simp
    | ok p =>
      obtain ⟨is, rest⟩ := p
      simp only [Except.ok.injEq, Prod.mk.injEq]
      constructor
      · intro h; exact ⟨is, rest, ⟨rfl, rfl⟩, h⟩
      · rintro ⟨is', rest', ⟨rfl, rfl⟩, h⟩; exact h

theorem lineHolds_length {w : Nat} {flag : Bool} {line row : List Byte} (h : lineHolds w flag line row) : row.length = w := by
  unfold lineHolds at h
  split at h
  · obtain ⟨is, rest, hd, rfl⟩ := h
    rw [(decodeMany_ok hd).2.2, rowWindows_sum]
  · exact h.2

theorem lineRow_error {w : Nat} {flag : Bool} {line : List Byte} {e : ErrorKind} (h : lineRow w flag line = .error e) :
    (flag = true ∧ e = .decodeUnderrun) ∨ (flag = false ∧ line.length ≠ w ∧ e = .malformedContainer) := by
  unfold lineRow at h
  cases flag
  · simp only [Bool.false_eq_true, if_false] at h
    split at h <;> simp_all
  · simp only [if_true] at h
    split at h <;> simp_all

theorem lineRows_eq_ok {w : Nat} {ps : List (Bool × List Byte)} {rows : List (List Byte)} :
    lineRows w ps = .ok rows ↔ List.Forall₂ (fun p row => lineHolds w p.1 p.2 row) ps rows := by
  induction ps generalizing rows with
  | nil => simp [lineRows, eq_comm]
  | cons p ps ih =>
    obtain ⟨flag, line⟩ := p
    rw [lineRows]
    constructor
    · intro h
      split at h
      · cases h
      · split at h
        · cases h
        · cases h
          exact .cons (lineRow_eq_ok.mp ‹_›) (ih.mp ‹_›)
    · intro h
      cases h with
      | cons h1 h2 => rw [lineRow_eq_ok.mpr h1, ih.mpr h2]

/-- A packed line that ends before its symbols are all there is an error (R122). -/
theorem lineRow_underruns {w : Nat} {line : List Byte} : lineRow w true line = .error .decodeUnderrun ↔ RowUnderruns w line := by
  unfold lineRow RowUnderruns
  simp only [if_true]
  cases decodeMany (rowWindows w) (bitsOfBytes line) <;> simp

/-- The first line that fails decides (R174). -/
theorem lineRows_first_error {w : Nat} {before after : List (Bool × List Byte)} {p : Bool × List Byte} {e : ErrorKind}
    (hb : ∀ q ∈ before, ∃ row, lineHolds w q.1 q.2 row) (he : lineRow w p.1 p.2 = .error e) :
    lineRows w (before ++ p :: after) = .error e := by
  induction before with
  | nil => rw [List.nil_append, lineRows, he]
  | cons q qs ih =>
    obtain ⟨row, hrow⟩ := hb q (by simp)
    rw [List.cons_append, lineRows, lineRow_eq_ok.mpr hrow, ih fun q hq => hb q (by simp [hq])]

/-- Where raw lines have `w` bytes, a packed line cut short makes the first error an underrun. -/
theorem lineRows_underruns {w : Nat} {ps : List (Bool × List Byte)} (hr : ∀ p ∈ ps, p.1 = false → p.2.length = w)
    (hu : ∃ p ∈ ps, p.1 = true ∧ RowUnderruns w p.2) : lineRows w ps = .error .decodeUnderrun := by
  induction ps with
  | nil => simp at hu
  | cons q qs ih =>
    obtain ⟨flag, line⟩ := q
    rw [lineRows]
    split
    · rename_i e he
      rcases lineRow_error he with ⟨-, rfl⟩ | ⟨hf, hlen, -⟩
      · rfl
      · exact absurd (hr (flag, line) (by simp) hf) hlen
    · rename_i row hok
      obtain ⟨p, hp, hf, hun⟩ := hu
      have hp' : p ∈ qs := by
        rcases List.mem_cons.mp hp with rfl | h
        · simp only at hf; subst hf
          rw [lineRow_underruns.mpr hun] at hok; cases hok
        · exact h
      rw [ih (fun p hp => hr p (by simp [hp])) ⟨p, hp', hf, hun⟩]

/-- **One row of DECODE_IMAGE (R134).** -/
theorem decodeImageRow_spec (flag : Bool) (line : List Byte) (s : State) :
    match lineRow s.latched.w.toNat flag line with
    | .ok row => ∃ t, decodeImageRow flag line s = .ok t ∧ OnlyImageDecoder s t ∧ t.pipeline.rows = s.pipeline.rows ++ [row] ∧
        (t.phase = .idle ∨ t.phase = s.phase) ∧ (t.writer = s.writer ∨ t.writer = { acc := 0, free := 8 })
    | .error e => decodeImageRow flag line s = .error (.raised e) := by
  unfold lineRow decodeImageRow
  cases flag
  · simp only [Bool.false_eq_true, if_false]
    by_cases h : line.length = s.latched.w.toNat
    · simp only [h, if_true]; exact ⟨_, rfl, rfl, rfl, .inr rfl, .inl rfl⟩
    · simp [h]
  · simp only [if_true]
    have hd := decodeRowBody_spec line s
    cases hm : decodeMany (rowWindows s.latched.w.toNat) (bitsOfBytes line) with
    | error r => rw [hm] at hd; simp only at hd ⊢; rw [hd]
    | ok p =>
      obtain ⟨is, rest⟩ := p
      rw [hm] at hd
      obtain ⟨b', hb, -⟩ := hd
      simp only
      rw [hb]
      exact ⟨_, rfl, rfl, rfl, .inl rfl, .inr rfl⟩

/-- **The rows of DECODE_IMAGE (R134).** -/
theorem decodeImageRows_spec (ps : List (Bool × List Byte)) (s : State) :
    match lineRows s.latched.w.toNat ps with
    | .ok rows => ∃ t, decodeImageRows ps s = .ok t ∧ OnlyImageDecoder s t ∧ t.pipeline.rows = s.pipeline.rows ++ rows ∧
        (t.phase = .idle ∨ t.phase = s.phase) ∧ (t.writer = s.writer ∨ t.writer = { acc := 0, free := 8 })
    | .error e => decodeImageRows ps s = .error (.raised e) := by
  induction ps generalizing s with
  | nil => exact ⟨s, rfl, rfl, by simp, .inr rfl, .inl rfl⟩
  | cons p ps ih =>
    obtain ⟨flag, line⟩ := p
    have h := decodeImageRow_spec flag line { s with pipeline := { s.pipeline with row := s.pipeline.rows.length } }
    simp only at h
    rw [lineRows, decodeImageRows]
    cases hl : lineRow s.latched.w.toNat flag line with
    | error e => rw [hl] at h; simp only at h ⊢; rw [h]
    | ok row =>
      rw [hl] at h
      obtain ⟨t, ht, ho, hr, hp, hw⟩ := h
      have hlat : t.latched = s.latched := by rw [ho]
      have hn := ih t
      rw [hlat] at hn
      simp only
      rw [ht]
      cases hls : lineRows s.latched.w.toNat ps with
      | error e => rw [hls] at hn; exact hn
      | ok rows =>
        rw [hls] at hn
        obtain ⟨u, hu, ho', hr', hp', hw'⟩ := hn
        refine ⟨u, hu, ?_, by rw [hr', hr]; simp, ?_, ?_⟩
        · exact OnlyImageDecoder.trans (t := { s with pipeline := { s.pipeline with row := s.pipeline.rows.length } }) rfl (ho.trans ho')
        · rcases hp' with h | h
          · exact .inl h
          · rw [h]; exact hp
        · rcases hw' with h | h
          · rw [h]; exact hw
          · exact .inr h

/-! ### The image round trip -/

/-- A packed row decodes to the row, whatever stands for its padding (R121, R125). -/
theorem decodeMany_packed {row line : List Byte} (h : bitsOfBytes line = padToByte (rowBits row)) :
    ∃ is, decodeMany (rowWindows row.length) (bitsOfBytes line) =
        .ok (is, List.replicate ((8 - (rowBits row).length % 8) % 8) false) ∧
      samplesOfRow (rowWindows row.length) is = row ∧ is.flatMap symbolBits = rowBits row := by
  rw [h, padToByte]
  exact decodeMany_rowBits row _

/-- The line ENCODE_IMAGE makes for a row holds the row. -/
theorem EncodedLine.holds {row line : List Byte} (h : EncodedLine row line) :
    lineHolds row.length (classifyRow row).verdict line row := by
  unfold EncodedLine at h
  unfold lineHolds
  split
  · rw [if_pos ‹_›] at h
    obtain ⟨is, hd, hs, -⟩ := decodeMany_packed h
    exact ⟨is, _, hd, hs⟩
  · rw [if_neg ‹_›] at h
    exact ⟨h, rfl⟩

/-- And it is exactly as long as its symbols. -/
theorem EncodedLine.exact {row line : List Byte} (h : EncodedLine row line) :
    lineExact row.length (classifyRow row).verdict line := by
  unfold EncodedLine at h
  unfold lineExact
  split
  · rw [if_pos ‹_›] at h
    obtain ⟨is, hd, -, -⟩ := decodeMany_packed h
    exact ⟨is, _, hd, by rw [List.length_replicate]; omega⟩
  · rw [if_neg ‹_›] at h
    rw [h]

end Sys2Proof.Machine
end

