-- ==== Sys2Proof/Laws/Container.lean ====
section
/-! SUPPORT. The container: integers and bitmap read back, the rows of DESERIALIZE as a function of the bytes alone, and the
header checks (R145 to R153). -/

namespace Sys2Proof.Machine

/-! ### Integers and the bitmap -/

/-- A 32-bit integer is read back from its four bytes (R34). -/
theorem u32OfBytes_bytesOfU32 (v : U32) (rest : List Byte) : u32OfBytes ((bytesOfU32 v ++ rest).take 4) = v := by
  have h : (bytesOfU32 v ++ rest).take 4 = bytesOfU32 v := by rw [List.take_left']; rfl
  rw [h]
  apply BitVec.eq_of_toNat_eq
  have := v.isLt
  simp only [u32OfBytes, bytesOfU32, List.getD_cons_zero, List.getD_cons_succ, BitVec.toNat_ofNat, BitVec.extractLsb'_toNat,
    Nat.shiftRight_eq_div_pow]
  omega

@[simp] theorem bytesOfU32_length (v : U32) : (bytesOfU32 v).length = 4 := rfl

@[simp] theorem flagBytes_length (flags : List Bool) (h : Nat) : (flagBytes flags h).length = ceilDiv h 8 := by
  simp [flagBytes]

theorem flagBit (x : Byte) (f : Bool) {i j : Nat} (hi : i < 8) (hj : j < 8) :
    (if f then x ||| ((0x80 : Byte) >>> i) else x).getLsbD (7 - j) = (x.getLsbD (7 - j) || (f && decide (i = j))) := by
  cases f
  · simp
  · have : ∀ i < 8, ∀ j < 8, ((0x80 : Byte) >>> i).getLsbD (7 - j) = decide (i = j) := by decide
    rw [if_pos rfl, BitVec.getLsbD_or, this i hi j hj, Bool.true_and]

/-- Bit `7 − j` of bitmap byte `b` is the flag of row `8b + j`; a bit that stands for no row is 0 (R146). -/
theorem flagByte_getLsbD (flags : List Bool) (b : Nat) {j : Nat} (h : j < 8) :
    (flagByte flags b).getLsbD (7 - j) = flags.getD (8 * b + j) false := by
  simp only [flagByte, List.range_succ, List.range_zero, List.nil_append, List.foldl_append, List.foldl_cons, List.foldl_nil]
  iterate 8 rw [flagBit _ _ (by decide) h]
  have : j = 0 ∨ j = 1 ∨ j = 2 ∨ j = 3 ∨ j = 4 ∨ j = 5 ∨ j = 6 ∨ j = 7 := by omega
  rcases this with rfl | rfl | rfl | rfl | rfl | rfl | rfl | rfl <;> simp

/-- **The bitmap is read back (R146, R150).** -/
theorem flagsOfBytes_flagBytes (flags : List Bool) : flagsOfBytes (flagBytes flags flags.length) flags.length = flags := by
  apply List.ext_getElem (by simp [flagsOfBytes])
  intro i h1 h2
  simp only [flagsOfBytes, List.getElem_map, List.getElem_range]
  have hb : i / 8 < ceilDiv flags.length 8 := by rw [ceilDiv]; omega
  have hg : (flagBytes flags flags.length).getD (i / 8) 0 = flagByte flags (i / 8) := by
    rw [List.getD_eq_getElem?_getD, List.getElem?_eq_getElem (by simpa using hb)]; simp [flagBytes]
  rw [hg, flagByte_getLsbD flags (i / 8) (Nat.mod_lt i (by decide)), show 8 * (i / 8) + i % 8 = i by omega,
    List.getD_eq_getElem?_getD, List.getElem?_eq_getElem h2]
  rfl

/-- The flags are the first `h` bits of the bitmap, "bit `7 − (i mod 8)` of byte `i div 8`" (R146, R150), whatever stands in
the bits behind them (R153). -/
theorem flagsOfBytes_eq_take {bitmap : List Byte} {h : Nat} (hl : h ≤ 8 * bitmap.length) :
    flagsOfBytes bitmap h = (bitsOfBytes bitmap).take h := by
  have hget : ∀ (bs : List Byte) (i : Nat), i < 8 * bs.length →
      (bitsOfBytes bs)[i]? = some ((bs.getD (i / 8) 0).getLsbD (7 - i % 8)) := by
    intro bs
    induction bs with
    | nil => intro i hi; simp at hi
    | cons b bs ih =>
      intro i hi
      rw [bitsOfBytes_cons]
      by_cases h8 : i < 8
      · rw [List.getElem?_append_left (by simpa using h8), Nat.div_eq_of_lt h8, Nat.mod_eq_of_lt h8, ← fieldBits_byte,
          List.getElem?_eq_getElem (by simpa using h8), fieldBits_getElem]
        rfl
      · obtain ⟨j, rfl⟩ : ∃ j, i = j + 8 := ⟨i - 8, by omega⟩
        rw [List.getElem?_append_right (by simp), bitsOfByte_length, Nat.add_sub_cancel, ih j (by simp at hi; omega),
          show (j + 8) / 8 = j / 8 + 1 by omega, List.getD_cons_succ, Nat.add_mod_right]
  apply List.ext_getElem?
  intro i
  by_cases hi : i < h
  · rw [List.getElem?_take_of_lt hi, hget bitmap i (by omega), flagsOfBytes, List.getElem?_map, List.getElem?_range hi]
    rfl
  · rw [List.getElem?_eq_none (by simp [flagsOfBytes]; omega), List.getElem?_eq_none (by simp; omega)]

/-- The bitmap's bits are the flags padded with zeros to a byte (R146). -/
theorem bitsOfBytes_flagBytes (flags : List Bool) : bitsOfBytes (flagBytes flags flags.length) = padToByte flags := by
  have hbyte : ∀ b, bitsOfByte (flagByte flags b) = (List.range 8).map fun j => flags.getD (8 * b + j) false := by
    intro b
    apply List.ext_getElem (by simp)
    intro i h1 h2
    simp only [bitsOfByte_length] at h1
    simp only [← fieldBits_byte]
    rw [fieldBits_getElem, List.getElem_map, List.getElem_range, ← flagByte_getLsbD flags b h1]
    rfl
  have hall : ∀ n, bitsOfBytes ((List.range n).map (flagByte flags)) = (List.range (8 * n)).map fun i => flags.getD i false := by
    intro n
    induction n with
    | zero => rfl
    | succ n ih =>
      rw [List.range_succ, List.map_append, bitsOfBytes_append, ih, show 8 * (n + 1) = 8 * n + 8 by omega, List.range_add,
        List.map_append, List.map_map]
      congr 1
      simpa [Function.comp_def] using hbyte n
  rw [flagBytes, hall, padToByte]
  apply List.ext_getElem
  · simp [ceilDiv]; omega
  · intro i h1 h2
    rw [List.getElem_map, List.getElem_range, List.getElem_append]
    split
    · rw [List.getD_eq_getElem?_getD, List.getElem?_eq_getElem ‹_›]; rfl
    · rw [List.getElem_replicate, List.getD_eq_getElem?_getD, List.getElem?_eq_none (by omega)]; rfl

/-! ### The rows of a container -/

/-- How many bytes at the front of `buf` are the next row's line (R150, R151). -/
def cutRow (w : Nat) (flag : Bool) (buf : List Byte) : Except ErrorKind Nat :=
  if flag then
    match decodeMany (rowWindows w) (bitsOfBytes buf) with
    | .ok (is, _) => .ok (ceilDiv (is.flatMap symbolBits).length 8)
    | .error _ => .error .malformedContainer
  else if buf.length < w then .error .malformedContainer
  else .ok w

/-- The lines at the front of `buf`, one for each flag (R150). -/
def cutRows (w : Nat) : List Bool → List Byte → Except ErrorKind (List (List Byte))
  | [], _ => .ok []
  | flag :: flags, buf =>
    match cutRow w flag buf with
    | .error e => .error e
    | .ok n =>
      match cutRows w flags (buf.drop n) with
      | .error e => .error e
      | .ok lines => .ok (buf.take n :: lines)

theorem cutRow_le {w : Nat} {flag : Bool} {buf : List Byte} {n : Nat} (h : cutRow w flag buf = .ok n) : n ≤ buf.length := by
  unfold cutRow at h
  split at h
  · split at h
    · rename_i is rest hd
      cases h
      have := congrArg List.length (decodeMany_ok hd).1
      rw [bitsOfBytes_length, List.length_append] at this
      rw [ceilDiv]; omega
    · cases h
  · split at h
    · cases h
    · cases h; omega

theorem cutRow_error {w : Nat} {flag : Bool} {buf : List Byte} {e : ErrorKind} (h : cutRow w flag buf = .error e) :
    e = .malformedContainer := by
  unfold cutRow at h
  split at h
  · split at h <;> cases h; rfl
  · split at h <;> cases h; rfl

theorem cutRows_error {w : Nat} {flags : List Bool} {buf : List Byte} {e : ErrorKind} (h : cutRows w flags buf = .error e) :
    e = .malformedContainer := by
  induction flags generalizing buf with
  | nil => cases h
  | cons flag flags ih =>
    rw [cutRows] at h
    split at h
    · cases h; exact cutRow_error ‹_›
    · split at h
      · cases h; exact ih ‹_›
      · cases h

/-- The only way the rows are not cut is that the row data ends inside a row (R152). -/
theorem cutRows_cutShort {w : Nat} {flags : List Bool} {buf : List Byte} {e : ErrorKind}
    (h : cutRows w flags buf = .error e) : RowsCutShort w flags buf := by
  induction flags generalizing buf with
  | nil => cases h
  | cons f fs ih =>
    rw [cutRows] at h
    cases f
    · simp only [RowsCutShort]
      unfold cutRow at h
      simp only [Bool.false_eq_true, if_false] at h
      by_cases hl : buf.length < w
      · exact .inl hl
      · simp only [hl, if_false] at h
        right
        split at h
        · cases h; exact ih ‹_›
        · cases h
    · simp only [RowsCutShort]
      unfold cutRow at h
      simp only [if_true] at h
      cases hd : decodeMany (rowWindows w) (bitsOfBytes buf) with
      | error r => trivial
      | ok p =>
        obtain ⟨is, rest⟩ := p
        rw [hd] at h
        simp only at h ⊢
        split at h
        · cases h; exact ih ‹_›
        · cases h

/-- A line of exactly its own length is cut off whatever follows it (R153). -/
theorem cutRow_exact {w : Nat} {flag : Bool} {line : List Byte} (h : lineExact w flag line) (extra : List Byte) :
    cutRow w flag (line ++ extra) = .ok line.length := by
  unfold lineExact at h
  unfold cutRow
  cases flag
  · simp only [Bool.false_eq_true, if_false] at h ⊢
    rw [if_neg (by simp; omega), h]
  · simp only [if_true] at h ⊢
    obtain ⟨is, rest, hd, hr⟩ := h
    rw [bitsOfBytes_append, decodeMany_append hd]
    have := congrArg List.length (decodeMany_ok hd).1
    rw [bitsOfBytes_length, List.length_append] at this
    simp only [Except.ok.injEq]
    rw [ceilDiv]; omega

theorem cutRows_exact {w : Nat} {ps : List (Bool × List Byte)} (h : ∀ p ∈ ps, lineExact w p.1 p.2) (extra : List Byte) :
    cutRows w (ps.map Prod.fst) ((ps.map Prod.snd).flatten ++ extra) = .ok (ps.map Prod.snd) := by
  induction ps with
  | nil => rfl
  | cons p ps ih =>
    simp only [List.map_cons, List.flatten_cons, List.append_assoc, cutRows]
    rw [cutRow_exact (h p (by simp))]
    simp only [List.drop_left', List.take_left']
    rw [ih fun q hq => h q (by simp [hq])]

/-- A row cut short is no row: with fewer bytes than its line has, MalformedContainer (R152). -/
theorem cutRow_short {w : Nat} {flag : Bool} {line : List Byte} (h : lineExact w flag line) {n : Nat} (hn : n < line.length) :
    cutRow w flag (line.take n) = .error .malformedContainer := by
  unfold lineExact at h
  unfold cutRow
  cases flag
  · simp only [Bool.false_eq_true, if_false] at h ⊢
    rw [if_pos (by simp; omega)]
  · simp only [if_true] at h ⊢
    obtain ⟨is, rest, hd, hr⟩ := h
    cases hm : decodeMany (rowWindows w) (bitsOfBytes (line.take n)) with
    | error r => rfl
    | ok p =>
      obtain ⟨is', rest'⟩ := p
      have h1 := decodeMany_append hm (bitsOfBytes (line.drop n))
      rw [← bitsOfBytes_append, List.take_append_drop, hd] at h1
      simp only [Except.ok.injEq, Prod.mk.injEq] at h1
      have := congrArg List.length h1.2
      rw [List.length_append, bitsOfBytes_length, List.length_drop] at this
      omega

theorem lineExact_pos {w : Nat} {flag : Bool} {line : List Byte} (hw : w ≠ 0) (h : lineExact w flag line) : 0 < line.length := by
  unfold lineExact at h
  split at h
  · obtain ⟨is, rest, hd, -⟩ := h
    have h1 := decodeMany_length hd
    have h2 := congrArg List.length (decodeMany_ok hd).1
    rw [rowWindows_length] at h1
    rw [bitsOfBytes_length, List.length_append] at h2
    simp only [ceilDiv] at h1
    omega
  · omega

theorem cutRows_short {w : Nat} {ps : List (Bool × List Byte)} (h : ∀ p ∈ ps, lineExact w p.1 p.2) {n : Nat}
    (hn : n < ((ps.map Prod.snd).flatten).length) :
    cutRows w (ps.map Prod.fst) ((ps.map Prod.snd).flatten.take n) = .error .malformedContainer := by
  induction ps generalizing n with
  | nil => simp at hn
  | cons p ps ih =>
    simp only [List.map_cons, List.flatten_cons, List.length_append] at hn ⊢
    rw [cutRows]
    have hp := h p (by simp)
    by_cases hlt : n < p.2.length
    · rw [List.take_append_of_le_length (by omega), cutRow_short hp hlt]
    · obtain ⟨m, rfl⟩ : ∃ m, n = p.2.length + m := ⟨n - p.2.length, by omega⟩
      rw [List.take_length_add_append, cutRow_exact hp]
      simp only [List.drop_left']
      rw [ih (fun q hq => h q (by simp [hq])) (by omega)]

/-- `t` differs from `s` at most in the registers DESERIALIZE's rows work on. -/
def OnlyDeserializer (s t : State) : Prop :=
  t = { s with writer := t.writer, reader := t.reader, rem := t.rem, dst := t.dst, phase := t.phase,
               pipeline := { s.pipeline with row := t.pipeline.row, flags := t.pipeline.flags, lines := t.pipeline.lines } }

theorem OnlyDeserializer.trans {s t u : State} (h1 : OnlyDeserializer s t) (h2 : OnlyDeserializer t u) :
    OnlyDeserializer s u := by
  unfold OnlyDeserializer at *
  rw [h2, h1]

/-- **One row of DESERIALIZE (R150).** -/
theorem deserializeRow_spec (flag : Bool) (p : Nat) (s : State) (hp : p ≤ s.src.length) :
    match cutRow s.latched.w.toNat flag (s.src.drop p) with
    | .ok n => ∃ t, deserializeRow flag p s = .ok (p + n, t) ∧ OnlyDeserializer s t ∧
        t.pipeline.flags = s.pipeline.flags ++ [flag] ∧
        t.pipeline.lines = s.pipeline.lines ++ [(s.src.drop p).take n] ∧ (t.phase = .idle ∨ t.phase = s.phase) ∧
        (t.writer = s.writer ∨ t.writer = { acc := 0, free := 8 })
    | .error e => deserializeRow flag p s = .error (.raised e) := by
  unfold deserializeRow
  cases hc : cutRow s.latched.w.toNat flag (s.src.drop p) with
  | error e =>
    unfold cutRow at hc
    cases flag
    · simp only [Bool.false_eq_true, if_false, List.length_drop] at hc ⊢
      split at hc
      · cases hc; rw [if_pos (by omega)]
      · cases hc
    · simp only [if_true] at hc ⊢
      have hd := decodeRowBody_spec (s.src.drop p) s
      cases hm : decodeMany (rowWindows s.latched.w.toNat) (bitsOfBytes (s.src.drop p)) with
      | error r => rw [hm] at hd hc; simp only at hd hc; cases hc; rw [measureRow, hd]
      | ok q => rw [hm] at hc; cases hc
  | ok n =>
    have hle := cutRow_le hc
    rw [List.length_drop] at hle
    unfold cutRow at hc
    cases flag
    · simp only [Bool.false_eq_true, if_false, List.length_drop] at hc ⊢
      split at hc
      · cases hc
      · cases hc
        rw [if_neg (by omega), memRead_eq_ok (by omega)]
        exact ⟨_, rfl, rfl, rfl, rfl, .inr rfl, .inl rfl⟩
    · simp only [if_true] at hc ⊢
      have hd := decodeRowBody_spec (s.src.drop p) s
      cases hm : decodeMany (rowWindows s.latched.w.toNat) (bitsOfBytes (s.src.drop p)) with
      | error r => rw [hm] at hc; cases hc
      | ok q =>
        obtain ⟨is, rest⟩ := q
        rw [hm] at hd hc
        simp only [Except.ok.injEq] at hc
        obtain ⟨b', hb, -, hpos, -, -⟩ := hd
        rw [measureRow, hb]
        simp only
        rw [hpos, hc, memRead_eq_ok (by omega)]
        exact ⟨_, rfl, rfl, rfl, rfl, .inl rfl, .inr rfl⟩

/-- **The rows of DESERIALIZE (R150).** -/
theorem deserializeRows_spec (flags : List Bool) (p : Nat) (s : State) (hp : p ≤ s.src.length) :
    match cutRows s.latched.w.toNat flags (s.src.drop p) with
    | .ok lines => ∃ t, deserializeRows flags p s = .ok t ∧ OnlyDeserializer s t ∧
        t.pipeline.flags = s.pipeline.flags ++ flags ∧ t.pipeline.lines = s.pipeline.lines ++ lines ∧
        (t.phase = .idle ∨ t.phase = s.phase) ∧ (t.writer = s.writer ∨ t.writer = { acc := 0, free := 8 })
    | .error e => deserializeRows flags p s = .error (.raised e) := by
  induction flags generalizing p s with
  | nil => exact ⟨s, rfl, rfl, by simp, by simp, .inr rfl, .inl rfl⟩
  | cons flag flags ih =>
    have h := deserializeRow_spec flag p { s with pipeline := { s.pipeline with row := s.pipeline.flags.length } } hp
    simp only at h
    rw [cutRows, deserializeRows]
    cases hc : cutRow s.latched.w.toNat flag (s.src.drop p) with
    | error e => rw [hc] at h; simp only at h ⊢; rw [h]
    | ok n =>
      rw [hc] at h
      obtain ⟨t, ht, ho, hf, hl, hph, hw⟩ := h
      have hlat : t.latched = s.latched := by rw [ho]
      have hsrc : t.src = s.src := by rw [ho]
      have hle := cutRow_le hc
      rw [List.length_drop] at hle
      have hn := ih (p + n) t (by rw [hsrc]; omega)
      rw [hlat, hsrc, ← List.drop_drop] at hn
      simp only
      rw [ht]
      cases hcs : cutRows s.latched.w.toNat flags ((s.src.drop p).drop n) with
      | error e => rw [hcs] at hn; exact hn
      | ok lines =>
        rw [hcs] at hn
        obtain ⟨u, hu, ho', hf', hl', hph', hw'⟩ := hn
        refine ⟨u, hu, ?_, by rw [hf', hf]; simp, by rw [hl', hl]; simp, ?_, ?_⟩
        · exact OnlyDeserializer.trans (t := { s with pipeline := { s.pipeline with row := s.pipeline.flags.length } }) rfl (ho.trans ho')
        · rcases hph' with h | h
          · exact .inl h
          · rw [h]; exact hph
        · rcases hw' with h | h
          · rw [h]; exact hw
          · exact .inr h

/-! ### The header -/

/-- What the header checks answer (R150, R152, R174). -/
theorem readHeader_spec (magic src : List Byte) :
    readHeader magic src =
      if src.take magic.length = magic ∧ magic.length + 8 ≤ src.length then
        .ok (u32OfBytes ((src.drop magic.length).take 4), u32OfBytes ((src.drop (magic.length + 4)).take 4))
      else .error (.raised .malformedContainer) := by
  unfold readHeader
  by_cases h0 : src.length < magic.length
  · rw [if_pos h0, if_neg (by omega)]
  · rw [if_neg h0, memRead_eq_ok (by omega), List.drop_zero]
    simp only
    by_cases h1 : src.take magic.length = magic
    · rw [if_neg (by simpa using h1)]
      by_cases h2 : src.length < magic.length + 8
      · rw [if_pos h2, if_neg (by omega)]
      · rw [if_neg h2, if_pos ⟨h1, by omega⟩, memU32, memU32, memRead_eq_ok (by omega), memRead_eq_ok (by omega)]
    · rw [if_pos h1, if_neg (by simp [h1])]

end Sys2Proof.Machine
end

