-- ==== Sys2Proof/Laws/Commands.lean ====
section
/-! SUPPORT. What `exec` answers for the row, image and container commands, as functions of their operands, SRC and MAGIC. -/

namespace Sys2Proof.Machine

/-- Reading a whole buffer answers it. -/
theorem memRead_whole {buf : List Byte} {n : Nat} (h : buf.length = n) : memRead buf 0 n = .ok buf := by
  rw [memRead_eq_ok (by omega), List.drop_zero, ← h, List.take_length]

/-! ### Row commands -/

/-- CLASSIFY answers exactly this (R90, R92). -/
theorem execClassify_eq (s : State) (h : s.src.length = s.operands.width.toNat) :
    exec .classify s =
      .next ({ s.latchWidth.openWriter with counters := classifyRow s.src }.forgetDst.endOk.setResFlag (classifyRow s.src).verdict) := by
  simp only [exec, execClassify, h, if_true, memRead_whole h]

/-- DECODE_ROW answers what the decoder reads off SRC (R115). -/
theorem execDecodeRow_spec (s : State) (h0 : s.operands.width.toNat ≠ 0) :
    match decodeMany (rowWindows s.operands.width.toNat) (bitsOfBytes s.src) with
    | .ok (is, rest) => ∃ b', exec .decodeRow s =
          .next ({ s.latchWidth with writer := { acc := 0, free := 8 }, reader := b', rem := 0, phase := .idle,
                                     dst := samplesOfRow (rowWindows s.operands.width.toNat) is }.endOk.setResConsumed b'.rdPos) ∧
        unreadBits s.src b' = rest ∧ b'.rdPos = ceilDiv (is.flatMap symbolBits).length 8 ∧ b'.avail ≤ 7 ∧
        b'.rdPos ≤ s.src.length
    | .error _ => exec .decodeRow s = .next (s.latchWidth.errorEntry .decodeUnderrun) := by
  have hr := decodeRowBody_spec s.src s.latchWidth
  rw [show s.latchWidth.latched.w.toNat = s.operands.width.toNat from rfl] at hr
  cases hd : decodeMany (rowWindows s.operands.width.toNat) (bitsOfBytes s.src) with
  | error r =>
    rw [hd] at hr
    simp only at hr ⊢
    simp only [exec, execDecodeRow, h0, if_false, hr, finish]
  | ok p =>
    obtain ⟨is, rest⟩ := p
    rw [hd] at hr
    obtain ⟨b', hb', h⟩ := hr
    exact ⟨b', by simp only [exec, execDecodeRow, h0, if_false, hb']; rfl, h⟩

/-- ENCODE_ROW answers the packed row (R100). -/
theorem execEncodeRow_spec (s : State) (h : s.src.length = s.operands.width.toNat) (h0 : s.operands.width.toNat ≠ 0) :
    ∃ t, exec .encodeRow s = .next t.endOk ∧ OnlyEncoder s.latchWidth t ∧ bitsOfBytes t.dst = padToByte (rowBits s.src) ∧
      t.writer = { acc := 0, free := 8 } := by
  obtain ⟨t, ht, h'⟩ := encodeRowBody_spec s.src s.latchWidth h
  exact ⟨t, by simp only [exec, execEncodeRow, h0, if_false, h, if_true, ht], h'⟩

/-! ### Image commands -/

theorem RasterImage.rows_length {m : RasterImage} (h : m.wellShaped = true) :
    m.rows.length = m.height.toNat ∧ ∀ r ∈ m.rows, r.length = m.width.toNat := by
  simpa [RasterImage.wellShaped] using h

theorem BarchImage.counts {m : BarchImage} (h : m.countsAgree = true) :
    m.flags.length = m.height.toNat ∧ m.lines.length = m.height.toNat := by
  simpa [BarchImage.countsAgree] using h

/-- ENCODE_IMAGE answers the rows' flags and lines (R131). -/
theorem execEncodeImage_spec (s : State) (hw : s.operands.raster.width.toNat ≠ 0) (hh : s.operands.raster.height.toNat ≠ 0)
    (hd : s.operands.depth = 8) (hs : s.operands.raster.wellShaped = true) :
    ∃ t lines, exec .encodeImage s = .next (t.endImage.setResBarch
        { width := s.operands.raster.width, height := s.operands.raster.height,
          flags := s.operands.raster.rows.map (fun row => (classifyRow row).verdict), lines := lines }) ∧
      List.Forall₂ EncodedLine s.operands.raster.rows lines ∧ OnlyImageEncoder s.latchRaster.openPipeline t ∧
      t.writer = { acc := 0, free := 8 } ∧ t.counters = (s.operands.raster.rows.map classifyRow).getLastD s.counters := by
  obtain ⟨t, lines, ht, hl, ho, hf, hls, hwr, hc⟩ := encodeImageRows_spec s.operands.raster.rows s.latchRaster.openPipeline
    (RasterImage.rows_length hs).2
  refine ⟨t, lines, ?_, hl, ho, by rcases hwr with h | h <;> exact h, hc⟩
  simp only [exec, execEncodeImage, hw, hh, hd, hs, or_self, if_false, Config.depth8, ne_eq, not_true_eq_false, if_true, ht]
  simp only [State.openPipeline_pipeline, List.nil_append] at hf hls
  rw [hf, hls]

/-- DECODE_IMAGE answers what its lines decode to, the first error first (R134, R174). -/
theorem execDecodeImage_spec (s : State) (hw : s.operands.barch.width.toNat ≠ 0) (hh : s.operands.barch.height.toNat ≠ 0)
    (hc : s.operands.barch.countsAgree = true) :
    match lineRows s.operands.barch.width.toNat (s.operands.barch.flags.zip s.operands.barch.lines) with
    | .ok rows => ∃ t, exec .decodeImage s = .next (t.endImage.setResRaster
          { width := s.operands.barch.width, height := s.operands.barch.height, rows := rows }) ∧
        OnlyImageDecoder s.latchBarch.openBarch t ∧ (t.phase = .idle ∨ t.phase = s.phase) ∧
        t.writer = { acc := 0, free := 8 }
    | .error e => exec .decodeImage s = .next (s.latchBarch.errorEntry e) := by
  have h := decodeImageRows_spec (s.operands.barch.flags.zip s.operands.barch.lines) s.latchBarch.openBarch
  rw [show s.latchBarch.openBarch.latched.w.toNat = s.operands.barch.width.toNat from rfl] at h
  cases hl : lineRows s.operands.barch.width.toNat (s.operands.barch.flags.zip s.operands.barch.lines) with
  | error e =>
    rw [hl] at h
    simp only at h ⊢
    simp only [exec, execDecodeImage, hw, hh, hc, or_self, if_false, if_true, h, finish]
  | ok rows =>
    rw [hl] at h
    obtain ⟨t, ht, ho, hr, hp, hwr⟩ := h
    refine ⟨t, ?_, ho, hp, by rcases hwr with h | h <;> exact h⟩
    simp only [exec, execDecodeImage, hw, hh, hc, or_self, if_false, if_true, ht]
    simp only [State.openBarch_pipeline, List.nil_append] at hr
    rw [hr]

/-! ### DESERIALIZE -/

/-- The container at the front of a buffer, or the first check that fails (R150, R174). -/
def readContainer (magic src : List Byte) : Except ErrorKind BarchImage :=
  if src.take magic.length = magic ∧ magic.length + 8 ≤ src.length then
    let w := headerWidth magic src
    let h := headerHeight magic src
    if w.toNat = 0 ∨ h.toNat = 0 then .error .invalidDimensions
    else if src.length < magic.length + 8 + ceilDiv h.toNat 8 then .error .malformedContainer
    else
      let flags := flagsOfBytes ((src.drop (magic.length + 8)).take (ceilDiv h.toNat 8)) h.toNat
      match cutRows w.toNat flags (src.drop (magic.length + 8 + ceilDiv h.toNat 8)) with
      | .error e => .error e
      | .ok lines => .ok { width := w, height := h, flags := flags, lines := lines }
  else .error .malformedContainer

/-- The operands DESERIALIZE has latched when it fails, with its header read and without (log 27, log 28). -/
theorem LatchedBy.deserialize_read {s : State} (h : HeaderRead s.magic s.src) :
    LatchedBy .deserialize s { s.latched with w := headerWidth s.magic s.src, h := headerHeight s.magic s.src } := by
  simp [LatchedBy, h]

theorem LatchedBy.deserialize_unread {s : State} (h : ¬ HeaderRead s.magic s.src) : LatchedBy .deserialize s s.latched := by
  simp [LatchedBy, h]

/-- DESERIALIZE answers what the container at the front of SRC holds (R150 to R153). -/
theorem execDeserialize_spec (s : State) :
    match readContainer s.magic s.src with
    | .ok m => ∃ t, exec .deserialize s = .next (t.endImage.setResBarch m) ∧
        OnlyDeserializer (s.latchDims m.width m.height).openPipeline t ∧ (t.phase = .idle ∨ t.phase = s.phase) ∧
        t.writer = { acc := 0, free := 8 }
    | .error e => ∃ l : Latched, LatchedBy .deserialize s l ∧
        exec .deserialize s = .next ({ s with latched := l }.errorEntry e) := by
  simp only [exec, execDeserialize, readHeader_spec, readContainer]
  by_cases hm : s.src.take s.magic.length = s.magic ∧ s.magic.length + 8 ≤ s.src.length
  · have hl := LatchedBy.deserialize_read hm
    rw [if_pos hm, if_pos hm]
    simp only [show u32OfBytes ((s.src.drop s.magic.length).take 4) = headerWidth s.magic s.src from rfl,
      show u32OfBytes ((s.src.drop (s.magic.length + 4)).take 4) = headerHeight s.magic s.src from rfl]
    generalize headerWidth s.magic s.src = w at hl ⊢
    generalize headerHeight s.magic s.src = h at hl ⊢
    by_cases h0 : w.toNat = 0 ∨ h.toNat = 0
    · rw [if_pos h0, if_pos h0]
      exact ⟨_, hl, rfl⟩
    · rw [if_neg h0, if_neg h0]
      simp only [deserializeBody, State.latchDims_src, State.latchDims_magic, State.latchDims_latched]
      by_cases hlt : s.src.length < s.magic.length + 8 + ceilDiv h.toNat 8
      · simp only [hlt, if_true]
        exact ⟨_, hl, rfl⟩
      · simp only [hlt, if_false]
        rw [memRead_eq_ok (by omega)]
        simp only
        have hr := deserializeRows_spec (flagsOfBytes ((s.src.drop (s.magic.length + 8)).take (ceilDiv h.toNat 8)) h.toNat)
          (s.magic.length + 8 + ceilDiv h.toNat 8) (s.latchDims w h).openPipeline (by simp; omega)
        simp only [State.openPipeline_latched, State.latchDims_latched, State.openPipeline_src, State.latchDims_src] at hr
        cases hc : cutRows w.toNat (flagsOfBytes ((s.src.drop (s.magic.length + 8)).take (ceilDiv h.toNat 8)) h.toNat)
            (s.src.drop (s.magic.length + 8 + ceilDiv h.toNat 8)) with
        | error e =>
          rw [hc] at hr
          simp only at hr ⊢
          rw [hr]
          exact ⟨_, hl, rfl⟩
        | ok lines =>
          rw [hc] at hr
          obtain ⟨t, ht, ho, hf, hls, hp, hw⟩ := hr
          refine ⟨t, ?_, ho, hp, by rcases hw with h | h <;> exact h⟩
          rw [ht]
          simp only [State.openPipeline_pipeline, List.nil_append] at hf hls
          simp only [hf, hls]
  · rw [if_neg hm, if_neg hm]
    exact ⟨s.latched, LatchedBy.deserialize_unread hm, rfl⟩

/-- The two errors of DESERIALIZE and their causes (R152, R166, R168). -/
theorem readContainer_error {magic src : List Byte} {e : ErrorKind} (h : readContainer magic src = .error e) :
    (e = .invalidDimensions ∧ HeaderRead magic src ∧ (headerWidth magic src = 0 ∨ headerHeight magic src = 0)) ∨
    (e = .malformedContainer ∧ ContainerMalformed magic src) := by
  unfold readContainer at h
  split at h
  · rename_i hm
    simp only at h
    split at h
    · cases h; rename_i h0
      refine .inl ⟨rfl, hm, ?_⟩
      rcases h0 with h0 | h0
      · exact .inl (BitVec.eq_of_toNat_eq h0)
      · exact .inr (BitVec.eq_of_toNat_eq h0)
    · rename_i h0
      have h1 : headerWidth magic src ≠ 0 := fun h => h0 (.inl (by rw [h]; rfl))
      have h2 : headerHeight magic src ≠ 0 := fun h => h0 (.inr (by rw [h]; rfl))
      split at h
      · cases h; exact .inr ⟨rfl, .inr ⟨h1, h2, .inl ‹_›⟩⟩
      · rename_i hlt
        split at h
        · rename_i e' hc
          cases h
          refine .inr ⟨cutRows_error hc, .inr ⟨h1, h2, .inr ?_⟩⟩
          have := cutRows_cutShort hc
          generalize headerHeight magic src = hh at hlt this ⊢
          have hlen : hh.toNat ≤ 8 * ((src.drop (magic.length + 8)).take (ceilDiv hh.toNat 8)).length := by
            rw [List.length_take, List.length_drop]; rw [ceilDiv] at *; omega
          have hflags : (bitsOfBytes ((src.drop (magic.length + 8)).take (ceilDiv hh.toNat 8))).take hh.toNat =
              headerFlags magic src hh.toNat := by
            rw [headerFlags]
            conv_rhs =>
              rw [← List.take_append_drop (ceilDiv hh.toNat 8) (src.drop (magic.length + 8)), bitsOfBytes_append]
            rw [List.take_append_of_le_length (by rw [bitsOfBytes_length]; exact hlen)]
          rwa [flagsOfBytes_eq_take hlen, hflags] at this
        · cases h
  · cases h; exact .inr ⟨rfl, .inl ‹_›⟩

@[simp] theorem drop_bytesOfU32 (v : U32) (rest : List Byte) : (bytesOfU32 v ++ rest).drop 4 = rest := rfl

/-- The header of a container is where R145 puts it, whatever follows. -/
theorem containerWith_head (magic bitmap : List Byte) (m : BarchImage) (extra : List Byte) :
    (containerWith magic bitmap m ++ extra).take magic.length = magic ∧
    headerWidth magic (containerWith magic bitmap m ++ extra) = m.width ∧
    headerHeight magic (containerWith magic bitmap m ++ extra) = m.height := by
  simp only [containerWith, headerWidth, headerHeight, List.append_assoc]
  refine ⟨List.take_left' rfl, ?_, ?_⟩
  · rw [List.drop_left' rfl, u32OfBytes_bytesOfU32]
  · rw [← List.drop_drop, List.drop_left' rfl, drop_bytesOfU32, u32OfBytes_bytesOfU32]

theorem containerWith_length (magic bitmap : List Byte) (m : BarchImage) :
    (containerWith magic bitmap m).length = magic.length + 8 + bitmap.length + m.lines.flatten.length := by
  simp only [containerWith, List.length_append, bytesOfU32_length]

theorem containerBytes_head (magic : List Byte) (m : BarchImage) (extra : List Byte) :
    (containerBytes magic m ++ extra).take magic.length = magic ∧
    headerWidth magic (containerBytes magic m ++ extra) = m.width ∧
    headerHeight magic (containerBytes magic m ++ extra) = m.height := containerWith_head _ _ _ _

theorem containerBytes_length (magic : List Byte) (m : BarchImage) :
    (containerBytes magic m).length = magic.length + 8 + ceilDiv m.height.toNat 8 + m.lines.flatten.length := by
  rw [containerBytes, containerWith_length, flagBytes_length]

/-- The image's flags and lines, joined and taken apart again. -/
theorem zip_fst_snd {flags : List Bool} {lines : List (List Byte)} (h : flags.length = lines.length) :
    (flags.zip lines).map Prod.fst = flags ∧ (flags.zip lines).map Prod.snd = lines := by
  rw [List.map_fst_zip (by omega), List.map_snd_zip (by omega)]
  exact ⟨rfl, rfl⟩

/-- **A container is cut into its rows (R145, R150, R153):** its lines exactly as long as their symbols, its bitmap any
bytes that begin with the flags. -/
theorem readContainer_containerWith (magic bitmap : List Byte) (m : BarchImage) (extra : List Byte) (hw : m.width.toNat ≠ 0)
    (hh : m.height.toNat ≠ 0) (hc : m.countsAgree = true) (hb : bitmap.length = ceilDiv m.height.toNat 8)
    (hbits : (bitsOfBytes bitmap).take m.height.toNat = m.flags)
    (hl : ∀ p ∈ m.flags.zip m.lines, lineExact m.width.toNat p.1 p.2) :
    readContainer magic (containerWith magic bitmap m ++ extra) = .ok m := by
  obtain ⟨h1, h2, h3⟩ := containerWith_head magic bitmap m extra
  obtain ⟨hf, hll⟩ := BarchImage.counts hc
  have hlen := containerWith_length magic bitmap m
  have hbm : ((containerWith magic bitmap m ++ extra).drop (magic.length + 8)).take (ceilDiv m.height.toNat 8) = bitmap := by
    rw [show magic.length + 8 = magic.length + (4 + 4) from rfl, ← List.drop_drop, ← List.drop_drop]
    simp only [containerWith, List.append_assoc]
    rw [List.drop_left' rfl, drop_bytesOfU32, drop_bytesOfU32, List.take_left' hb]
  have hrest : (containerWith magic bitmap m ++ extra).drop (magic.length + 8 + ceilDiv m.height.toNat 8) =
      m.lines.flatten ++ extra := by
    rw [show magic.length + 8 + ceilDiv m.height.toNat 8 = magic.length + (4 + (4 + ceilDiv m.height.toNat 8)) by omega,
      ← List.drop_drop, ← List.drop_drop, ← List.drop_drop]
    simp only [containerWith, List.append_assoc]
    rw [List.drop_left' rfl, drop_bytesOfU32, drop_bytesOfU32, List.drop_left' hb]
  have hcut := cutRows_exact hl extra
  obtain ⟨z1, z2⟩ := zip_fst_snd (hf.trans hll.symm)
  rw [z1, z2] at hcut
  have hflags : flagsOfBytes bitmap m.height.toNat = m.flags := by
    rw [flagsOfBytes_eq_take (by rw [hb, ceilDiv]; omega), hbits]
  rw [readContainer, if_pos ⟨h1, by rw [List.length_append]; omega⟩]
  simp only [h2, h3]
  rw [if_neg (by simp [hw, hh]), if_neg (by rw [List.length_append]; omega), hbm, hrest, hflags, hcut]

/-- **What is written is read back (R145, R150, R153).** -/
theorem readContainer_containerBytes (magic : List Byte) (m : BarchImage) (extra : List Byte) (hw : m.width.toNat ≠ 0)
    (hh : m.height.toNat ≠ 0) (hc : m.countsAgree = true)
    (hl : ∀ p ∈ m.flags.zip m.lines, lineExact m.width.toNat p.1 p.2) :
    readContainer magic (containerBytes magic m ++ extra) = .ok m := by
  obtain ⟨hf, -⟩ := BarchImage.counts hc
  refine readContainer_containerWith magic _ m extra hw hh hc (flagBytes_length _ _) ?_ hl
  rw [← flagsOfBytes_eq_take (by rw [flagBytes_length, ceilDiv]; omega), ← hf]
  exact flagsOfBytes_flagBytes m.flags

/-- **A container cut short is rejected (R152),** its bitmap any bytes that begin with the flags (R153). -/
theorem readContainer_truncated (magic bitmap : List Byte) (m : BarchImage) (n : Nat) (hw : m.width.toNat ≠ 0)
    (hh : m.height.toNat ≠ 0) (hc : m.countsAgree = true) (hb : bitmap.length = ceilDiv m.height.toNat 8)
    (hbits : (bitsOfBytes bitmap).take m.height.toNat = m.flags)
    (hl : ∀ p ∈ m.flags.zip m.lines, lineExact m.width.toNat p.1 p.2) (hn : n < (containerWith magic bitmap m).length) :
    readContainer magic ((containerWith magic bitmap m).take n) = .error .malformedContainer := by
  obtain ⟨h1, h2, h3⟩ := containerWith_head magic bitmap m []
  rw [List.append_nil] at h1 h2 h3
  obtain ⟨hf, hll⟩ := BarchImage.counts hc
  have hlen := containerWith_length magic bitmap m
  unfold readContainer
  split
  · rename_i hm
    have hle : magic.length + 8 ≤ n := by rw [List.length_take] at hm; omega
    have e2 : headerWidth magic ((containerWith magic bitmap m).take n) = headerWidth magic (containerWith magic bitmap m) := by
      unfold headerWidth; rw [List.drop_take, List.take_take]; congr 2; omega
    have e3 : headerHeight magic ((containerWith magic bitmap m).take n) = headerHeight magic (containerWith magic bitmap m) := by
      unfold headerHeight; rw [List.drop_take, List.take_take]; congr 2; omega
    simp only [e2, e3, h2, h3]
    rw [if_neg (by simp [hw, hh])]
    split
    · rfl
    · rename_i hlt
      rw [List.length_take] at hlt
      have hbm : (((containerWith magic bitmap m).take n).drop (magic.length + 8)).take (ceilDiv m.height.toNat 8) =
          bitmap := by
        rw [List.drop_take, List.take_take, show min (ceilDiv m.height.toNat 8) (n - (magic.length + 8)) = ceilDiv m.height.toNat 8 by omega]
        rw [show magic.length + 8 = magic.length + (4 + 4) from rfl, ← List.drop_drop, ← List.drop_drop]
        simp only [containerWith, List.append_assoc]
        rw [List.drop_left' rfl, drop_bytesOfU32, drop_bytesOfU32, List.take_left' hb]
      have hrest : ((containerWith magic bitmap m).take n).drop (magic.length + 8 + ceilDiv m.height.toNat 8) =
          m.lines.flatten.take (n - (magic.length + 8 + ceilDiv m.height.toNat 8)) := by
        rw [List.drop_take]
        congr 1
        rw [show magic.length + 8 + ceilDiv m.height.toNat 8 = magic.length + (4 + (4 + ceilDiv m.height.toNat 8)) by omega,
          ← List.drop_drop, ← List.drop_drop, ← List.drop_drop]
        simp only [containerWith, List.append_assoc]
        rw [List.drop_left' rfl, drop_bytesOfU32, drop_bytesOfU32, List.drop_left' hb]
      obtain ⟨z1, z2⟩ := zip_fst_snd (hf.trans hll.symm)
      have hcut := cutRows_short hl (n := n - (magic.length + 8 + ceilDiv m.height.toNat 8)) (by rw [z2]; omega)
      rw [z1, z2] at hcut
      have hflags : flagsOfBytes bitmap m.height.toNat = m.flags := by
        rw [flagsOfBytes_eq_take (by rw [hb, ceilDiv]; omega), hbits]
      rw [hbm, hrest, hflags, hcut]
  · rfl

/-! ### Errors -/

theorem next_ok_ne_error {s t : State} {e : ErrorKind} (h : (.next s : Host.Outcome State Fault Refusal) = .next t)
    (he : t.results.status = .error e) (hs : s.results.status = .ok) : False := by
  cases h; rw [hs] at he; cases he

/-- **An error ends every command in the shared entry (R175),** made of the state it started in with its operands latched;
only BR.PULL keeps the BitReader. -/
theorem exec_error {i : Instr} {s t : State} {e : ErrorKind} (hc : i.isCommand = true) (h : exec i s = .next t)
    (he : t.results.status = .error e) :
    (i ≠ .brPull ∧ ∃ l, LatchedBy i s l ∧ t = { s with latched := l }.errorEntry e) ∨
      (i = .brPull ∧ t = s.errorEntryKeepingReader e) := by
  cases i <;> try (cases hc; done)
  case bwReset => exact (next_ok_ne_error h he rfl).elim
  case bwPush =>
    simp only [exec, execBwPush] at h; split at h
    · split at h
      · exact (next_ok_ne_error h he rfl).elim
      · cases h
    · cases h
  case bwFlush => exact (next_ok_ne_error h he rfl).elim
  case brOpen => exact (next_ok_ne_error h he rfl).elim
  case brPull =>
    simp only [exec, execBrPull] at h; split at h
    · split at h
      · exact (next_ok_ne_error h he rfl).elim
      · cases h; cases he; exact .inr ⟨rfl, rfl⟩
      · cases h
      · cases h
    · cases h
  case classify =>
    by_cases hl : s.src.length = s.operands.width.toNat
    · rw [execClassify_eq s hl] at h; exact (next_ok_ne_error h he rfl).elim
    · simp only [exec, execClassify, hl, if_false] at h; cases h
  case encodeRow =>
    left; refine ⟨by simp, ?_⟩
    by_cases h0 : s.operands.width.toNat = 0
    · simp only [exec, execEncodeRow, h0, if_true] at h; cases h; cases he
      exact ⟨_, by simp [LatchedBy], rfl⟩
    · by_cases hl : s.src.length = s.operands.width.toNat
      · obtain ⟨u, hu, -⟩ := execEncodeRow_spec s hl h0
        rw [hu] at h; exact (next_ok_ne_error h he rfl).elim
      · simp only [exec, execEncodeRow, h0, if_false, hl] at h; cases h
  case decodeRow =>
    left; refine ⟨by simp, ?_⟩
    by_cases h0 : s.operands.width.toNat = 0
    · simp only [exec, execDecodeRow, h0, if_true] at h; cases h; cases he
      exact ⟨_, by simp [LatchedBy], rfl⟩
    · have hsp := execDecodeRow_spec s h0
      split at hsp
      · obtain ⟨b, hb, -⟩ := hsp
        rw [hb] at h; exact (next_ok_ne_error h he rfl).elim
      · rw [hsp] at h; cases h; cases he; exact ⟨_, by simp [LatchedBy], rfl⟩
  case encodeImage =>
    left; refine ⟨by simp, ?_⟩
    by_cases hw : s.operands.raster.width.toNat = 0 ∨ s.operands.raster.height.toNat = 0
    · simp only [exec, execEncodeImage, hw, if_true] at h; cases h; cases he; exact ⟨_, by simp [LatchedBy], rfl⟩
    · by_cases hd : s.operands.depth = 8
      · by_cases hs : s.operands.raster.wellShaped = true
        · obtain ⟨u, lines, hu, -⟩ := execEncodeImage_spec s (by tauto) (by tauto) hd hs
          rw [hu] at h; exact (next_ok_ne_error h he rfl).elim
        · simp only [exec, execEncodeImage, hw, if_false, Config.depth8, hd, hs, ne_eq, not_true_eq_false] at h; cases h
      · simp only [exec, execEncodeImage, hw, if_false, Config.depth8, hd, ne_eq, not_false_eq_true, if_true] at h
        cases h; cases he; exact ⟨_, by simp [LatchedBy], rfl⟩
  case decodeImage =>
    left; refine ⟨by simp, ?_⟩
    by_cases hw : s.operands.barch.width.toNat = 0 ∨ s.operands.barch.height.toNat = 0
    · simp only [exec, execDecodeImage, hw, if_true] at h; cases h; cases he; exact ⟨_, by simp [LatchedBy], rfl⟩
    · by_cases hc : s.operands.barch.countsAgree = true
      · have hsp := execDecodeImage_spec s (by tauto) (by tauto) hc
        split at hsp
        · obtain ⟨u, hu, -⟩ := hsp
          rw [hu] at h; exact (next_ok_ne_error h he rfl).elim
        · rw [hsp] at h; cases h; cases he; exact ⟨_, by simp [LatchedBy], rfl⟩
      · simp only [exec, execDecodeImage, hw, if_false, hc] at h; cases h; cases he; exact ⟨_, by simp [LatchedBy], rfl⟩
  case serialize =>
    left; refine ⟨by simp, ?_⟩
    simp only [exec, execSerialize] at h
    split at h
    · cases h; cases he; exact ⟨_, by simp [LatchedBy], rfl⟩
    · split at h
      · split at h
        · exact (next_ok_ne_error h he rfl).elim
        · cases h; cases he; exact ⟨_, by simp [LatchedBy], rfl⟩
      · cases h; cases he; exact ⟨_, by simp [LatchedBy], rfl⟩
  case deserialize =>
    left; refine ⟨by simp, ?_⟩
    have hsp := execDeserialize_spec s
    split at hsp
    · obtain ⟨u, hu, -⟩ := hsp
      rw [hu] at h; exact (next_ok_ne_error h he rfl).elim
    · obtain ⟨l, hl, hu⟩ := hsp
      rw [hu] at h; cases h; cases he; exact ⟨_, hl, rfl⟩

end Sys2Proof.Machine
end

