-- ==== Sys2Proof/Laws/PerInstr.lean ====
section
/-! SUPPORT. The family TableRow: the encoding of every instruction is the one spec/opcode_table.json gives it, its width,
its match under its mask, and the decoder reads it back. -/

namespace Sys2Proof.Laws

/-- Width, match and mask of the opcode table's row of an instruction. -/
def tableRow : Instr → Nat × Nat × Nat
  | .white => (1, 0x0, 0x1)
  | .black => (2, 0x2, 0x3)
  | .lit1 _ => (10, 0x300, 0x300)
  | .lit2 _ _ => (18, 0x30000, 0x30000)
  | .lit3 _ _ _ => (26, 0x3000000, 0x3000000)
  | .lit4 _ _ _ _ => (34, 0x300000000, 0x300000000)
  | .bwReset => (4, 0x1, 0xF)
  | .bwPush => (4, 0x2, 0xF)
  | .bwFlush => (4, 0x3, 0xF)
  | .brOpen => (4, 0x4, 0xF)
  | .brPull => (4, 0x5, 0xF)
  | .classify => (4, 0x6, 0xF)
  | .encodeRow => (4, 0x7, 0xF)
  | .decodeRow => (4, 0x8, 0xF)
  | .encodeImage => (4, 0x9, 0xF)
  | .decodeImage => (4, 0xA, 0xF)
  | .serialize => (4, 0xB, 0xF)
  | .deserialize => (4, 0xC, 0xF)

/-- A code as the table numbers its bits: how many, and the word they make. -/
def codeWord : Code → Nat × Nat
  | .command cmd => (4, cmd.toNat)
  | .symbol bits => (bits.length, natOfBits bits)

/-- The instruction's word has its row's width, shows the row's match under its mask, and decodes to the instruction. -/
def TableRow.Statement (i : Instr) : Prop :=
  (codeWord (encode i)).1 = (tableRow i).1 ∧
  (codeWord (encode i)).2 &&& (tableRow i).2.2 = (tableRow i).2.1 ∧
  decodeTableWord (tableRow i).1 (codeWord (encode i)).2 = some i

/-- A literal's word: the prefix `11` above the bits of its samples. -/
theorem natOfBits_literal (bits : Bits) :
    natOfBits (true :: true :: bits) = 2 ^ bits.length * 3 + natOfBits bits := by
  rw [show true :: true :: bits = [true, true] ++ bits from rfl, natOfBits_append, Nat.mul_comm]; rfl

/-- Under the mask of its two prefix bits a literal's word shows `11`. -/
theorem literal_masked (n x : Nat) (h : x < 2 ^ n) : (2 ^ n * 3 + x) &&& (2 ^ n * 3) = 2 ^ n * 3 := by
  apply Nat.eq_of_testBit_eq
  intro i
  rw [Nat.testBit_and, Nat.testBit_two_pow_mul_add _ h, Nat.testBit_two_pow_mul]
  by_cases hi : i < n
  · simp [hi, Nat.not_le.mpr hi]
  · simp [hi, Nat.not_lt.mp hi]

theorem symbolWord_natOfBits (bits : Bits) : symbolWord bits.length (natOfBits bits) = some (.symbol bits) := by
  rw [symbolWord, if_pos (natOfBits_lt bits), fieldBits_natOfBits]

/-- The three clauses for a literal of the samples `xs`. -/
theorem TableRow.literal {xs : List Byte} {i : Instr} (h : literalOf xs = some i)
    (hrow : tableRow i = (2 + 8 * xs.length, 2 ^ (8 * xs.length) * 3, 2 ^ (8 * xs.length) * 3))
    (henc : encode i = .symbol (true :: true :: bitsOfBytes xs))
    (hcode : ∀ w, tableCode (2 + 8 * xs.length) w = (symbolWord (2 + 8 * xs.length) w).map (xs.length, ·)) :
    TableRow.Statement i := by
  have hlen : (true :: true :: bitsOfBytes xs).length = 2 + 8 * xs.length := by simp; omega
  have hlt := natOfBits_lt (bitsOfBytes xs)
  rw [bitsOfBytes_length] at hlt
  have hdec := decodeSymbol_literal h []
  rw [List.append_nil] at hdec
  refine ⟨by rw [henc, hrow, codeWord, hlen], ?_, ?_⟩
  · rw [henc, hrow, codeWord, natOfBits_literal, bitsOfBytes_length]
    exact literal_masked _ _ hlt
  · rw [henc, hrow, codeWord, decodeTableWord]
    simp only
    rw [hcode, ← hlen, symbolWord_natOfBits]
    simp [decode, hdec]

theorem TableRow.white : TableRow.Statement .white := ⟨rfl, rfl, rfl⟩
theorem TableRow.black : TableRow.Statement .black := ⟨rfl, rfl, rfl⟩
theorem TableRow.lit1 (a : Byte) : TableRow.Statement (.lit1 a) :=
  TableRow.literal (xs := [a]) rfl (by simp [tableRow]) rfl (fun _ => by simp [tableCode])
theorem TableRow.lit2 (a b : Byte) : TableRow.Statement (.lit2 a b) :=
  TableRow.literal (xs := [a, b]) rfl (by simp [tableRow]) rfl (fun _ => by simp [tableCode])
theorem TableRow.lit3 (a b c : Byte) : TableRow.Statement (.lit3 a b c) :=
  TableRow.literal (xs := [a, b, c]) rfl (by simp [tableRow]) rfl (fun _ => by simp [tableCode])
theorem TableRow.lit4 (a b c d : Byte) : TableRow.Statement (.lit4 a b c d) :=
  TableRow.literal (xs := [a, b, c, d]) rfl (by simp [tableRow]) rfl (fun _ => by simp [tableCode])
theorem TableRow.bwReset : TableRow.Statement .bwReset := ⟨rfl, rfl, rfl⟩
theorem TableRow.bwPush : TableRow.Statement .bwPush := ⟨rfl, rfl, rfl⟩
theorem TableRow.bwFlush : TableRow.Statement .bwFlush := ⟨rfl, rfl, rfl⟩
theorem TableRow.brOpen : TableRow.Statement .brOpen := ⟨rfl, rfl, rfl⟩
theorem TableRow.brPull : TableRow.Statement .brPull := ⟨rfl, rfl, rfl⟩
theorem TableRow.classify : TableRow.Statement .classify := ⟨rfl, rfl, rfl⟩
theorem TableRow.encodeRow : TableRow.Statement .encodeRow := ⟨rfl, rfl, rfl⟩
theorem TableRow.decodeRow : TableRow.Statement .decodeRow := ⟨rfl, rfl, rfl⟩
theorem TableRow.encodeImage : TableRow.Statement .encodeImage := ⟨rfl, rfl, rfl⟩
theorem TableRow.decodeImage : TableRow.Statement .decodeImage := ⟨rfl, rfl, rfl⟩
theorem TableRow.serialize : TableRow.Statement .serialize := ⟨rfl, rfl, rfl⟩
theorem TableRow.deserialize : TableRow.Statement .deserialize := ⟨rfl, rfl, rfl⟩

end Sys2Proof.Laws
end

