-- ==== Sys2Proof/Laws/Run.lean ====
section
/-! SUPPORT. All a step can do, one lemma for each, and runs of several steps, cut and joined. -/

namespace Sys2Proof.Machine

/-! ### One step -/

/-- No reset cuts what runs, unless the host's next move is one that does not wait (R194). -/
theorem cutRest_eq_none {moves : List HostMove} : cutRest moves = none ↔ moves.head? ≠ some .resetNow := by
  match moves with
  | [] => simp [cutRest]
  | .issue _ _ :: _ => simp [cutRest]
  | .reset :: _ => simp [cutRest]
  | .resetNow :: _ => simp [cutRest]

/-- With nothing to do the core waits (R190). -/
theorem step_wait {s : State} (hp : s.phase = .idle) (hi : s.inbox = []) : step s = .next s := by
  simp only [step, fetch, nextMove, hp, hi]

/-! ### The host's operand writes -/

@[simp] theorem lastWrite_nil {α : Type} (pick : OperandWrite → Option α) (old : α) : lastWrite pick [] old = old := rfl

/-- SRC and the operand registers hold what was written to them last. -/
theorem applyWrites_operands (ws : List OperandWrite) (s : State) :
    (s.applyWrites ws).src = lastWrite OperandWrite.src? ws s.src ∧
    (s.applyWrites ws).operands =
      { value := lastWrite OperandWrite.value? ws s.operands.value
        nbits := lastWrite OperandWrite.nbits? ws s.operands.nbits
        width := lastWrite OperandWrite.width? ws s.operands.width
        depth := lastWrite OperandWrite.depth? ws s.operands.depth
        raster := lastWrite OperandWrite.raster? ws s.operands.raster
        barch := lastWrite OperandWrite.barch? ws s.operands.barch } := by
  induction ws generalizing s with
  | nil => exact ⟨rfl, rfl⟩
  | cons w ws ih =>
    have h := ih (s.applyWrite w)
    rw [show s.applyWrites (w :: ws) = (s.applyWrite w).applyWrites ws from rfl, h.1, h.2]
    cases w <;> simp only [lastWrite, List.filterMap_cons, List.getLastD_cons, State.applyWrite, and_self, OperandWrite.value?,
      OperandWrite.nbits?, OperandWrite.width?, OperandWrite.depth?, OperandWrite.src?, OperandWrite.raster?, OperandWrite.barch?]

/-- A command that no reset cuts runs on the state its operand writes leave (R10). -/
theorem step_issue {s : State} {writes : List OperandWrite} {cmd : BitVec 4} {rest : List HostMove} {i : Instr}
    (ha : Accepting s) (hi : s.inbox = .issue writes cmd :: rest) (hr : rest.head? ≠ some .resetNow)
    (hd : decodeCommand cmd = .ok i) : step s = exec i ({ s with inbox := rest }.applyWrites writes) := by
  simp only [step, fetch, nextMove, acceptCommand, ha.1, ha.2, hi, hd, cutRest_eq_none.mpr hr, Bool.false_eq_true, if_false]

/-- An open row that no reset cuts takes its next symbol step (R116). -/
theorem step_open {s : State} (hp : s.phase = .decoding) (hr : s.inbox.head? ≠ some .resetNow) :
    step s = match fetchSymbol s.src s.windowSize s.reader with
      | .ok (i, b) => exec i { s with reader := b }
      | .error x => finish s (.error x) := by
  simp only [step, fetch, hp, cutRest_eq_none.mpr hr, fetchInRow]
  cases fetchSymbol s.src s.windowSize s.reader <;> rfl

/-- Reset between commands (R190). -/
theorem step_reset {s : State} {rest : List HostMove} (hp : s.phase = .idle)
    (hi : s.inbox = .reset :: rest ∨ s.inbox = .resetNow :: rest) : step s = .next (s.resetMove rest) := by
  rcases hi with h | h <;> simp only [step, fetch, nextMove, hp, h]

/-- Reset inside a command, or between two symbols of an open row (R194). -/
theorem step_cut {s : State} {rest : List HostMove}
    (h : (s.phase = .decoding ∧ s.inbox = .resetNow :: rest) ∨
      (Accepting s ∧ ∃ writes cmd i, decodeCommand cmd = .ok i ∧ s.inbox = .issue writes cmd :: .resetNow :: rest)) :
    step s = .next (s.resetCut rest) := by
  rcases h with ⟨hp, hi⟩ | ⟨ha, writes, cmd, i, hd, hi⟩
  · simp only [step, fetch, hp, hi, cutRest]
  · simp only [step, fetch, nextMove, acceptCommand, ha.1, ha.2, hi, hd, cutRest, Bool.false_eq_true, if_false]
    rfl

/-- **All a step can do.** It waits, resets, cuts what runs, runs a command or a symbol, or ends an open row by an error. -/
theorem step_cases {s t : State} (h : step s = .next t) :
    (s.phase = .idle ∧ s.inbox = [] ∧ t = s) ∨
    (∃ rest, s.phase = .idle ∧ t = s.resetMove rest) ∨
    (∃ rest, t = s.resetCut rest) ∨
    (∃ writes cmd rest i, Accepting s ∧ s.inbox = .issue writes cmd :: rest ∧ rest.head? ≠ some .resetNow ∧
      decodeCommand cmd = .ok i ∧ exec i ({ s with inbox := rest }.applyWrites writes) = .next t) ∨
    (∃ i b, s.phase = .decoding ∧ s.inbox.head? ≠ some .resetNow ∧
      fetchSymbol s.src s.windowSize s.reader = .ok (i, b) ∧ exec i { s with reader := b } = .next t) ∨
    (∃ e, s.phase = .decoding ∧ s.inbox.head? ≠ some .resetNow ∧
      fetchSymbol s.src s.windowSize s.reader = .error (.raised e) ∧ t = s.errorEntry e) := by
  by_cases hp : s.phase = .idle
  · cases hi : s.inbox with
    | nil => rw [step_wait hp hi] at h; cases h; exact .inl ⟨hp, rfl, rfl⟩
    | cons m rest =>
      cases m with
      | reset => rw [step_reset hp (.inl hi)] at h; cases h; exact .inr (.inl ⟨rest, hp, rfl⟩)
      | resetNow => rw [step_reset hp (.inr hi)] at h; cases h; exact .inr (.inl ⟨rest, hp, rfl⟩)
      | issue writes cmd =>
        by_cases ha : s.aborted = true
        · simp only [step, fetch, nextMove, acceptCommand, hp, hi, ha, if_true, finish, reduceCtorEq] at h
        · have ha : s.aborted = false := by simpa using ha
          cases hd : decodeCommand cmd with
          | error r =>
            simp only [step, fetch, nextMove, acceptCommand, hp, hi, ha, hd, Bool.false_eq_true, if_false, finish,
              reduceCtorEq] at h
          | ok i =>
            by_cases hr : rest.head? = some .resetNow
            · obtain ⟨rest', rfl⟩ := List.head?_eq_some_iff.mp hr
              rw [step_cut (.inr ⟨⟨hp, ha⟩, writes, cmd, i, hd, hi⟩)] at h
              cases h
              exact .inr (.inr (.inl ⟨rest', rfl⟩))
            · rw [step_issue ⟨hp, ha⟩ hi hr hd] at h
              exact .inr (.inr (.inr (.inl ⟨writes, cmd, rest, i, ⟨hp, ha⟩, rfl, hr, hd, h⟩)))
  · have hp : s.phase = .decoding := by cases hs : s.phase <;> simp_all
    by_cases hr : s.inbox.head? = some .resetNow
    · obtain ⟨rest, hi⟩ := List.head?_eq_some_iff.mp hr
      rw [step_cut (.inl ⟨hp, hi⟩)] at h
      cases h
      exact .inr (.inr (.inl ⟨rest, rfl⟩))
    · rw [step_open hp hr] at h
      split at h
      · exact .inr (.inr (.inr (.inr (.inl ⟨_, _, hp, hr, ‹_›, h⟩))))
      · rename_i x hf
        cases x with
        | raised e => cases h; exact .inr (.inr (.inr (.inr (.inr ⟨e, hp, hr, hf, rfl⟩))))
        | abort r => cases h
        | fault f => cases h

/-- The registers of R29 after either reset (R190, R194). -/
theorem RegistersAtReset.resetMove (s : State) (rest : List HostMove) : RegistersAtReset (s.resetMove rest) := by
  simp [RegistersAtReset, State.reset]

theorem RegistersAtReset.resetCut (s : State) (rest : List HostMove) : RegistersAtReset (s.resetCut rest) := by
  simp [RegistersAtReset, State.reset]

/-! ### Runs -/

theorem run_zero (s : State) : run 0 s = .next s := rfl

/-- A run takes one step and goes on from where it leads. -/
theorem run_step (n : Nat) (s : State) :
    run (n + 1) s = match step s with
      | .next t => run n t
      | .fault f => .fault f
      | .refused r => .refused r := by
  cases h : step s <;> simp only [run, Host.Core.run, show Sys2Proof.core.step s = _ from h] <;> rfl

theorem run_succ {n : Nat} {s t : State} (h : step s = .next t) : run (n + 1) s = run n t := by rw [run_step, h]

/-- A run of `m + n` steps is a run of `m`, then one of `n`. -/
theorem run_add {m : Nat} (n : Nat) {s t : State} (h : run m s = .next t) : run (m + n) s = run n t := by
  induction m generalizing s with
  | zero => cases h; rw [Nat.zero_add]
  | succ m ih =>
    rw [run_step] at h
    rw [show m + 1 + n = (m + n) + 1 by omega, run_step]
    split at h
    · exact ih h
    · cases h
    · cases h

end Sys2Proof.Machine
end

