-- ==== Sys2Proof/Tests/Slice0.lean ====
section
/-! SUPPORT. Tests: words written out from the spec's tables, ill-formed terms, one step per instruction on the vectors of
spec/95_test_vectors.md, and one named witness for every obligation that has hypotheses. -/

namespace Sys2Proof.Tests

open Sys2Proof.Machine

/-! ### Small states -/

/-- The state a step answers, if it answers one. -/
def done : Host.Outcome State Fault Refusal → Option State
  | .next t => some t
  | .fault _ => none
  | .refused _ => none

/-- Reset with the illustrative MAGIC of spec/95_test_vectors.md. -/
def base : State := { State.reset with magic := [0x4D, 0x41, 0x47, 0x49, 0x43] }

/-- The operands of BW.PUSH and a BitWriter. -/
def pushing (acc : Byte) (free : Nat) (v : Byte) (n : BitVec 4) : State :=
  { base with writer := { acc := acc, free := free }, operands := { base.operands with value := v, nbits := n } }

/-- An input buffer and a width. -/
def withRow (bytes : List Byte) (w : U32) : State :=
  { base with src := bytes, operands := { base.operands with width := w } }

/-- An open BitReader on a buffer, about to pull `n` bits. -/
def pulling (bytes : List Byte) (b : BitReader) (n : BitVec 4) : State :=
  { base with src := bytes, reader := b, operands := { base.operands with nbits := n } }

/-- An open row of `w` samples at the first bit of `bytes`. -/
def opened (bytes : List Byte) (w : U32) : State := openRow w.toNat (withRow bytes w).latchWidth

/-- A RasterImage operand and a depth. -/
def withRaster (m : RasterImage) (d : Byte) : State :=
  { base with operands := { base.operands with raster := m, depth := d } }

/-- A BarchImage operand. -/
def withBarch (m : BarchImage) : State := { base with operands := { base.operands with barch := m } }

/-- The host's next moves. -/
def issuing (moves : List HostMove) : State := { base with inbox := moves }

/-- The image of T-K4. -/
def rasterK4 : RasterImage :=
  { width := 8, height := 2, rows := [List.replicate 8 0xFF, [0x10, 0x20, 0x30, 0x40, 0x50, 0x60, 0x70, 0x80]] }

/-- Its BarchImage (T-K4). -/
def barchK4 : BarchImage :=
  { width := 8, height := 2, flags := [true, false], lines := [[0x00], [0x10, 0x20, 0x30, 0x40, 0x50, 0x60, 0x70, 0x80]] }

/-- Its container (T-K4). -/
def bytesK4 : List Byte :=
  [0x4D, 0x41, 0x47, 0x49, 0x43, 8, 0, 0, 0, 2, 0, 0, 0, 0x80, 0x00, 0x10, 0x20, 0x30, 0x40, 0x50, 0x60, 0x70, 0x80]

/-! ### Decoding (words from spec/opcode_table.json) -/

theorem test_decode_white : decodeTableWord 1 0b0 = some .white := by decide
theorem test_decode_black : decodeTableWord 2 0b10 = some .black := by decide
theorem test_decode_lit1 : decodeTableWord 10 0b1101011010 = some (.lit1 0x5A) := by decide
theorem test_decode_lit2 : decodeTableWord 18 0b110001001000110100 = some (.lit2 0x12 0x34) := by decide
theorem test_decode_lit3 : decodeTableWord 26 0b11100000001111111100000001 = some (.lit3 0x80 0xFF 0x01) := by decide
theorem test_decode_lit4 : decodeTableWord 34 0b1110000000111111110000000001111111 = some (.lit4 0x80 0xFF 0x00 0x7F) := by
  decide
theorem test_decode_bwReset : decodeTableWord 4 0b0001 = some .bwReset := by decide
theorem test_decode_bwPush : decodeTableWord 4 0b0010 = some .bwPush := by decide
theorem test_decode_bwFlush : decodeTableWord 4 0b0011 = some .bwFlush := by decide
theorem test_decode_brOpen : decodeTableWord 4 0b0100 = some .brOpen := by decide
theorem test_decode_brPull : decodeTableWord 4 0b0101 = some .brPull := by decide
theorem test_decode_classify : decodeTableWord 4 0b0110 = some .classify := by decide
theorem test_decode_encodeRow : decodeTableWord 4 0b0111 = some .encodeRow := by decide
theorem test_decode_decodeRow : decodeTableWord 4 0b1000 = some .decodeRow := by decide
theorem test_decode_encodeImage : decodeTableWord 4 0b1001 = some .encodeImage := by decide
theorem test_decode_decodeImage : decodeTableWord 4 0b1010 = some .decodeImage := by decide
theorem test_decode_serialize : decodeTableWord 4 0b1011 = some .serialize := by decide
theorem test_decode_deserialize : decodeTableWord 4 0b1100 = some .deserialize := by decide

/-- The unassigned codes of R61, and a word that is no symbol of its width. -/
theorem test_decode_refuses : ([0x0, 0xD, 0xE, 0xF].map (decodeTableWord 4)) = [none, none, none, none] ∧
    decodeTableWord 2 0b11 = none ∧ decodeTableWord 10 0b1001011010 = none := by decide

/-! ### Ill-formed terms are refused -/

theorem test_wellFormed_window : (Instr.lit2 0 0).fitsWindow 3 = false ∧ Instr.white.fitsWindow 0 = false ∧
    Instr.black.fitsWindow 5 = false ∧ Instr.white.wellFormed 5 = false ∧ Instr.bwPush.wellFormed 5 = true := by decide
theorem test_wellFormed_bitCount : legalBitCount 0 = false ∧ legalBitCount 9 = false ∧ legalBitCount 8 = true := by decide
theorem test_wellFormed_raster :
    RasterImage.wellShaped { width := 2, height := 1, rows := [[1]] } = false ∧
    RasterImage.wellShaped { width := 1, height := 2, rows := [[1]] } = false := by decide
theorem test_wellFormed_barch :
    BarchImage.countsAgree { width := 8, height := 2, flags := [true], lines := [[0]] } = false ∧
    BarchImage.wellShaped { width := 8, height := 1, flags := [false], lines := [[0]] } = false ∧
    rawLineFits 8 false [0] = false ∧ rawLineFits 8 true [0] = true := by decide

/-! ### One step of each instruction -/

/-- Program 4, step 1. -/
theorem test_white : (done (exec .white (opened [0x5C] 13))).map (fun t => (t.dst, t.rem)) =
    some ([0xFF, 0xFF, 0xFF, 0xFF], 9) := by decide
/-- Program 4, step 2, from `rem = 3`: a BLACK for a short window stands for `rem` samples (R118). -/
theorem test_black : (done (exec .black (opened [0x80] 3))).map (fun t => (t.dst, t.rem, t.phase, t.results.status)) =
    some ([0, 0, 0], 0, .idle, .ok) := by decide
theorem test_lit1 : (done (exec (.lit1 0x01) (opened [0xC0, 0x40] 1))).map (fun t => (t.dst, t.rem)) = some ([0x01], 0) := by
  decide
theorem test_lit2 : (done (exec (.lit2 0x12 0x34) (opened [] 2))).map (fun t => (t.dst, t.rem)) = some ([0x12, 0x34], 0) := by
  decide
theorem test_lit3 : (done (exec (.lit3 1 2 3) (opened [] 3))).map (fun t => (t.dst, t.rem)) = some ([1, 2, 3], 0) := by
  decide
/-- Program 4, step 3. -/
theorem test_lit4 : (done (exec (.lit4 0x80 0xFF 0x00 0x7F) (opened [] 5))).map (fun t => (t.dst, t.rem, t.phase)) =
    some ([0x80, 0xFF, 0x00, 0x7F], 1, .decoding) := by decide
/-- T-B8. -/
theorem test_bwReset : (done (exec .bwReset { pushing 0xB0 4 0 1 with dst := [1, 2, 3] })).map
    (fun t => (t.dst, t.writer.acc, t.writer.free, t.results.resByteValid)) = some ([], 0x00, 8, false) := by decide
/-- T-B1, step 4: a push across a byte boundary. -/
theorem test_bwPush_straddles : (done (exec .bwPush (pushing 0xB0 4 0x1F 5))).map
    (fun t => (t.dst, t.writer.acc, t.writer.free, t.results.resByte)) = some ([0xBF], 0x80, 7, 0xBF) := by decide
/-- T-B3: the upper bits of `value` are ignored. -/
theorem test_bwPush_masks : (done (exec .bwPush (pushing 0x00 8 0xFE 1))).map
    (fun t => (t.dst, t.writer.acc, t.writer.free, t.results.resByteValid)) = some ([], 0x00, 7, false) := by decide
/-- T-B1, steps 8 and 9. -/
theorem test_bwFlush : (done (exec .bwFlush (pushing 0x80 7 0 1))).map (fun t => (t.dst, t.writer.acc, t.writer.free)) =
    some ([0x80], 0x00, 8) := by decide
theorem test_bwFlush_empty : (done (exec .bwFlush (pushing 0x00 8 0 1))).map (fun t => (t.dst, t.results.resByteValid)) =
    some ([], false) := by decide
theorem test_brOpen : (done (exec .brOpen (pulling [0x58] { cur := 0x91, avail := 3, rdPos := 2 } 1))).map
    (fun t => (t.reader.avail, t.reader.rdPos)) = some (0, 0) := by decide
/-- T-B10, step 5: eight bits across a byte boundary. -/
theorem test_brPull : (done (exec .brPull (pulling [0x58, 0x91, 0xA0] { cur := 0x58, avail := 3, rdPos := 1 } 8))).map
    (fun t => (t.results.resBits, t.reader.rdPos, t.reader.avail)) = some (0x12, 2, 3) := by decide
/-- T-B11: an underrun leaves the reader as it was. -/
theorem test_brPull_underrun : (done (exec .brPull (pulling [0xB5, 0xA0] { cur := 0xA0, avail := 4, rdPos := 2 } 5))).map
    (fun t => (t.results.status, t.reader.rdPos, t.reader.avail)) = some (.error .decodeUnderrun, 2, 4) := by decide
/-- T-C5: batches start at any column. -/
theorem test_classify : (done (exec .classify
    (withRow [0xFF, 0xFF, 0xFF, 0, 0, 0, 0, 0xFF, 0xFF, 0xFF, 0xFF] 11))).map
    (fun t => (t.results.resFlag, t.counters.wbat, t.counters.bbat)) = some (true, 1, 1) := by decide
/-- U14 (93_implementation_defined.md): bits pending before a higher command are lost. -/
theorem test_classify_loses_pending : (done (exec .classify { withRow [] 0 with writer := { acc := 0xB0, free := 4 } })).map
    (fun t => t.writer) = some { acc := 0, free := 8 } := by decide
/-- T-C6. -/
theorem test_classify_gray : (done (exec .classify
    (withRow [0xFF, 0xFF, 0xFF, 0x80, 0xFF, 0xFF, 0xFF, 0xFF, 0, 0, 0] 11))).map
    (fun t => (t.results.resFlag, t.counters.brun)) = some (false, 3) := by decide
/-- T-E5. -/
theorem test_encodeRow : (done (exec .encodeRow (withRow [0xFF, 0xFF, 0xFF, 0xFF, 0, 0, 0, 0, 0x12, 0x34] 10))).map
    (fun t => (t.dst, t.writer.free, t.window.col)) = some ([0x58, 0x91, 0xA0], 8, 12) := by decide
/-- T-E8: a short window of white samples is a literal. -/
theorem test_encodeRow_short : (done (exec .encodeRow (withRow [0xFF, 0xFF, 0xFF, 0xFF, 0xFF] 5))).map (fun t => t.dst) =
    some [0x7F, 0xE0] := by decide
/-- The row of T-E5 read back. -/
theorem test_decodeRow : (done (exec .decodeRow (withRow [0x58, 0x91, 0xA0] 10))).map (fun t => (t.dst, t.results.resConsumed)) =
    some ([0xFF, 0xFF, 0xFF, 0xFF, 0, 0, 0, 0, 0x12, 0x34], 3) := by decide
/-- T-X16. -/
theorem test_decodeRow_underrun : (done (exec .decodeRow (withRow [0x00] 33))).map (fun t => t.results.status) =
    some (.error .decodeUnderrun) := by decide
/-- T-K4. -/
theorem test_encodeImage : (done (exec .encodeImage (withRaster rasterK4 8))).map (fun t => t.results.resBarch) =
    some barchK4 := by decide
/-- T-X11: the dimensions are checked before the depth. -/
theorem test_encodeImage_dimensions : (done (exec .encodeImage (withRaster { width := 0, height := 0, rows := [] } 7))).map
    (fun t => t.results.status) = some (.error .invalidDimensions) := by decide
theorem test_decodeImage : (done (exec .decodeImage (withBarch barchK4))).map (fun t => t.results.resRaster) =
    some rasterK4 := by decide
/-- T-X15. -/
theorem test_decodeImage_raw : (done (exec .decodeImage
    (withBarch { width := 8, height := 1, flags := [false], lines := [[0]] }))).map (fun t => t.results.status) =
    some (.error .malformedContainer) := by decide
theorem test_serialize : (done (exec .serialize (withBarch barchK4))).map (fun t => t.dst) = some bytesK4 := by decide
theorem test_deserialize : (done (exec .deserialize { base with src := bytesK4 })).map (fun t => t.results.resBarch) =
    some barchK4 := by decide
/-- T-X7: a row underrun is MalformedContainer here. -/
theorem test_deserialize_short : (done (exec .deserialize
    { base with src := [0x4D, 0x41, 0x47, 0x49, 0x43, 8, 0, 0, 0, 1, 0, 0, 0, 0x80] })).map (fun t => t.results.status) =
    some (.error .malformedContainer) := by decide

/-! ### The step -/

/-- A word placed where the step fetches runs. -/
theorem test_withFetchWord : (done (step (base.withFetchWord 10 0b1101011010))).map (fun t => (t.dst, t.phase)) =
    some ([0x5A], .idle) ∧
    (done (step ((pushing 0x00 8 0x01 1).withFetchWord 4 0x2))).map (fun t => t.writer.acc) = some 0x80 := by decide
/-- R194: a reset that lands inside a command ends it, the command with its pushed bit and the open row alike; a reset between
commands waits for the end. -/
theorem test_resetNow :
    (done (step { pushing 0x00 8 0x01 1 with inbox := [.issue [] 0x2, .resetNow] })).map
      (fun t => (t.writer, t.inbox, t.fresh)) = some ({ acc := 0, free := 8 }, [], 1) ∧
    (done (step { opened [0x00] 5 with inbox := [.resetNow] })).map (fun t => (t.phase, t.rem, t.src)) =
      some (.idle, 0, []) ∧
    (done (step { opened [0x00] 5 with inbox := [.reset] })).map (fun t => (t.phase, t.rem, t.inbox)) =
      some (.decoding, 1, [.reset]) := by decide
/-- U14: a decoding command between pushes loses the pending bits. -/
theorem test_decodeRow_loses_pending : (done (exec .decodeRow { withRow [0x00] 4 with
    writer := { acc := 0xB0, free := 4 } })).map (fun t => t.writer) = some { acc := 0, free := 8 } := by decide
/-- R16: whatever buffer the host supplies, the cursor stands inside it. -/
theorem test_src_write : ({ pulling [1, 2, 3] { cur := 0, avail := 0, rdPos := 3 } 1 with
    aborted := false }.applyWrites [.src []]).reader.rdPos = 0 :=
  Nat.mod_one _
theorem test_reset_waits : (done (step base)).map (fun t => t.inbox) = some [] := by decide

/-! ### Witnesses: each meets all hypotheses of its obligation, one for each clause -/

/-- Every clause of PrefixCodeIsComplete: a stream that ends, and the three symbols. -/
theorem witness_PrefixCodeIsComplete : decodeSymbol 4 [] = .error .shortSymbol ∧
    decodeSymbol 1 (true :: true :: List.replicate 7 false) = .error .shortSymbol ∧
    decodeSymbol 4 [false, true] = .ok (.white, [true]) ∧ decodeSymbol 1 [true, false] = .ok (.black, []) ∧
    decodeSymbol 1 (true :: true :: List.replicate 8 false) = .ok (.lit1 0, []) := by decide

theorem witness_LiteralSamplesAreVerbatim :
    decodeSymbol 2 (true :: true :: List.replicate 17 true) = .ok (.lit2 0xFF 0xFF, [true]) ∧
    Instr.lit2 0xFF 0xFF ≠ .white ∧ Instr.lit2 0xFF 0xFF ≠ .black := by decide

theorem witness_DecodeOfEncodeIsTheInstruction :
    (∀ p ∈ [(4, Instr.white), (4, .black), (1, .lit1 0x5A)], p.2.fitsWindow p.1 = true) ∧
    (Instr.lit4 1 2 3 4).wellFormed 4 = true ∧ Instr.deserialize.wellFormed 0 = true := by decide

theorem witness_StepRunsTheIssuedCommand :
    let s := issuing [.issue [.width 8] 0x6]
    Accepting s ∧ s.inbox = .issue [.width 8] 0x6 :: [] ∧ ([] : List HostMove).head? ≠ some .resetNow ∧
      decodeCommand 0x6 = .ok .classify :=
  ⟨⟨rfl, rfl⟩, rfl, by decide, rfl⟩

theorem witness_StepRunsTheSymbolAtTheCursor :
    (opened [0x5C] 4).phase = .decoding ∧ (opened [0x5C] 4).inbox.head? ≠ some .resetNow ∧ 0 < (opened [0x5C] 4).rem ∧ (opened [0x5C] 4).reader.avail ≤ 8 ∧
    decodeSymbol (min 4 (opened [0x5C] 4).rem) (unreadBits (opened [0x5C] 4).src (opened [0x5C] 4).reader) =
      .ok (.white, [true, false, true, true, true, false, false]) ∧
    decodeSymbol (min 4 (opened [] 4).rem) (unreadBits (opened [] 4).src (opened [] 4).reader) =
      .error .shortSymbol := by decide

theorem witness_UnacceptedCommandsAreRefused :
    let s := issuing [.issue [] 0xD]
    s.phase = .idle ∧ s.inbox = .issue [] 0xD :: [] ∧ s.aborted = false ∧
    { s with aborted := true }.aborted = true ∧ { s with aborted := true }.phase = .idle := by decide

theorem witness_ResetThenWait : (issuing [.reset]).phase = .idle ∧ (issuing [.reset]).inbox = .reset :: [] ∧
    (issuing [.resetNow]).phase = .idle ∧ (issuing [.resetNow]).inbox = .resetNow :: [] := by decide

theorem witness_OpenRowRunsBeforeTheHost : (opened [0x00] 5).phase = .decoding ∧
    (opened [0x00] 5).inbox.head? ≠ some .resetNow ∧ ∃ t, step (opened [0x00] 5) = .next t := ⟨rfl, by decide, _, rfl⟩

/-- The clauses of BwPushClosedForm at their boundaries: `nbits` 0 and 9, `t = 7` and `t = 8`. -/
theorem witness_BwPushClosedForm :
    ((pushing 0xB0 4 0x07 0).operands.nbits.toNat = 0 ∧ 8 < (pushing 0xB0 4 0x07 9).operands.nbits.toNat) ∧
    (let s := pushing 0xB0 4 0x07 3
     1 ≤ s.operands.nbits.toNat ∧ s.operands.nbits.toNat ≤ 8 ∧ 1 ≤ s.writer.free ∧ s.writer.free ≤ 8 ∧
      8 - s.writer.free + s.operands.nbits.toNat < 8) ∧
    (let s := pushing 0xB0 4 0x0F 4
     1 ≤ s.operands.nbits.toNat ∧ s.operands.nbits.toNat ≤ 8 ∧ 1 ≤ s.writer.free ∧ s.writer.free ≤ 8 ∧
      8 ≤ 8 - s.writer.free + s.operands.nbits.toNat) := by decide

theorem witness_PushOperandContract :
    ((0xFE : Byte) &&& lowMask (pushing 0x00 8 0 1).operands.nbits.toNat =
      0x00 &&& lowMask (pushing 0x00 8 0 1).operands.nbits.toNat) ∧
    (∃ t, exec .bwPush { pushing 0x00 8 0 1 with operands := { (pushing 0x00 8 0 1).operands with value := 0xFE } } = .next t) ∧
    ¬ (1 ≤ (pushing 0x00 8 0 0).operands.nbits.toNat ∧ (pushing 0x00 8 0 0).operands.nbits.toNat ≤ 8) ∧
    ¬ (1 ≤ (pushing 0x00 8 0 9).operands.nbits.toNat ∧ (pushing 0x00 8 0 9).operands.nbits.toNat ≤ 8) :=
  ⟨by decide, ⟨_, rfl⟩, by decide, by decide⟩

/-- Both clauses of BwFlushClosesTheByte, `free = 7` and `free = 8`. -/
theorem witness_BwFlushClosesTheByte :
    (1 ≤ (pushing 0x80 7 0 1).writer.free ∧ (pushing 0x80 7 0 1).writer.free < 8 ∧ (pushing 0x80 7 0 1).writer.Ok) ∧
    (pushing 0x00 8 0 1).writer.free = 8 := ⟨⟨by decide, by decide, by decide, by decide, by decide⟩, by decide⟩

/-- BR.OPEN on an empty buffer, with a legal count. -/
theorem witness_StreamsAreOpened : base.src = [] ∧ legalBitCount base.operands.nbits = true := by decide

/-- The clauses of BrPullTakesTheNextBits: counts 0 and 9, exactly as many bits as are asked for, and one fewer. -/
theorem witness_BrPullTakesTheNextBits :
    ((pulling [] { cur := 0, avail := 0, rdPos := 0 } 0).operands.nbits.toNat = 0 ∧
      8 < (pulling [] { cur := 0, avail := 0, rdPos := 0 } 9).operands.nbits.toNat) ∧
    (let s := pulling [0xB5] { cur := 0xA0, avail := 4, rdPos := 1 } 4
     1 ≤ s.operands.nbits.toNat ∧ s.operands.nbits.toNat ≤ 8 ∧ s.reader.avail ≤ 8 ∧
      s.operands.nbits.toNat ≤ (unreadBits s.src s.reader).length) ∧
    (let s := pulling [0xB5] { cur := 0xA0, avail := 4, rdPos := 1 } 5
     1 ≤ s.operands.nbits.toNat ∧ s.operands.nbits.toNat ≤ 8 ∧ s.reader.avail ≤ 8 ∧
      (unreadBits s.src s.reader).length < s.operands.nbits.toNat) := by decide

/-- The pushes of T-B7, split in two ways. -/
theorem witness_BitWriterStreamLaw :
    let ps : List (Byte × BitVec 4) := [(0b10, 2), (0b11, 2)]
    let qs : List (Byte × BitVec 4) := [(0b1011, 4)]
    let s := issuing (.issue [] 0x1 :: (ps.map pushMove ++ .issue [] 0x3 :: []))
    let s' := issuing (.issue [] 0x1 :: (qs.map pushMove ++ []))
    Accepting s ∧ (∀ p ∈ ps, legalBitCount p.2 = true) ∧ ([] : List HostMove).head? ≠ some .resetNow ∧
      s.inbox = .issue [] 0x1 :: (ps.map pushMove ++ .issue [] 0x3 :: []) ∧
      Accepting s' ∧ (∀ q ∈ qs, legalBitCount q.2 = true) ∧ pushedBits qs = pushedBits ps ∧
      s'.inbox = .issue [] 0x1 :: (qs.map pushMove ++ []) :=
  ⟨⟨rfl, rfl⟩, fun p hp => by fin_cases hp <;> rfl, by decide, rfl, ⟨rfl, rfl⟩, fun q hq => by fin_cases hq; rfl, rfl, rfl⟩

/-- The bytes of T-B2 for both clauses of ReaderWriterDuality. -/
theorem witness_ReaderWriterDuality :
    let qs : List (Byte × BitVec 4) := [(0b10, 2), (0b11, 2)]
    let p : Byte × BitVec 4 := (0x5A, 8)
    let s := issuing (.issue [.src [0xB5, 0xA0]] 0x4 :: (qs.map (fun q => pullMove q.2) ++ pullMove p.2 :: []))
    let s' := issuing (.issue [.src [0xB5, 0xA0]] 0x4 :: ([4, 7].map pullMove ++ pullMove 1 :: []))
    (Accepting s ∧ (∀ q ∈ qs, legalBitCount q.2 = true) ∧ legalBitCount p.2 = true ∧
      bitsOfBytes [0xB5, 0xA0] = padToByte (pushedBits (qs ++ [p])) ∧ ([] : List HostMove).head? ≠ some .resetNow ∧
      s.inbox = .issue [.src [0xB5, 0xA0]] 0x4 :: (qs.map (fun q => pullMove q.2) ++ pullMove p.2 :: [])) ∧
    Accepting s' ∧ (∀ n ∈ ([4, 7] : List (BitVec 4)), legalBitCount n = true) ∧ legalBitCount 1 = true ∧
      (([4, 7] : List (BitVec 4)).map BitVec.toNat).sum + (1 : BitVec 4).toNat ≤ (pushedBits (qs ++ [p])).length ∧
      s'.inbox = .issue [.src [0xB5, 0xA0]] 0x4 :: ([4, 7].map pullMove ++ pullMove 1 :: []) :=
  ⟨⟨⟨rfl, rfl⟩, fun q hq => by fin_cases hq <;> rfl, rfl, rfl, by decide, rfl⟩, ⟨rfl, rfl⟩, by decide, rfl, by decide,
    rfl⟩

theorem witness_WriterInvariantKept :
    (∃ t, exec .bwReset base = .next t) ∧
    (∃ t, exec .encodeRow (withRow [0xFF] 1) = .next t ∧ t.results.status = .ok) ∧
    (pushing 0xB0 4 0 1).writer.Ok ∧
    ∃ t, step ((pushing 0xB0 4 0 1).withFetchWord 4 0x2) = .next t ∧ t.results.status = .ok :=
  ⟨⟨_, rfl⟩, ⟨_, rfl, rfl⟩, ⟨by decide, by decide, by decide⟩, _, rfl, rfl⟩

/-- A run of 7 blacks, a white and 4 blacks (T-C17). -/
theorem witness_ClassifyCountsBatches :
    let runs : List (Byte × Nat) := [(0x00, 7), (0xFF, 1), (0x00, 4)]
    let s := withRow (rowOfRuns runs) 12
    runs.IsChain (fun p q => p.1 ≠ q.1) ∧ (∀ p ∈ runs, 0 < p.2) ∧ s.src = rowOfRuns runs ∧
      s.operands.width.toNat = s.src.length :=
  ⟨by decide, by decide, rfl, by decide⟩

/-- A row CLASSIFY counts, and an image whose last row ENCODE_IMAGE counts. -/
theorem witness_ClassifierCountersStayBounded :
    (∃ t, exec .classify (withRow [0x5A] 1) = .next t) ∧
    ∃ t, exec .encodeImage (withRaster rasterK4 8) = .next t ∧ t.results.status = .ok := ⟨⟨_, rfl⟩, _, rfl, rfl⟩

/-- The empty row and a row of 7. -/
theorem witness_ShortRowsAreNotMarked :
    ((withRow [] 0).src.length = (withRow [] 0).operands.width.toNat ∧ (withRow [] 0).operands.width.toNat < 8) ∧
    (withRow (List.replicate 7 0xFF) 7).src.length = (withRow (List.replicate 7 0xFF) 7).operands.width.toNat ∧
      (withRow (List.replicate 7 0xFF) 7).operands.width.toNat < 8 := by decide

/-- Both clauses of ClassifierMonotonicity: two batches, and distinct samples. -/
theorem witness_ClassifierMonotonicity :
    let s := withRow ([true, false].flatMap fun w => List.replicate 4 (if w then Config.white else Config.black)) 8
    let s' := withRow [0x00, 0xFF, 0x01] 3
    (∃ t, exec .classify s = .next t) ∧ 2 ≤ [true, false].length ∧ (∃ t, exec .classify s' = .next t) ∧ s'.src.Nodup :=
  ⟨⟨_, rfl⟩, by decide, ⟨_, rfl⟩, by decide⟩

theorem witness_EncodeRowPacksTheSymbols :
    (withRow [0x5A] 1).src.length = (withRow [0x5A] 1).operands.width.toNat ∧
    (withRow [0x5A] 1).operands.width.toNat ≠ 0 := by decide

theorem witness_PackedRowSize : ∃ t, exec .encodeRow (withRow [0x5A] 1) = .next t ∧ t.results.status = .ok :=
  ⟨_, rfl, rfl⟩

theorem witness_EncodeRowIsThePushSequence :
    let s := { withRow [0xFF, 0xFF, 0xFF, 0xFF, 0x5A] 5 with
      inbox := .issue [] 0x1 :: ((rowPushes [0xFF, 0xFF, 0xFF, 0xFF, 0x5A]).map pushMove ++ .issue [] 0x3 :: []) }
    Accepting s ∧ s.src.length = s.operands.width.toNat ∧ s.operands.width.toNat ≠ 0 ∧
      ([] : List HostMove).head? ≠ some .resetNow ∧ s.inbox = .issue [] 0x1 :: ((rowPushes s.src).map pushMove ++ .issue [] 0x3 :: []) :=
  ⟨⟨rfl, rfl⟩, by decide, by decide, by decide, rfl⟩

/-- The three clauses of RowOperandChecks. -/
theorem witness_RowOperandChecks :
    ((withRow [1, 2] 1).src.length ≠ (withRow [1, 2] 1).operands.width.toNat ∧
      (withRow [1, 2] 1).operands.width.toNat ≠ 0) ∧ (withRow [] 0).operands.width.toNat = 0 := by decide

/-- Both clauses of UniformSymbolsProduce at their boundary, `rem = 5` and `rem = 4`. -/
theorem witness_UniformSymbolsProduce :
    (opened [0x00] 5).phase = .decoding ∧ 4 < (opened [0x00] 5).rem ∧
    (opened [0x00] 4).phase = .decoding ∧ 0 < (opened [0x00] 4).rem ∧ (opened [0x00] 4).rem ≤ 4 := by decide

/-- LiteralsProduce for a full window with samples left, and for the last windows of one to four samples. -/
theorem witness_LiteralsProduce :
    (opened [] 5).phase = .decoding ∧ min 4 (opened [] 5).rem = [1, 2, 3, 4].length ∧ (opened [] 5).rem - 4 ≠ 0 ∧
    min 4 (opened [] 4).rem = [1, 2, 3, 4].length ∧ (opened [] 4).rem - 4 = 0 ∧
    min 4 (opened [] 3).rem = [1, 2, 3].length ∧ min 4 (opened [] 2).rem = [1, 2].length ∧
    min 4 (opened [] 1).rem = [1].length := by decide

theorem witness_SymbolsOutsideTheirWindowAreRefused :
    Instr.white.isCommand = false ∧ Instr.white.fitsWindow base.windowSize = false ∧
    (Instr.lit4 1 2 3 4).isCommand = false ∧ (Instr.lit4 1 2 3 4).fitsWindow (opened [] 3).windowSize = false := by decide

/-- Both clauses of DecodeRowReadsTheStream: the row of T-E5, and one byte fewer. -/
theorem witness_DecodeRowReadsTheStream :
    (withRow [0x58, 0x91, 0xA0] 10).operands.width.toNat ≠ 0 ∧
    decodeMany (rowWindows (withRow [0x58, 0x91, 0xA0] 10).operands.width.toNat) (bitsOfBytes [0x58, 0x91, 0xA0]) =
      .ok ([.white, .black, .lit2 0x12 0x34], [false, false, false]) ∧
    decodeMany (rowWindows (withRow [0x58, 0x91] 10).operands.width.toNat) (bitsOfBytes [0x58, 0x91]) =
      .error .shortSymbol := by decide

theorem witness_DecodeRowIsItsSymbolSteps : (withRow [0x58, 0x91, 0xA0] 10).operands.width.toNat ≠ 0 ∧
    (withRow [0x58, 0x91, 0xA0] 10).inbox.head? ≠ some .resetNow ∧
    ∃ t, exec .decodeRow (withRow [0x58, 0x91, 0xA0] 10) = .next t ∧ t.results.status = .ok :=
  ⟨by decide, by decide, _, rfl, rfl⟩

theorem witness_RowRoundTrip :
    let s := withRow [0xFF, 0xFF, 0xFF, 0xFF, 0x5A] 5
    ∃ t, s.src.length = s.operands.width.toNat ∧ s.operands.width.toNat ≠ 0 ∧ exec .encodeRow s = .next t ∧
      (withRow t.dst 5).src = t.dst ∧ (withRow t.dst 5).operands.width = s.operands.width :=
  ⟨_, by decide, by decide, rfl, rfl, rfl⟩

/-- SRC with a surplus byte of its own. -/
theorem witness_SurplusBytesAreIgnored : ∃ t, exec .decodeRow (withRow [0x00, 0xFF] 8) = .next t ∧ t.results.status = .ok ∧
    t.results.resConsumed = 1 := ⟨_, rfl, rfl, rfl⟩

/-- Widths 10 and 1 on the same bytes. -/
theorem witness_SmallerWidthDecodesAPrefix :
    let s := withRow [0x58, 0x91, 0xA0] 10
    let s' := withRow [0x58, 0x91, 0xA0] 1
    ∃ t, exec .decodeRow s = .next t ∧ t.results.status = .ok ∧ s'.src = s.src ∧ s'.operands.width.toNat ≠ 0 ∧
      s'.operands.width.toNat ≤ s.operands.width.toNat := ⟨_, rfl, rfl, rfl, by decide, by decide⟩

theorem witness_ShortInputUnderruns : (withRow [0x00] 33).operands.width.toNat ≠ 0 ∧
    (withRow [0x00] 33).src.length < ceilDiv (ceilDiv (withRow [0x00] 33).operands.width.toNat 4) 8 := by decide

/-- For EncodeImageStoresEachRow, ImageRoundTrip and ContainerRoundTrip: the image of T-K4, one row marked, one raw. -/
theorem witness_EncodeImageStoresEachRow :
    let s := withRaster rasterK4 8
    s.operands.raster.width.toNat ≠ 0 ∧ s.operands.raster.height.toNat ≠ 0 ∧ s.operands.depth = 8 ∧
      s.operands.raster.wellShaped = true := by decide

theorem witness_DecodeImageDecodesEachLine :
    (withBarch barchK4).operands.barch.width.toNat ≠ 0 ∧ (withBarch barchK4).operands.barch.height.toNat ≠ 0 ∧
    (withBarch barchK4).operands.barch.countsAgree = true ∧
    List.Forall₂ (fun (p : Bool × List Byte) row => lineHolds (withBarch barchK4).operands.barch.width.toNat p.1 p.2 row)
      ((withBarch barchK4).operands.barch.flags.zip (withBarch barchK4).operands.barch.lines) rasterK4.rows :=
  ⟨by decide, by decide, by decide,
    .cons ⟨[.white, .white], [false, false, false, false, false, false], by decide, by decide⟩
      (.cons ⟨by decide, by decide⟩ .nil)⟩

theorem witness_ImageRoundTrip :
    ∃ t, exec .encodeImage (withRaster rasterK4 8) = .next t ∧
      (withBarch t.results.resBarch).operands.barch = t.results.resBarch := ⟨_, rfl, rfl⟩

/-- The four clauses of ImageErrorsInOrder. -/
theorem witness_ImageErrorsInOrder :
    ((withRaster { width := 0, height := 1, rows := [] } 7).operands.raster.width.toNat = 0) ∧
    (let s := withRaster { width := 2, height := 1, rows := [[1, 2]] } 24
     s.operands.raster.width.toNat ≠ 0 ∧ s.operands.raster.height.toNat ≠ 0 ∧ s.operands.depth ≠ 8) ∧
    ((withBarch { width := 1, height := 0, flags := [], lines := [] }).operands.barch.height.toNat = 0) ∧
    (let s := withBarch { width := 8, height := 2, flags := [true], lines := [[0]] }
     s.operands.barch.width.toNat ≠ 0 ∧ s.operands.barch.height.toNat ≠ 0 ∧ s.operands.barch.wellShaped = false ∧
      s.operands.barch.countsAgree = false) := by decide

/-- The rows clauses of ImageErrorsInOrder: behind a row that holds, a packed line that ends inside its first literal; and a raw
line of one sample too few. -/
theorem witness_ImageErrorsInOrder_rows :
    (let s := withBarch { width := 2, height := 2, flags := [false, true], lines := [[1, 2], [0xC0]] }
     s.operands.barch.width.toNat ≠ 0 ∧ s.operands.barch.height.toNat ≠ 0 ∧ s.operands.barch.wellShaped = true ∧
      s.operands.barch.flags.zip s.operands.barch.lines = [(false, [1, 2])] ++ (true, [0xC0]) :: [] ∧
      lineHolds 2 false [1, 2] [1, 2] ∧ RowUnderruns 2 [0xC0]) ∧
    (let s := withBarch { width := 2, height := 1, flags := [false], lines := [[1]] }
     s.operands.barch.countsAgree = true ∧
      s.operands.barch.flags.zip s.operands.barch.lines = [] ++ (false, [1]) :: [] ∧ [(1 : Byte)].length ≠ 2) :=
  ⟨⟨by decide, by decide, by decide, rfl, ⟨rfl, rfl⟩, .shortSymbol, by decide⟩, by decide, rfl, by decide⟩

theorem witness_SerializeLayout :
    (withBarch barchK4).operands.barch.width.toNat ≠ 0 ∧ (withBarch barchK4).operands.barch.height.toNat ≠ 0 ∧
    (withBarch barchK4).operands.barch.wellShaped = true := by decide

/-- T-K4 with the unused bits of its flag byte set and a byte behind it, as in T-K5. -/
theorem witness_DeserializeCutsTheRows :
    let s := { base with src := bytesK4.set 13 0xBF ++ [0x99] }
    barchK4.width.toNat ≠ 0 ∧ barchK4.height.toNat ≠ 0 ∧ barchK4.countsAgree = true ∧
      (∀ p ∈ barchK4.flags.zip barchK4.lines, lineExact barchK4.width.toNat p.1 p.2) ∧
      [0xBF].length = ceilDiv barchK4.height.toNat 8 ∧ (bitsOfBytes [0xBF]).take barchK4.height.toNat = barchK4.flags ∧
      s.src = s.magic ++ bytesOfU32 barchK4.width ++ bytesOfU32 barchK4.height ++ [0xBF] ++ barchK4.lines.flatten ++ [0x99] := by
  refine ⟨by decide, by decide, by decide, ?_, by decide, by decide, by decide⟩
  intro p hp
  simp only [barchK4, List.zip_cons_cons, List.zip_nil_right, List.mem_cons, List.not_mem_nil, or_false] at hp
  rcases hp with rfl | rfl
  · exact ⟨[.white, .white], [false, false, false, false, false, false], by decide, by decide⟩
  · exact rfl

/-- Both clauses of ContainerRoundTrip: the packed line of T-K4 is what ENCODE_ROW makes of 8 whites. -/
theorem witness_ContainerRoundTrip :
    (∀ p ∈ (withBarch barchK4).operands.barch.flags.zip (withBarch barchK4).operands.barch.lines, p.1 = true →
      ∃ r t : State, r.src.length = r.operands.width.toNat ∧ r.operands.width = (withBarch barchK4).operands.barch.width ∧
        exec .encodeRow r = .next t ∧ t.dst = p.2) ∧
    (∃ u, exec .serialize (withBarch barchK4) = .next u ∧
      { base with src := u.dst ++ [0x99] }.magic = (withBarch barchK4).magic) ∧
    ∃ t u, exec .encodeImage (withRaster rasterK4 8) = .next t ∧ exec .serialize (withBarch t.results.resBarch) = .next u ∧
      { base with src := u.dst ++ [] }.magic = (withBarch t.results.resBarch).magic := by
  refine ⟨?_, ⟨_, rfl, rfl⟩, _, _, rfl, rfl, rfl⟩
  intro p hp h
  simp only [withBarch, barchK4, List.zip_cons_cons, List.zip_nil_right, List.mem_cons, List.not_mem_nil, or_false] at hp
  rcases hp with rfl | rfl
  · exact ⟨withRow (List.replicate 8 0xFF) 8, _, by decide, rfl, rfl, by decide⟩
  · cases h

/-- The clauses of DeserializeHeaderChecks: too short, wrong magic, no room for the integers, a zero width, no flag byte,
and a header in order (T-X1 to T-X6). -/
theorem witness_DeserializeHeaderChecks :
    ([0x4D, 0x41, 0x47] : List Byte).length < base.magic.length ∧
    ([0x4D, 0x41, 0x47, 0x49, 0x44] : List Byte).take base.magic.length ≠ base.magic ∧
    (base.magic ++ [8, 0, 0, 0, 1, 0, 0]).length < base.magic.length + 8 ∧
    (u32OfBytes (((base.magic ++ [0, 0, 0, 0, 1, 0, 0, 0]).drop base.magic.length).take 4)).toNat = 0 ∧
    (base.magic ++ [8, 0, 0, 0, 1, 0, 0, 0]).length < base.magic.length + 8 + ceilDiv
      (u32OfBytes (((base.magic ++ [8, 0, 0, 0, 1, 0, 0, 0]).drop (base.magic.length + 4)).take 4)).toNat 8 ∧
    bytesK4.take base.magic.length = base.magic ∧ base.magic.length + 8 ≤ bytesK4.length := by decide

/-- Cut inside the last row, the unused flag bits not 0; the conditions on the lines are witness_DeserializeCutsTheRows's. -/
theorem witness_TruncatedContainerIsRejected :
    22 < (containerWith base.magic [0xBF] barchK4).length ∧ [(0xBF : Byte)].length = ceilDiv barchK4.height.toNat 8 ∧
    (bitsOfBytes [0xBF]).take barchK4.height.toNat = barchK4.flags ∧
    { base with src := (bytesK4.set 13 0xBF).take 22 }.src = (containerWith base.magic [0xBF] barchK4).take 22 := by decide

theorem witness_DeserializedImageIsWellShaped :
    ∃ t, exec .deserialize { base with src := bytesK4 } = .next t ∧ t.results.status = .ok := ⟨_, rfl, rfl⟩

theorem witness_InputsAreNeverWritten : ∃ t, exec .bwFlush base = .next t := ⟨_, rfl⟩

/-- A command of each result in CommandResultTable: the four errors and the three aborts of a command. -/
theorem witness_CommandResultTable :
    Instr.encodeRow.isCommand = true ∧ 1 ≤ base.writer.free ∧ base.writer.free ≤ 8 ∧
    (done (exec .encodeRow (withRow [] 0))).map (fun t => t.results.status) = some (.error .invalidDimensions) ∧
    (done (exec .encodeImage (withRaster rasterK4 24))).map (fun t => t.results.status) =
      some (.error .unsupportedSampleDepth) ∧
    (done (exec .deserialize base)).map (fun t => t.results.status) = some (.error .malformedContainer) ∧
    (done (exec .decodeRow (withRow [] 1))).map (fun t => t.results.status) = some (.error .decodeUnderrun) ∧
    exec .bwPush (pushing 0 8 0 9) = .refused .badBitCount ∧
    exec .classify (withRow [] 1) = .refused .rowLengthMismatch ∧
    exec .encodeImage (withRaster { rasterK4 with height := 3 } 8) = .refused .rasterShape :=
  ⟨by decide, by decide, by decide, by decide, by decide, by decide, by decide, rfl, rfl, rfl⟩

/-- A command that fails for each clause of ErrorEntryLeavesOnlyTheStatus: a BR.PULL, a row command, the image commands,
SERIALIZE, and DESERIALIZE with its header read and without. -/
theorem witness_ErrorEntryLeavesOnlyTheStatus :
    (∃ t, exec .brPull base = .next t ∧ t.results.status = .error .decodeUnderrun) ∧
    (∃ t, exec .decodeRow (withRow [] 1) = .next t ∧ t.results.status = .error .decodeUnderrun) ∧
    (∃ t, exec .encodeImage (withRaster rasterK4 24) = .next t ∧ t.results.status = .error .unsupportedSampleDepth) ∧
    (∃ t, exec .decodeImage base = .next t ∧ t.results.status = .error .invalidDimensions) ∧
    (∃ t, exec .serialize base = .next t ∧ t.results.status = .error .invalidDimensions) ∧
    (∃ t, exec .deserialize base = .next t ∧ t.results.status = .error .malformedContainer) ∧
    ¬ HeaderRead base.magic base.src ∧
    (∃ t, exec .deserialize { base with src := bytesK4.take 22 } = .next t ∧
      t.results.status = .error .malformedContainer) ∧
    HeaderRead base.magic (bytesK4.take 22) :=
  ⟨⟨_, rfl, rfl⟩, ⟨_, rfl, rfl⟩, ⟨_, rfl, rfl⟩, ⟨_, rfl, rfl⟩, ⟨_, rfl, rfl⟩, ⟨_, rfl, rfl⟩,
    fun h => absurd h.2 (by decide), ⟨_, rfl, rfl⟩, by decide, by decide⟩

/-- A command that failed, DESERIALIZE on an empty buffer. -/
theorem witness_RetryFailsTheSameWay : Instr.deserialize.isCommand = true ∧
    ∃ t, exec .deserialize base = .next t ∧ t.results.status = .error .malformedContainer := ⟨rfl, _, rfl, rfl⟩

/-- Two different states of one command: a BitWriter with bits pending, and one without. -/
theorem witness_CommandsAboveBitPackerAreStateless :
    let s := withRow [0x5A] 1
    let s' := { withRow [0x5A] 1 with writer := { acc := 0xB0, free := 4 }, dst := [1] }
    Instr.encodeRow.aboveBitPacker = true ∧ s.src = s'.src ∧ s.operands = s'.operands ∧ s.magic = s'.magic ∧ s ≠ s' ∧
      (∃ t, exec .encodeRow s = .next t ∧ t.results.status = .ok) ∧
      exec .encodeRow (withRow [] 1) = .refused .rowLengthMismatch := by
  refine ⟨rfl, rfl, rfl, rfl, ?_, ⟨_, rfl, rfl⟩, rfl⟩
  intro h
  exact absurd (congrArg State.dst h) (by decide)

/-- In an open row and between commands. -/
theorem witness_EveryStepKeepsTheInvariant :
    (Inv (opened [0x00] 5) ∧ ∃ t, step (opened [0x00] 5) = .next t) ∧ Inv base ∧ ∃ t, step base = .next t :=
  ⟨⟨⟨by decide, by decide, by decide, rfl, fun _ => ⟨by decide, by decide⟩⟩, _, rfl⟩,
    ⟨by decide, by decide, by decide, rfl, fun h => by cases h⟩, _, rfl⟩

theorem witness_WriterCommandsFrame : ∃ t, exec .bwPush { pushing 0xB0 4 0x1F 5 with dst := [7] } = .next t ∧
    0 < { pushing 0xB0 4 0x1F 5 with dst := [7] }.dst.length := ⟨_, rfl, by decide⟩

theorem witness_ReaderAndClassifierFrame :
    (∃ t, exec .brOpen base = .next t ∧ t.results.status = .ok) ∧
    (∃ t, exec .brPull (pulling [0xB5] { cur := 0, avail := 0, rdPos := 0 } 4) = .next t ∧ t.results.status = .ok) ∧
    ∃ t, exec .classify (withRow [] 0) = .next t ∧ t.results.status = .ok :=
  ⟨⟨_, rfl, rfl⟩, ⟨_, rfl, rfl⟩, _, rfl, rfl⟩

/-- A symbol with samples left and the row's last. -/
theorem witness_SymbolsFrame : Instr.white.isCommand = false ∧ (∃ t, exec .white (opened [0x00] 5) = .next t ∧ t.rem ≠ 0) ∧
    ∃ t, exec .white (opened [0x00] 4) = .next t ∧ t.rem = 0 := ⟨rfl, ⟨_, rfl, by decide⟩, _, rfl, rfl⟩

theorem witness_RowCommandsFrame :
    (∃ t, exec .encodeRow (withRow [0x5A] 1) = .next t ∧ t.results.status = .ok) ∧
    ∃ t, exec .decodeRow (withRow [0x00] 4) = .next t ∧ t.results.status = .ok := ⟨⟨_, rfl, rfl⟩, _, rfl, rfl⟩

/-- Every clause of ImageCommandsFrame. -/
theorem witness_ImageCommandsFrame :
    (∃ t, exec .encodeImage (withRaster rasterK4 8) = .next t ∧ t.results.status = .ok) ∧
    (∃ t, exec .decodeImage (withBarch barchK4) = .next t ∧ t.results.status = .ok) ∧
    (∃ t, exec .serialize (withBarch barchK4) = .next t ∧ t.results.status = .ok) ∧
    ∃ t, exec .deserialize { base with src := bytesK4 } = .next t ∧ t.results.status = .ok :=
  ⟨⟨_, rfl, rfl⟩, ⟨_, rfl, rfl⟩, ⟨_, rfl, rfl⟩, _, rfl, rfl⟩

/-- Both clauses of ResetEndsTheRunningCommand: an open row, and a command of the host's. -/
theorem witness_ResetEndsTheRunningCommand :
    (let s := { opened [0x00] 5 with inbox := .resetNow :: [] }
     s.phase = .decoding ∧ s.inbox = .resetNow :: []) ∧
    (let s := issuing [.issue [] 0x9, .resetNow]
     Accepting s ∧ decodeCommand 0x9 = .ok .encodeImage ∧ s.inbox = .issue [] 0x9 :: .resetNow :: []) :=
  ⟨⟨rfl, rfl⟩, ⟨rfl, rfl⟩, rfl, rfl⟩

/-- SERIALIZE and CLASSIFY with four bits pending. -/
theorem witness_HigherCommandsLoseThePendingBits :
    (Instr.serialize.aboveBitPacker = true ∧
      ∃ t, exec .serialize { withBarch barchK4 with writer := { acc := 0xB0, free := 4 } } = .next t ∧
        t.results.status = .ok) ∧
    Instr.classify.aboveBitPacker = true ∧
      ∃ t, exec .classify { withRow [0x5A] 1 with writer := { acc := 0xB0, free := 4 } } = .next t ∧
        t.results.status = .ok := ⟨⟨rfl, _, rfl, rfl⟩, rfl, _, rfl, rfl⟩

/-- Two writes of one register, one of SRC, and registers left alone. -/
theorem witness_OperandWritesReachTheirRegisters :
    let s := issuing [.issue [.width 8, .src [1, 2], .width 2] 0x6]
    Accepting s ∧ s.inbox = .issue [.width 8, .src [1, 2], .width 2] 0x6 :: [] ∧
      ([] : List HostMove).head? ≠ some .resetNow ∧ decodeCommand 0x6 = .ok .classify ∧
      [OperandWrite.width 8, .src [1, 2], .width 2].filterMap OperandWrite.src? ≠ [] :=
  ⟨⟨rfl, rfl⟩, rfl, by decide, rfl, by decide⟩

end Sys2Proof.Tests
end

section
/-! PROOFS. How each command can end (`Ends`, one lemma per command), what a symbol answers, and what every instruction
keeps: the facts the statements about the state are assembled from. -/

namespace Sys2Proof.Machine

/-! ### Reads that never happen (R16) -/

/-- A refill with a bit left finds its byte, wherever the cursor stands. -/
theorem refill_total (src : List Byte) (b : BitReader) (h : 0 < b.unread src) :
    ∃ c, refill src b = .ok c ∧ 1 ≤ c.avail ∧ c.unread src = b.unread src := by
  by_cases h0 : b.avail = 0
  · have hlt : b.rdPos < src.length := by simp only [BitReader.unread] at h; omega
    exact ⟨{ cur := src[b.rdPos], avail := 8, rdPos := b.rdPos + 1 }, by simp [refill, h0, memByte, hlt], by simp,
      by simp only [BitReader.unread]; omega⟩
  · exact ⟨b, by simp [refill, h0], by omega, rfl⟩

theorem pullLoop_total (src : List Byte) (fuel n : Nat) (r : Byte) (b : BitReader) (h : n ≤ b.unread src) :
    ∃ p, pullLoop src fuel n r b = .ok p := by
  induction fuel generalizing n r b with
  | zero => exact ⟨_, rfl⟩
  | succ fuel ih =>
    by_cases h0 : n = 0
    · exact ⟨(r, b), by simp [pullLoop, h0]⟩
    · obtain ⟨c, hc, hc1, hu⟩ := refill_total src b (by omega)
      simp only [pullLoop, h0, if_false, hc]
      exact ih _ _ _ (by simp only [BitReader.unread] at *; omega)

/-- The only way a pull fails is that the stream has run out: in no state does it read past the buffer (R16, R78). -/
theorem pullBits_error {src : List Byte} {n : Nat} {b : BitReader} {x : Stop} (h : pullBits src n b = .error x) :
    x = .raised .decodeUnderrun := by
  unfold pullBits at h
  split at h
  · cases h; rfl
  · obtain ⟨p, hp⟩ := pullLoop_total src n n 0 b (by omega)
    rw [hp] at h; cases h

theorem pullSamples_error {src : List Byte} {k : Nat} {b : BitReader} {x : Stop} (h : pullSamples src k b = .error x) :
    x = .raised .decodeUnderrun := by
  induction k generalizing b with
  | zero => cases h
  | succ k ih =>
    simp only [pullSamples] at h
    split at h
    · cases h; exact pullBits_error ‹_›
    · split at h
      · cases h; exact ih ‹_›
      · cases h

theorem fetchBits_error {src : List Byte} {k : Nat} {b : BitReader} {x : Stop} (h : fetchBits src k b = .error x) :
    x = .raised .decodeUnderrun := by
  unfold fetchBits at h
  split at h
  · cases h; exact pullBits_error ‹_›
  · split at h
    · cases h
    · split at h
      · cases h; exact pullBits_error ‹_›
      · split at h
        · cases h
        · split at h
          · cases h; exact pullSamples_error ‹_›
          · cases h

/-- A fetch stops by an underrun, or because the row needs no sample; never by a read past the buffer. -/
theorem fetchSymbol_error {src : List Byte} {k : Nat} {b : BitReader} {x : Stop} (h : fetchSymbol src k b = .error x) :
    x = .raised .decodeUnderrun ∨ x = .abort .symbolOutsideRow := by
  unfold fetchSymbol at h
  split at h
  · cases h; exact .inl (fetchBits_error ‹_›)
  · split at h
    · cases h; exact .inr rfl
    · cases h

/-! ### Symbols -/

/-- The window of an open row (R116). -/
theorem State.windowSize_open {s : State} (hp : s.phase = .decoding) : s.windowSize = min 4 s.rem := by
  simp only [State.windowSize, hp, Config.batch]

/-- What is fetched fits the window it was fetched for. -/
theorem fetchSymbol_fits {src : List Byte} {k : Nat} {b b' : BitReader} {i : Instr}
    (h : fetchSymbol src k b = .ok (i, b')) : i.fitsWindow k = true := by
  unfold fetchSymbol at h
  split at h
  · cases h
  · simp only [decode] at h
    split at h
    · cases h
    · rename_i hd
      cases h
      split at hd
      · cases hd
      · cases hd; exact (decodeSymbol_ok ‹_›).2.1
      · cases hd

/-- What is fetched is what the decoder reads, and the reader has moved past exactly its bits (R116, R79). -/
theorem fetchSymbol_ok {src : List Byte} {k : Nat} {b b' : BitReader} {i : Instr} (hk : 1 ≤ k ∧ k ≤ 4) (h8 : b.avail ≤ 8)
    (h : fetchSymbol src k b = .ok (i, b')) : Advanced src (symbolBits i).length b b' := by
  have hspec := fetchSymbol_spec src b hk h8
  split at hspec
  · obtain ⟨c, hc, hadv⟩ := hspec
    rw [hc] at h; cases h; exact hadv
  · rw [hspec] at h; cases h

theorem Instr.not_isCommand_of_fits {k : Nat} {i : Instr} (h : i.fitsWindow k = true) : i.isCommand = false := by
  cases i <;> simp_all [Instr.fitsWindow, Instr.isCommand]

theorem samplesOf_length {k : Nat} {i : Instr} (h : i.fitsWindow k = true) : (samplesOf k i).length = k := by
  cases i <;> simp_all [Instr.fitsWindow, samplesOf]

theorem symbolBody_unfit {i : Instr} {s : State} (h : i.fitsWindow s.windowSize = false) :
    symbolBody i s = .error (.abort .symbolOutsideRow) := by
  have hle : s.windowSize ≤ Config.batch := by
    unfold State.windowSize; split <;> simp
  cases i <;> simp_all [Instr.fitsWindow, symbolBody, whiteBody, blackBody, lit1Body, lit2Body, lit3Body, lit4Body,
    runBody, literalBody]

/-- A symbol runs by its body (R116). -/
theorem exec_symbol {i : Instr} (hc : i.isCommand = false) (s : State) : exec i s = finishSymbol s (symbolBody i s) := by
  cases i with
  | white | black | lit1 | lit2 | lit3 | lit4 => rfl
  | _ => cases hc

/-- A symbol that fits the row's window emits its samples (R117 to R119). -/
theorem exec_symbol_fits {i : Instr} {s : State} (h : i.fitsWindow s.windowSize = true) :
    exec i s = .next (closeRow (s.produce (samplesOf s.windowSize i))) := by
  rw [exec_symbol (Instr.not_isCommand_of_fits h), symbolBody_fits i s h]; rfl

/-- One that does not fit is refused (log 24). -/
theorem exec_symbol_unfit {i : Instr} {s : State} (hc : i.isCommand = false) (h : i.fitsWindow s.windowSize = false) :
    exec i s = .refused .symbolOutsideRow := by
  rw [exec_symbol hc, symbolBody_unfit h]; rfl

/-! ### What an instruction keeps -/

/-- The inputs of a command, which no instruction writes (R26, R43). -/
structure KeepsInputs (s t : State) : Prop where
  src      : t.src = s.src
  operands : t.operands = s.operands
  magic    : t.magic = s.magic
  inbox    : t.inbox = s.inbox
  aborted  : t.aborted = s.aborted

theorem KeepsInputs.trans {s t u : State} (h1 : KeepsInputs s t) (h2 : KeepsInputs t u) : KeepsInputs s u :=
  ⟨h2.src.trans h1.src, h2.operands.trans h1.operands, h2.magic.trans h1.magic, h2.inbox.trans h1.inbox,
    h2.aborted.trans h1.aborted⟩

/-- The BitWriter's count is in the range of R12. -/
def BitWriter.InRange (w : BitWriter) : Prop := 1 ≤ w.free ∧ w.free ≤ 8

/-- The BitReader is in the ranges R15 and R16 give it on the buffer `src`. -/
def BitReader.InRange (src : List Byte) (b : BitReader) : Prop := b.avail ≤ 8 ∧ b.rdPos ≤ src.length

theorem inv_iff (s : State) : Inv s ↔ s.writer.InRange ∧ s.reader.InRange s.src ∧ s.aborted = false ∧
    (s.phase = .decoding → RowOpen s) := by
  simp only [Inv, BitWriter.InRange, BitReader.InRange, and_assoc]

theorem BitWriter.Ok.inRange {w : BitWriter} (h : w.Ok) : w.InRange := ⟨h.1, h.2.1⟩

/-- What an instruction that raises no error keeps: the inputs, the BitWriter's invariant, the ranges; and no row is
opened. -/
structure Orderly (s t : State) : Prop where
  inputs   : KeepsInputs s t
  phase    : t.phase = .idle ∨ t.phase = s.phase
  writerOk : s.writer.Ok → t.writer.Ok
  writer   : s.writer.InRange → t.writer.InRange
  reader   : s.reader.InRange s.src → t.reader.InRange t.src

/-- What a command above the BitPacker level keeps: the same, and its BitWriter is empty, whatever it was (R27, R203). -/
structure Emptied (s t : State) : Prop where
  inputs : KeepsInputs s t
  phase  : t.phase = .idle ∨ t.phase = s.phase
  writer : t.writer = { acc := 0, free := 8 }
  reader : s.reader.InRange s.src → t.reader.InRange t.src

theorem Emptied.orderly {s t : State} (h : Emptied s t) : Orderly s t where
  inputs   := h.inputs
  phase    := h.phase
  writerOk := fun _ => by rw [h.writer]; exact openWriter_ok
  writer   := fun _ => by rw [h.writer]; exact openWriter_ok.inRange
  reader   := h.reader

/-- A row that may be closed keeps all but the phase, the results and the free-value counter. -/
theorem closeRow_orderly (s : State) : Orderly s (closeRow s) := by
  unfold closeRow
  split
  · exact { inputs := ⟨rfl, rfl, rfl, rfl, rfl⟩, phase := .inl rfl, writerOk := id, writer := id, reader := id }
  · exact { inputs := ⟨rfl, rfl, rfl, rfl, rfl⟩, phase := .inr rfl, writerOk := id, writer := id, reader := id }

/-- A symbol keeps what every instruction keeps: it writes DST and `rem`, and may end the row. -/
theorem exec_symbol_orderly {i : Instr} {s t : State} (hc : i.isCommand = false) (h : exec i s = .next t) : Orderly s t := by
  by_cases hf : i.fitsWindow s.windowSize = true
  · rw [exec_symbol_fits hf] at h
    cases h
    obtain ⟨hi, hp, hok, hw, hr⟩ := closeRow_orderly (s.produce (samplesOf s.windowSize i))
    exact ⟨.trans (t := s.produce _) ⟨rfl, rfl, rfl, rfl, rfl⟩ hi, hp, hok, hw, hr⟩
  · rw [exec_symbol_unfit hc (by simpa using hf)] at h; cases h

/-! ### How a command ends -/

/-- The outcome of a command: a refusal; a next state with an error's status; or one with status OK of which `P` holds. A
fault it is not. -/
def Ends (P : State → Prop) : Host.Outcome State Fault Refusal → Prop
  | .next t => (∃ e, t.results.status = .error e) ∨ (t.results.status = .ok ∧ P t)
  | .fault _ => False
  | .refused _ => True

theorem Ends.mono {P Q : State → Prop} {o : Host.Outcome State Fault Refusal} (h : Ends P o) (hpq : ∀ t, P t → Q t) :
    Ends Q o := by
  cases o with
  | next t => exact h.imp_right fun ⟨hok, hp⟩ => ⟨hok, hpq t hp⟩
  | fault f => exact h
  | refused r => trivial

/-- A command that ended with status OK ended as `P` says. -/
theorem Ends.ok {P : State → Prop} {o : Host.Outcome State Fault Refusal} {t : State} (h : Ends P o) (ho : o = .next t)
    (hok : t.results.status = .ok) : P t := by
  subst ho
  rcases h with ⟨e, he⟩ | ⟨-, hp⟩
  · rw [hok] at he; cases he
  · exact hp

theorem Ends.ne_fault {P : State → Prop} {o : Host.Outcome State Fault Refusal} (h : Ends P o) (f : Fault) : o ≠ .fault f := by
  rintro rfl; exact h

theorem execBwReset_ends (s : State) : Ends (· = s.openWriter.endOk.clearResByteValid) (exec .bwReset s) := .inr ⟨rfl, rfl⟩

/-- BW.PUSH pushes 1 to 8 bits into a BitWriter in range (R72, R73). -/
theorem execBwPush_ends (s : State) :
    Ends (fun t => (1 ≤ s.operands.nbits.toNat ∧ s.operands.nbits.toNat ≤ 8) ∧ s.writer.InRange ∧
        t = ((s.pushBits s.operands.value s.operands.nbits.toNat).endOk.setResByte s.results.resByte
          (pushRun s.writer s.operands.value s.operands.nbits.toNat).out)) (exec .bwPush s) := by
  simp only [exec, execBwPush, legalBitCount, decide_eq_true_eq]
  split
  · split
    · exact .inr ⟨rfl, ‹_›, ‹_›, rfl⟩
    · trivial
  · trivial

theorem execBwFlush_ends (s : State) :
    Ends (· = s.flushBits.endOk.setResByte s.results.resByte (flushOut s.writer)) (exec .bwFlush s) := .inr ⟨rfl, rfl⟩

theorem execBrOpen_ends (s : State) :
    Ends (· = { s with reader := s.reader.opened }.forgetDst.endOk) (exec .brOpen s) := .inr ⟨rfl, rfl⟩

/-- BR.PULL moves the BitReader by a pull of 1 to 8 bits (R78). -/
theorem execBrPull_ends (s : State) :
    Ends (fun t => ∃ v b, s.operands.nbits.toNat ≤ 8 ∧ pullBits s.src s.operands.nbits.toNat s.reader = .ok (v, b) ∧
        t = { s with reader := b }.forgetDst.endOk.setResBits v) (exec .brPull s) := by
  simp only [exec, execBrPull, legalBitCount, decide_eq_true_eq]
  split
  · cases hp : pullBits s.src s.operands.nbits.toNat s.reader with
    | ok p => exact .inr ⟨rfl, p.1, p.2, And.right ‹_›, rfl, rfl⟩
    | error x => rw [pullBits_error hp]; exact .inl ⟨_, rfl⟩
  · trivial

theorem execClassify_ends (s : State) :
    Ends (fun t => s.src.length = s.operands.width.toNat ∧ t = ({ s.latchWidth.openWriter with
        counters := classifyRow s.src }.forgetDst.endOk.setResFlag (classifyRow s.src).verdict)) (exec .classify s) := by
  by_cases hl : s.src.length = s.operands.width.toNat
  · rw [execClassify_eq s hl]; exact .inr ⟨rfl, hl, rfl⟩
  · simp only [exec, execClassify, hl, if_false]; trivial

/-- CLASSIFY raises no error (R93). -/
theorem execClassify_status {s t : State} (h : exec .classify s = .next t) : t.results.status = .ok := by
  by_cases hl : s.src.length = s.operands.width.toNat
  · rw [execClassify_eq s hl] at h; cases h; rfl
  · simp only [exec, execClassify, hl, if_false, reduceCtorEq] at h

theorem execEncodeRow_ends (s : State) :
    Ends (fun t => ∃ u, OnlyEncoder s.latchWidth u ∧ u.writer = { acc := 0, free := 8 } ∧ t = u.endOk)
      (exec .encodeRow s) := by
  by_cases h0 : s.operands.width.toNat = 0
  · simp only [exec, execEncodeRow, h0, if_true]; exact .inl ⟨_, rfl⟩
  · by_cases hl : s.src.length = s.operands.width.toNat
    · obtain ⟨u, hu, ho, -, hw⟩ := execEncodeRow_spec s hl h0
      rw [hu]; exact .inr ⟨rfl, u, ho, hw, rfl⟩
    · simp only [exec, execEncodeRow, h0, hl, if_false]; trivial

/-- DECODE_ROW leaves a BitReader in range, behind its last symbol (R115, R123). -/
theorem execDecodeRow_ends (s : State) :
    Ends (fun t => ∃ b out, b.InRange s.src ∧
        t = { s.latchWidth with writer := { acc := 0, free := 8 }, reader := b, rem := 0, phase := .idle,
                                dst := out }.endOk.setResConsumed b.rdPos) (exec .decodeRow s) := by
  by_cases h0 : s.operands.width.toNat = 0
  · simp only [exec, execDecodeRow, h0, if_true]; exact .inl ⟨_, rfl⟩
  · have hsp := execDecodeRow_spec s h0
    split at hsp
    · obtain ⟨b, hb, -, -, h7, hin⟩ := hsp
      rw [hb]; exact .inr ⟨rfl, b, _, ⟨by omega, hin⟩, rfl⟩
    · rw [hsp]; exact .inl ⟨_, rfl⟩

/-- ENCODE_IMAGE leaves the counters as its last row leaves them (R131). -/
theorem execEncodeImage_ends (s : State) :
    Ends (fun t => ∃ u m, OnlyImageEncoder s.latchRaster.openPipeline u ∧ u.writer = { acc := 0, free := 8 } ∧
        (∃ row ∈ s.operands.raster.rows, row.length = s.operands.raster.width.toNat ∧ u.counters = classifyRow row) ∧
        t = u.endImage.setResBarch m) (exec .encodeImage s) := by
  by_cases h0 : s.operands.raster.width.toNat = 0 ∨ s.operands.raster.height.toNat = 0
  · simp only [exec, execEncodeImage, h0, if_true]; exact .inl ⟨_, rfl⟩
  · by_cases hd : s.operands.depth = 8
    · by_cases hs : s.operands.raster.wellShaped = true
      · obtain ⟨u, lines, hu, -, ho, hw, hc⟩ := execEncodeImage_spec s (by tauto) (by tauto) hd hs
        obtain ⟨hrows, hlen⟩ := RasterImage.rows_length hs
        have hne : s.operands.raster.rows ≠ [] := fun he => h0 (.inr (by rw [← hrows, he]; rfl))
        have hlast := List.getLast_mem hne
        rw [hu]
        refine .inr ⟨rfl, u, _, ho, hw, ⟨_, hlast, hlen _ hlast, ?_⟩, rfl⟩
        rw [hc, List.getLastD_eq_getLast?, List.getLast?_map, List.getLast?_eq_getLast_of_ne_nil hne]; rfl
      · simp only [exec, execEncodeImage, h0, if_false, Config.depth8, hd, hs, ne_eq, not_true_eq_false]; trivial
    · simp only [exec, execEncodeImage, h0, if_false, Config.depth8, hd, ne_eq, not_false_eq_true, if_true]
      exact .inl ⟨_, rfl⟩

theorem execDecodeImage_ends (s : State) :
    Ends (fun t => ∃ u m, OnlyImageDecoder s.latchBarch.openBarch u ∧ (u.phase = .idle ∨ u.phase = s.phase) ∧
        u.writer = { acc := 0, free := 8 } ∧ t = u.endImage.setResRaster m) (exec .decodeImage s) := by
  by_cases h0 : s.operands.barch.width.toNat = 0 ∨ s.operands.barch.height.toNat = 0
  · simp only [exec, execDecodeImage, h0, if_true]; exact .inl ⟨_, rfl⟩
  · by_cases hc : s.operands.barch.countsAgree = true
    · have hsp := execDecodeImage_spec s (by tauto) (by tauto) hc
      split at hsp
      · obtain ⟨u, hu, ho, hp, hw⟩ := hsp
        rw [hu]; exact .inr ⟨rfl, u, _, ho, hp, hw, rfl⟩
      · rw [hsp]; exact .inl ⟨_, rfl⟩
    · simp only [exec, execDecodeImage, h0, if_false, hc]; exact .inl ⟨_, rfl⟩

theorem execSerialize_ends (s : State) :
    Ends (fun t => ∃ out, t = (s.latchBarch.openBarch.lastRow.emit out).forgetReader.endOk) (exec .serialize s) := by
  simp only [exec, execSerialize]
  split
  · exact .inl ⟨_, rfl⟩
  · split
    · split
      · exact .inr ⟨rfl, _, by simp only [State.emit, List.append_assoc]; rfl⟩
      · exact .inl ⟨_, rfl⟩
    · exact .inl ⟨_, rfl⟩

theorem execDeserialize_ends (s : State) :
    Ends (fun t => ∃ u m, OnlyDeserializer (s.latchDims m.width m.height).openPipeline u ∧
        (u.phase = .idle ∨ u.phase = s.phase) ∧ u.writer = { acc := 0, free := 8 } ∧ t = u.endImage.setResBarch m)
      (exec .deserialize s) := by
  have hsp := execDeserialize_spec s
  split at hsp
  · obtain ⟨u, hu, ho, hp, hw⟩ := hsp
    rw [hu]; exact .inr ⟨rfl, u, _, ho, hp, hw, rfl⟩
  · obtain ⟨l, -, hu⟩ := hsp
    rw [hu]; exact .inl ⟨_, rfl⟩

/-! ### What every command keeps -/

theorem OnlyEncoder.inputs {s t : State} (h : OnlyEncoder s t) : KeepsInputs s t := by
  rw [OnlyEncoder] at h; rw [h]; exact ⟨rfl, rfl, rfl, rfl, rfl⟩

theorem OnlyImageEncoder.inputs {s t : State} (h : OnlyImageEncoder s t) : KeepsInputs s t := by
  rw [OnlyImageEncoder] at h; rw [h]; exact ⟨rfl, rfl, rfl, rfl, rfl⟩

theorem OnlyImageDecoder.inputs {s t : State} (h : OnlyImageDecoder s t) : KeepsInputs s t := by
  rw [OnlyImageDecoder] at h; rw [h]; exact ⟨rfl, rfl, rfl, rfl, rfl⟩

theorem OnlyDeserializer.inputs {s t : State} (h : OnlyDeserializer s t) : KeepsInputs s t := by
  rw [OnlyDeserializer] at h; rw [h]; exact ⟨rfl, rfl, rfl, rfl, rfl⟩

/-- An image-level end: what the rows have kept is kept, and the BitReader is any value in its range (log 12). -/
theorem Emptied.endImage {s u t : State} (hi : KeepsInputs s u) (hp : u.phase = .idle ∨ u.phase = s.phase)
    (hw : u.writer = { acc := 0, free := 8 }) (ht : ∃ r, t = { u.endImage with results := r }) : Emptied s t := by
  obtain ⟨r, rfl⟩ := ht
  exact { inputs := hi.trans ⟨rfl, rfl, rfl, rfl, rfl⟩, phase := hp, writer := hw,
          reader := fun _ => anyReader_ok _ _ }

/-- **Every command above the BitPacker level** that ends OK leaves the BitWriter empty and the inputs as they were. -/
theorem exec_emptied {i : Instr} (hc : i.aboveBitPacker = true) (s : State) : Ends (Emptied s) (exec i s) := by
  cases i
  case white | black | lit1 | lit2 | lit3 | lit4 | bwReset | bwPush | bwFlush | brOpen | brPull => cases hc
  case classify =>
    refine (execClassify_ends s).mono ?_
    rintro t ⟨-, rfl⟩
    exact { inputs := ⟨rfl, rfl, rfl, rfl, rfl⟩, phase := .inr rfl, writer := rfl, reader := id }
  case encodeRow =>
    refine (execEncodeRow_ends s).mono ?_
    rintro t ⟨u, ho, hw, rfl⟩
    have hi : KeepsInputs s u := .trans (t := s.latchWidth) ⟨rfl, rfl, rfl, rfl, rfl⟩ ho.inputs
    rw [OnlyEncoder] at ho
    refine { inputs := hi.trans ⟨rfl, rfl, rfl, rfl, rfl⟩, phase := .inr ?_, writer := hw, reader := ?_ }
    · rw [State.endOk_phase, ho]; rfl
    · rw [State.endOk_reader, State.endOk_src, ho]; exact id
  case decodeRow =>
    refine (execDecodeRow_ends s).mono ?_
    rintro t ⟨b, out, hb, rfl⟩
    exact { inputs := ⟨rfl, rfl, rfl, rfl, rfl⟩, phase := .inl rfl, writer := rfl, reader := fun _ => hb }
  case encodeImage =>
    refine (execEncodeImage_ends s).mono ?_
    rintro t ⟨u, m, ho, hw, -, rfl⟩
    refine .endImage (.trans (t := s.latchRaster.openPipeline) ⟨rfl, rfl, rfl, rfl, rfl⟩ ho.inputs) (.inr ?_) hw ⟨_, rfl⟩
    rw [OnlyImageEncoder] at ho; rw [ho]; rfl
  case decodeImage =>
    refine (execDecodeImage_ends s).mono ?_
    rintro t ⟨u, m, ho, hp, hw, rfl⟩
    exact .endImage (.trans (t := s.latchBarch.openBarch) ⟨rfl, rfl, rfl, rfl, rfl⟩ ho.inputs) hp hw ⟨_, rfl⟩
  case serialize =>
    refine (execSerialize_ends s).mono ?_
    rintro t ⟨out, rfl⟩
    exact { inputs := ⟨rfl, rfl, rfl, rfl, rfl⟩, phase := .inr rfl, writer := rfl, reader := fun _ => anyReader_ok _ _ }
  case deserialize =>
    refine (execDeserialize_ends s).mono ?_
    rintro t ⟨u, m, ho, hp, hw, rfl⟩
    exact .endImage (.trans (t := (s.latchDims m.width m.height).openPipeline) ⟨rfl, rfl, rfl, rfl, rfl⟩ ho.inputs) hp hw ⟨_, rfl⟩

/-- A flush keeps the BitWriter in order (R74). -/
theorem flushedWriter_ok {w : BitWriter} (h : w.Ok) : (flushedWriter w).Ok := by
  rw [(flush_written [] w h).2]; exact openWriter_ok

theorem flushedWriter_inRange {w : BitWriter} (h : w.InRange) : (flushedWriter w).InRange := by
  unfold flushedWriter; split
  · exact openWriter_ok.inRange
  · exact h

/-- A reader that moves on stays in range (R15, R16). -/
theorem Advanced.inRange {src : List Byte} {n : Nat} {b b' : BitReader} (h : Advanced src n b b') (hr : b.InRange src) :
    b'.InRange src := by
  have hin := h.inside
  have hpos := hr.2
  exact ⟨h.avail, by omega⟩

/-- A pull keeps the BitReader in range. -/
theorem pullBits_inRange {src : List Byte} {n : Nat} {v : Byte} {b b' : BitReader} (hn : n ≤ 8) (hr : b.InRange src)
    (h : pullBits src n b = .ok (v, b')) : b'.InRange src := by
  have hu : n ≤ b.unread src := by
    by_contra hlt
    rw [pullBits_underrun src b (by omega)] at h; cases h
  obtain ⟨v', c, hc, hadv, -⟩ := pullBits_spec src b hn hr.1 hu
  rw [hc] at h; cases h
  exact hadv.inRange hr

/-- **Every command that ends OK** keeps the inputs, the BitWriter's invariant and the ranges. -/
theorem exec_ends {i : Instr} (hc : i.isCommand = true) (s : State) : Ends (Orderly s) (exec i s) := by
  by_cases ha : i.aboveBitPacker = true
  · exact (exec_emptied ha s).mono fun _ => Emptied.orderly
  · cases i
    case white | black | lit1 | lit2 | lit3 | lit4 => cases hc
    case classify | encodeRow | decodeRow | encodeImage | decodeImage | serialize | deserialize => exact absurd rfl ha
    case bwReset =>
      refine (execBwReset_ends s).mono ?_
      rintro t rfl
      exact { inputs := ⟨rfl, rfl, rfl, rfl, rfl⟩, phase := .inr rfl, writerOk := fun _ => openWriter_ok,
              writer := fun _ => openWriter_ok.inRange, reader := id }
    case bwPush =>
      refine (execBwPush_ends s).mono ?_
      rintro t ⟨⟨hn1, hn8⟩, ⟨hf1, hf8⟩, rfl⟩
      obtain ⟨h1, h8, -, -⟩ := pushRun_range s.writer s.operands.value hf1 hf8 hn1 hn8
      exact { inputs := ⟨rfl, rfl, rfl, rfl, rfl⟩, phase := .inr rfl,
              writerOk := fun hw => (pushRun_written [] s.writer s.operands.value hw hn1 hn8).2,
              writer := fun _ => ⟨h1, h8⟩, reader := id }
    case bwFlush =>
      refine (execBwFlush_ends s).mono ?_
      rintro t rfl
      exact { inputs := ⟨rfl, rfl, rfl, rfl, rfl⟩, phase := .inr rfl, writerOk := flushedWriter_ok,
              writer := flushedWriter_inRange, reader := id }
    case brOpen =>
      refine (execBrOpen_ends s).mono ?_
      rintro t rfl
      exact { inputs := ⟨rfl, rfl, rfl, rfl, rfl⟩, phase := .inr rfl, writerOk := id, writer := id,
              reader := fun _ => ⟨Nat.zero_le _, Nat.zero_le _⟩ }
    case brPull =>
      refine (execBrPull_ends s).mono ?_
      rintro t ⟨v, b, hn, hp, rfl⟩
      exact { inputs := ⟨rfl, rfl, rfl, rfl, rfl⟩, phase := .inr rfl, writerOk := id, writer := id,
              reader := fun hr => pullBits_inRange hn hr hp }

/-- **Every instruction that ends OK** keeps what `Orderly` says. -/
theorem exec_ok_orderly {i : Instr} {s t : State} (h : exec i s = .next t) (hok : t.results.status = .ok) : Orderly s t := by
  cases hc : i.isCommand with
  | false => exact exec_symbol_orderly hc h
  | true => exact (exec_ends hc s).ok h hok

/-- **No instruction writes an input,** whether it ends OK or in an error (R26, R43, R175). -/
theorem exec_inputs {i : Instr} {s t : State} (h : exec i s = .next t) : KeepsInputs s t := by
  cases hc : i.isCommand with
  | false => exact (exec_symbol_orderly hc h).inputs
  | true =>
    cases hst : t.results.status with
    | ok => exact ((exec_ends hc s).ok h hst).inputs
    | error e =>
      rcases exec_error hc h hst with ⟨-, l, -, rfl⟩ | ⟨-, rfl⟩ <;> exact ⟨rfl, rfl, rfl, rfl, rfl⟩

/-- No instruction reads past the end of a buffer, in any state (R16). -/
theorem exec_ne_fault (i : Instr) (s : State) (f : Fault) : exec i s ≠ .fault f := by
  cases hc : i.isCommand with
  | true => exact (exec_ends hc s).ne_fault f
  | false =>
    cases hf : i.fitsWindow s.windowSize with
    | true => rw [exec_symbol_fits hf]; simp
    | false => rw [exec_symbol_unfit hc hf]; simp

/-- The fetch stops by an underrun or by an abort (R16, R61, R122, R171). -/
theorem fetch_stop {s t : State} {x : Stop} (h : fetch s = .stop x t) :
    x = .raised .decodeUnderrun ∨ ∃ r, x = .abort r := by
  unfold fetch at h
  split at h
  · split at h
    · cases h
    · unfold fetchInRow at h
      split at h
      · cases h
      · cases h; exact (fetchSymbol_error ‹_›).imp_right fun hx => ⟨_, hx⟩
  · unfold nextMove at h
    split at h
    · cases h
    · cases h
    · cases h
    · unfold acceptCommand at h
      split at h
      · cases h; exact .inr ⟨_, rfl⟩
      · split at h
        · split at h <;> cases h
        · cases h; exact .inr ⟨_, rfl⟩

/-- Every code of the command table selects a command (R60). -/
theorem decodeCommand_isCommand {cmd : BitVec 4} {i : Instr} (h : decodeCommand cmd = .ok i) : i.isCommand = true := by
  unfold decodeCommand at h
  split at h <;> cases h <;> rfl

end Sys2Proof.Machine
end

section
/-! PROOFS. The machine's invariant: at reset, and kept by every step. -/

namespace Sys2Proof.Machine

/-- Settles O51: the reset values stand in the ranges, and no row is open. -/
theorem invariantAtReset : Obligations.InvariantAtReset :=
  (inv_iff _).mpr ⟨openWriter_ok.inRange, ⟨Nat.zero_le _, Nat.zero_le _⟩, rfl, fun h => by cases h⟩

/-- Where no row is open the invariant is the ranges and ABORTED. -/
theorem inv_idle {s : State} (hw : s.writer.InRange) (hr : s.reader.InRange s.src) (ha : s.aborted = false)
    (hp : s.phase = .idle) : Inv s :=
  (inv_iff s).mpr ⟨hw, hr, ha, fun h => by rw [hp] at h; cases h⟩

theorem inv_resetMove (s : State) (rest : List HostMove) : Inv (s.resetMove rest) :=
  inv_idle openWriter_ok.inRange ⟨Nat.zero_le _, Nat.zero_le _⟩ rfl rfl

theorem inv_resetCut (s : State) (rest : List HostMove) : Inv (s.resetCut rest) :=
  inv_idle openWriter_ok.inRange ⟨Nat.zero_le _, Nat.zero_le _⟩ rfl rfl

/-- An error leaves the writer and the reader at free values in their ranges, and no row open (log 8). -/
theorem inv_errorEntry {s : State} (ha : s.aborted = false) (e : ErrorKind) : Inv (s.errorEntry e) :=
  inv_idle (anyWriter_ok _) (anyReader_ok _ _) ha rfl

theorem inv_errorEntryKeepingReader {s : State} (ha : s.aborted = false) (hr : s.reader.InRange s.src) (e : ErrorKind) :
    Inv (s.errorEntryKeepingReader e) :=
  inv_idle (anyWriter_ok _) hr ha rfl

/-- The host's moves and operand writes keep the invariant between commands; a new SRC takes the BitReader with it. -/
theorem inv_applyWrites {s : State} (hp : s.phase = .idle) (h : Inv s) (rest : List HostMove) (ws : List OperandWrite) :
    Inv ({ s with inbox := rest }.applyWrites ws) := by
  obtain ⟨hw, hr, ha, -⟩ := (inv_iff s).mp h
  refine inv_idle ?_ (State.applyWrites_reader (s := { s with inbox := rest }) hr.1 hr.2 ws) ?_ ?_
  · rw [State.applyWrites_writer]; exact hw
  · rw [State.applyWrites_aborted]; exact ha
  · rw [State.applyWrites_phase]; exact hp

/-- A command keeps the invariant: ended OK by `Orderly`, ended in an error by the shared entry. -/
theorem command_keeps_inv {i : Instr} {s t : State} (hc : i.isCommand = true) (hp : s.phase = .idle) (hs : Inv s)
    (h : exec i s = .next t) : Inv t := by
  obtain ⟨hw, hr, ha, -⟩ := (inv_iff s).mp hs
  cases hst : t.results.status with
  | ok =>
    have ho := exec_ok_orderly h hst
    exact inv_idle (ho.writer hw) (ho.reader hr) (ho.inputs.aborted.trans ha) (ho.phase.elim id (·.trans hp))
  | error e =>
    rcases exec_error hc h hst with ⟨-, l, -, rfl⟩ | ⟨-, rfl⟩
    · exact inv_errorEntry (s := { s with latched := l }) ha e
    · exact inv_errorEntryKeepingReader ha hr e

/-- Emitting the samples of a symbol keeps `len(out) = W − rem`, and the row is closed with its last sample (R22, R115). -/
theorem closeRow_produce_row {s : State} {xs : List Byte} (hrow : RowOpen s) (hle : xs.length ≤ s.rem)
    (hp : (closeRow (s.produce xs)).phase = .decoding) : RowOpen (closeRow (s.produce xs)) := by
  obtain ⟨-, hsum⟩ := hrow
  unfold closeRow at hp ⊢
  split
  · rw [if_pos ‹_›] at hp; cases hp
  · refine ⟨Nat.pos_of_ne_zero ‹_›, ?_⟩
    simp only [State.produce_dst, State.produce_rem, State.produce_latched, List.length_append]
    omega

/-- A symbol step keeps the invariant: the cursor stays in range, and the row stays as R22 says until it is closed. -/
theorem symbol_keeps_inv {i : Instr} {b : BitReader} {s t : State} (hp : s.phase = .decoding) (hs : Inv s)
    (hf : fetchSymbol s.src s.windowSize s.reader = .ok (i, b)) (h : exec i { s with reader := b } = .next t) : Inv t := by
  obtain ⟨hw, hr, ha, hrow⟩ := (inv_iff s).mp hs
  have hrow := hrow hp
  have hfit := fetchSymbol_fits hf
  have hk := State.windowSize_open hp
  have hadv := fetchSymbol_ok (by have := hrow.1; omega) hr.1 hf
  have ho := exec_symbol_orderly (Instr.not_isCommand_of_fits hfit) h
  refine (inv_iff t).mpr ⟨ho.writer hw, ho.reader (hadv.inRange hr), ho.inputs.aborted.trans ha, ?_⟩
  have hx : exec i { s with reader := b } =
      .next (closeRow ({ s with reader := b }.produce (samplesOf s.windowSize i))) := exec_symbol_fits hfit
  rw [hx] at h; cases h
  have hle : (samplesOf s.windowSize i).length ≤ s.rem := by
    rw [samplesOf_length hfit, hk]; exact Nat.min_le_right _ _
  exact closeRow_produce_row (s := { s with reader := b }) hrow hle

/-- Settles O52: each of the things a step can do keeps the invariant. -/
theorem everyStepKeepsTheInvariant : Obligations.EveryStepKeepsTheInvariant := by
  intro s t hs h
  rcases step_cases h with ⟨-, -, rfl⟩ | ⟨rest, -, rfl⟩ | ⟨rest, rfl⟩ | ⟨ws, cmd, rest, i, ha, -, -, hd, hx⟩ |
    ⟨i, b, hp, -, hf, hx⟩ | ⟨e, -, -, -, rfl⟩
  · exact hs
  · exact inv_resetMove s rest
  · exact inv_resetCut s rest
  · refine command_keeps_inv (decodeCommand_isCommand hd) ?_ (inv_applyWrites ha.1 hs rest ws) hx
    rw [State.applyWrites_phase]; exact ha.1
  · exact symbol_keeps_inv hp hs hf hx
  · obtain ⟨-, -, ha, -⟩ := (inv_iff s).mp hs
    exact inv_errorEntry ha e

end Sys2Proof.Machine
end

section
/-! PROOFS. What a step runs, and DECODE_ROW as its symbol steps. -/

namespace Sys2Proof.Machine

/-- Settles O5, by the step's rule for an issued command. -/
theorem stepRunsTheIssuedCommand : Obligations.StepRunsTheIssuedCommand :=
  fun _ _ _ _ _ ha hi hr hd => step_issue ha hi hr hd

/-- Settles O6: the fetch is the decoder, and past its bits the cursor stands at what the decoder left. -/
theorem stepRunsTheSymbolAtTheCursor : Obligations.StepRunsTheSymbolAtTheCursor := by
  intro s hp hr h0 h8
  have hk := State.windowSize_open hp
  have hspec := fetchSymbol_spec s.src (k := s.windowSize) s.reader (by omega) h8
  rw [← hk, step_open hp hr]
  constructor
  · intro i rest hd
    rw [hd] at hspec
    obtain ⟨b, hb, hadv⟩ := hspec
    refine ⟨b, by rw [hb], ?_, by have := hadv.cursor; omega⟩
    rw [hadv.bits, (decodeSymbol_ok hd).1, List.drop_left' rfl]
  · intro r hd
    rw [hd] at hspec
    simp only at hspec
    rw [hspec]; rfl

/-- Settles O9: an open row's step runs a symbol or ends the row by an error, and neither writes an input. -/
theorem openRowRunsBeforeTheHost : Obligations.OpenRowRunsBeforeTheHost := by
  intro s t hp hr h
  rw [step_open hp hr] at h
  split at h
  · obtain ⟨hsrc, hops, -, hinbox, hab⟩ := exec_inputs h
    exact ⟨hinbox, hops, hsrc, hab⟩
  · rename_i x _
    cases x with
    | raised e => cases h; exact ⟨rfl, rfl, rfl, rfl⟩
    | abort r => cases h
    | fault f => cases h

/-- Settles O45: no instruction faults, and a fetch stops only by an underrun or where the row needs no sample. -/
theorem noReadPastTheBuffer : Obligations.NoReadPastTheBuffer := by
  intro s f
  refine ⟨?_, fun i => exec_ne_fault i s f⟩
  unfold step
  split
  · exact exec_ne_fault _ _ f
  · simp
  · rename_i x t hfetch
    rcases fetch_stop hfetch with rfl | ⟨r, rfl⟩ <;> simp [finish]

/-- Settles O46: symbols and commands ended OK keep the inputs by `Orderly`, the others by the shared error entry. -/
theorem inputsAreNeverWritten : Obligations.InputsAreNeverWritten := by
  intro i s t h
  obtain ⟨hsrc, hops, hmagic, hinbox, hab⟩ := exec_inputs h
  exact ⟨hsrc, hops, hmagic, hinbox, hab⟩

/-! ### DECODE_ROW as its symbol steps -/

/-- An error ends a row alike before and after a symbol: what the symbol has written, the shared entry gives up (R175). -/
theorem finishSymbol_produce (s : State) (b : BitReader) (xs : List Byte) (r : Except Stop State) :
    finishSymbol ({ s with reader := b }.produce xs) r = finishSymbol s r := by
  rcases r with (e | r | f) | t <;> rfl

/-- And alike in the row just opened and before it. -/
theorem finishSymbol_openRow (w : Nat) (s : State) (r : Except Stop State) :
    finishSymbol (openRow w s) r = finishSymbol s r := by
  rcases r with (e | r | f) | t <;> rfl

/-- DECODE_ROW ends as its loop ends (R115). -/
theorem exec_decodeRow_eq (s : State) (h0 : s.operands.width.toNat ≠ 0) :
    exec .decodeRow s = finishSymbol s.latchWidth (decodeRowBody s.src s.latchWidth) := by
  simp only [exec, execDecodeRow, h0, if_false]
  cases decodeRowBody s.src s.latchWidth <;> rfl

/-- A step of an open row is one turn of the row decoder's loop. -/
theorem step_symbol {s : State} (hp : s.phase = .decoding) (hr : s.inbox.head? ≠ some .resetNow) :
    (∃ x, fetchSymbol s.src s.windowSize s.reader = .error x ∧ step s = finishSymbol s (.error x)) ∨
    (∃ i b, fetchSymbol s.src s.windowSize s.reader = .ok (i, b) ∧ i.fitsWindow s.windowSize = true ∧
      step s = .next (closeRow ({ s with reader := b }.produce (samplesOf s.windowSize i)))) := by
  rw [step_open hp hr]
  cases hf : fetchSymbol s.src s.windowSize s.reader with
  | error x => exact .inl ⟨x, rfl, rfl⟩
  | ok p =>
    obtain ⟨i, b⟩ := p
    have hfit := fetchSymbol_fits hf
    exact .inr ⟨i, b, rfl, hfit, exec_symbol_fits (s := { s with reader := b }) hfit⟩

theorem decodeSymbols_done (src : List Byte) (fuel : Nat) {s : State} (h : s.rem = 0) :
    decodeSymbols src fuel s = .ok s := by
  cases fuel with
  | zero => rfl
  | succ fuel => simp only [decodeSymbols, h, if_true]

/-- **The machine's own steps in an open row** end as the row decoder's loop ends, one step for each symbol. -/
theorem run_row (fuel : Nat) (s : State) (hp : s.phase = .decoding) (hr : s.inbox.head? ≠ some .resetNow)
    (h0 : 0 < s.rem) (hf : s.rem ≤ 4 * fuel) :
    ∃ n, 1 ≤ n ∧ n ≤ ceilDiv s.rem 4 ∧ run n s = finishSymbol s (decodeSymbols s.src fuel s) ∧
      ∀ t, decodeSymbols s.src fuel s = .ok t → n = ceilDiv s.rem 4 := by
  induction fuel generalizing s with
  | zero => omega
  | succ fuel ih =>
    have hk := State.windowSize_open hp
    have hcd : 1 ≤ ceilDiv s.rem 4 := by rw [ceilDiv]; omega
    rcases step_symbol hp hr with ⟨x, hx, hstep⟩ | ⟨i, b, hb, hfit, hstep⟩
    · have hd : decodeSymbols s.src (fuel + 1) s = .error x := by
        simp only [decodeSymbols, Nat.ne_of_gt h0, if_false, hx]
      refine ⟨1, Nat.le_refl 1, hcd, ?_, fun t ht => by rw [hd] at ht; cases ht⟩
      rw [hd, ← hstep, run_step]
      cases step s <;> rfl
    · have hbody := symbolBody_fits i { s with reader := b } hfit
      have hd : decodeSymbols s.src (fuel + 1) s =
          decodeSymbols s.src fuel ({ s with reader := b }.produce (samplesOf s.windowSize i)) := by
        simp only [decodeSymbols, Nat.ne_of_gt h0, if_false, hb, hbody]; rfl
      have hrem : ({ s with reader := b }.produce (samplesOf s.windowSize i)).rem = s.rem - 4 := by
        rw [State.produce_rem, samplesOf_length hfit, hk]; simp only; omega
      rw [hd]
      by_cases hlast : s.rem ≤ 4
      · rw [decodeSymbols_done _ _ (by omega)]
        exact ⟨1, Nat.le_refl 1, hcd, by rw [run_succ hstep]; rfl, fun _ _ => by rw [ceilDiv]; omega⟩
      · rw [closeRow, if_neg (by omega)] at hstep
        obtain ⟨n, -, hn4, hrun, hok⟩ :=
          ih ({ s with reader := b }.produce (samplesOf s.windowSize i)) hp hr (by omega) (by omega)
        have hnext : ceilDiv s.rem 4 = ceilDiv (s.rem - 4) 4 + 1 := by simp only [ceilDiv]; omega
        rw [hrem] at hn4 hok
        refine ⟨n + 1, by omega, by omega, ?_, fun t ht => by rw [hok t ht, hnext]⟩
        rw [run_succ hstep, hrun, finishSymbol_produce]; rfl

/-- Settles O30: the row decoder's loop, on the row just opened, is the machine's own run. -/
theorem decodeRowIsItsSymbolSteps : Obligations.DecodeRowIsItsSymbolSteps := by
  intro s h0 hr
  obtain ⟨n, hn1, hn4, hrun, hok⟩ := run_row (ceilDiv s.operands.width.toNat Config.batch)
    (openRow s.operands.width.toNat s.latchWidth) rfl hr (Nat.pos_of_ne_zero h0)
    (by simp only [openRow_rem, ceilDiv, Config.batch]; omega)
  have hbody : decodeSymbols s.src (ceilDiv s.operands.width.toNat Config.batch)
      (openRow s.operands.width.toNat s.latchWidth) = decodeRowBody s.src s.latchWidth := rfl
  rw [openRow_src, State.latchWidth_src, hbody] at hrun hok
  rw [finishSymbol_openRow, ← exec_decodeRow_eq s h0] at hrun
  refine ⟨n, hn1, hn4, hrun, fun t ht hst => ?_⟩
  rw [exec_decodeRow_eq s h0] at ht
  cases hd : decodeRowBody s.src s.latchWidth with
  | ok u => exact hok u hd
  | error x =>
    rw [hd] at ht
    cases x with
    | raised e => cases ht; cases hst
    | abort r => cases ht
    | fault f => cases ht

end Sys2Proof.Machine
end

section
/-! PROOFS. The BitWriter's invariant, the classifier's counters, and what the commands leave unchanged. -/

namespace Sys2Proof.Machine

/-- A step that does not end in an error keeps the BitWriter's invariant; the host's writes do not touch it. -/
theorem step_keeps_writerOk {s t : State} (hs : s.writer.Ok) (h : step s = .next t) (hok : t.results.status = .ok) :
    t.writer.Ok := by
  rcases step_cases h with ⟨-, -, rfl⟩ | ⟨rest, -, rfl⟩ | ⟨rest, rfl⟩ | ⟨ws, cmd, rest, i, -, -, -, -, hx⟩ |
    ⟨i, b, -, -, -, hx⟩ | ⟨e, -, -, -, rfl⟩
  · exact hs
  · exact openWriter_ok
  · exact openWriter_ok
  · exact (exec_ok_orderly hx hok).writerOk (by rw [State.applyWrites_writer]; exact hs)
  · exact (exec_ok_orderly hx hok).writerOk hs
  · cases hok

/-- Settles O17: the writer is emptied by the three, and pushed or flushed in order by the rest. -/
theorem writerInvariantKept : Obligations.WriterInvariantKept := by
  refine ⟨openWriter_ok, ?_, ?_, fun s t => step_keeps_writerOk⟩
  · intro s t h; cases h; exact openWriter_ok
  · intro s t h hok
    rw [((exec_emptied rfl s).ok h hok).writer]; exact openWriter_ok

/-- The ranges of R19 after a row of `n` samples. -/
theorem Counters.Ok.bounds {n : Nat} {c : Counters} (h : c.Ok n) :
    c.wrun ≤ 3 ∧ c.brun ≤ 3 ∧ (c.wrun = 0 ∨ c.brun = 0) ∧ c.wbat + c.bbat ≤ n / 4 := by
  have hcount := h.count
  exact ⟨h.wrun, h.brun, h.apart, by omega⟩

/-- Settles O21: the counters are those of a row of `W` samples, the operand of CLASSIFY or the image's last row. -/
theorem classifierCountersStayBounded : Obligations.ClassifierCountersStayBounded := by
  refine ⟨fun row => (classifyRow_ok row).bounds, ?_⟩
  rintro s t (h | ⟨h, hok⟩)
  · obtain ⟨hlen, rfl⟩ := (execClassify_ends s).ok h (execClassify_status h)
    have hb := (classifyRow_ok s.src).bounds
    rw [hlen] at hb
    exact hb
  · obtain ⟨u, m, ho, -, ⟨row, -, hlen, hc⟩, rfl⟩ := (execEncodeImage_ends s).ok h hok
    have hb := (classifyRow_ok row).bounds
    have hw : u.latched.w = s.operands.raster.width := by rw [ho.latched]; rfl
    rw [hlen, ← hc, ← hw] at hb
    exact hb

/-- Settles O54, from what the three commands answer. -/
theorem readerAndClassifierFrame : Obligations.ReaderAndClassifierFrame := by
  intro i s t h hok
  refine ⟨?_, ?_⟩
  · rintro (rfl | rfl)
    · have ht := (execBrOpen_ends s).ok h hok
      rw [ht]; rfl
    · obtain ⟨v, b, -, -, ht⟩ := (execBrPull_ends s).ok h hok
      rw [ht]; rfl
  · rintro rfl
    obtain ⟨-, ht⟩ := (execClassify_ends s).ok h hok
    rw [ht]; rfl

/-- Settles O56, from what the two commands answer. -/
theorem rowCommandsFrame : Obligations.RowCommandsFrame := by
  intro s t
  refine ⟨fun h hok => ?_, fun h hok => ?_⟩
  · obtain ⟨u, ho, -, ht⟩ := (execEncodeRow_ends s).ok h hok
    rw [ht, ho]; rfl
  · obtain ⟨b, out, -, ht⟩ := (execDecodeRow_ends s).ok h hok
    rw [ht]; rfl

/-- A flush of an empty BitWriter appends nothing and leaves it empty (R74). -/
theorem execBwFlush_empty {t : State} (hw : t.writer = { acc := 0, free := 8 }) :
    ∃ u, exec .bwFlush t = .next u ∧ u.dst = t.dst ∧ u.writer = t.writer ∧ u.results.resByteValid = false := by
  have hout : flushOut t.writer = [] := by rw [hw]; rfl
  have hkept : flushedWriter t.writer = t.writer := by rw [hw]; rfl
  refine ⟨_, rfl, ?_, hkept, ?_⟩
  · simp [hout]
  · simp [hout]

/-- Settles O59: the writer is empty, so a flush finds nothing to append. -/
theorem higherCommandsLoseThePendingBits : Obligations.HigherCommandsLoseThePendingBits := by
  intro i s t hc h hok
  have hw := ((exec_emptied hc s).ok h hok).writer
  exact ⟨hw, execBwFlush_empty hw⟩

end Sys2Proof.Machine
end

section
/-! PROOFS. The buffers and the operand registers: what SERIALIZE writes, what the writer commands leave unchanged, and where
the host's operand writes land. -/

namespace Sys2Proof.Machine

/-! ### The container SERIALIZE writes -/

/-- The four bytes of an integer, at their weights (R34). -/
theorem toNat_eq_bytesOfU32 (v : U32) :
    v.toNat = ((bytesOfU32 v).getD 0 0).toNat + 256 * ((bytesOfU32 v).getD 1 0).toNat +
      65536 * ((bytesOfU32 v).getD 2 0).toNat + 16777216 * ((bytesOfU32 v).getD 3 0).toNat := by
  have := v.isLt
  simp only [bytesOfU32, List.getD_cons_zero, List.getD_cons_succ, BitVec.extractLsb'_toNat, Nat.shiftRight_eq_div_pow]
  omega

/-- An image in order passes both checks of SERIALIZE (R46, R148). -/
theorem BarchImage.wellShaped_iff {m : BarchImage} :
    m.wellShaped = true ↔ m.countsAgree = true ∧ rawLinesFit m = true := Bool.and_eq_true_iff

/-- SERIALIZE writes the container of an image in order (R145, R148). -/
theorem execSerialize_wellShaped {s : State} (hw : s.operands.barch.width.toNat ≠ 0)
    (hh : s.operands.barch.height.toNat ≠ 0) (hm : s.operands.barch.wellShaped = true) :
    exec .serialize s =
      .next (s.latchBarch.openBarch.lastRow.emit (containerBytes s.magic s.operands.barch)).forgetReader.endOk := by
  obtain ⟨hc, hr⟩ := BarchImage.wellShaped_iff.mp hm
  simp only [exec, execSerialize, hw, hh, hc, hr, or_self, if_false, if_true, State.emit, containerBytes, containerWith,
    List.append_assoc]

/-- Settles O39: DST, emptied first, takes the container's bytes, and each of its parts is as R34 and R146 lay it out. -/
theorem serializeLayout : Obligations.SerializeLayout := by
  intro s hw hh hm
  obtain ⟨hc, -⟩ := BarchImage.wellShaped_iff.mp hm
  have hflags := (BarchImage.counts hc).1
  refine ⟨_, bytesOfU32 s.operands.barch.width, bytesOfU32 s.operands.barch.height,
    flagBytes s.operands.barch.flags s.operands.barch.height.toNat, execSerialize_wellShaped hw hh hm, rfl, ?_, rfl, rfl,
    flagBytes_length _ _, toNat_eq_bytesOfU32 _, toNat_eq_bytesOfU32 _, ?_, ?_, rfl⟩
  · simp [containerBytes, containerWith]
  · rw [← hflags, bitsOfBytes_flagBytes]
  · simp [containerBytes_length, List.length_flatten]

/-! ### What BW.RESET, BW.PUSH and BW.FLUSH leave unchanged -/

/-- BW.PUSH raises no error (R72, R73). -/
theorem execBwPush_status {s t : State} (h : exec .bwPush s = .next t) : t.results.status = .ok := by
  simp only [exec, execBwPush] at h
  split at h
  · split at h
    · cases h; rfl
    · cases h
  · cases h

/-- Settles O53: BW.RESET empties DST, the other two append to it, and only BW.PUSH runs PACK. -/
theorem writerCommandsFrame : Obligations.WriterCommandsFrame := by
  rintro i s t (rfl | rfl | rfl) h
  · cases h
    exact ⟨rfl, fun _ => rfl, fun hi => absurd rfl hi⟩
  · obtain ⟨-, -, rfl⟩ := (execBwPush_ends s).ok h (execBwPush_status h)
    exact ⟨rfl, fun hi => absurd rfl hi, fun _ _ => memByte_append⟩
  · cases h
    exact ⟨rfl, fun _ => rfl, fun _ _ => memByte_append⟩

/-! ### Where the host's operand writes land -/

/-- The host's writes reach the operand registers, SRC with its BitReader, and the free-value counter; nothing else. -/
theorem State.applyWrites_frame (s : State) (ws : List OperandWrite) :
    s.applyWrites ws = { s with operands := (s.applyWrites ws).operands, src := (s.applyWrites ws).src,
                                reader := (s.applyWrites ws).reader, fresh := (s.applyWrites ws).fresh } := by
  induction ws generalizing s with
  | nil => rfl
  | cons w ws ih => cases w <;> exact ih _

/-- Every write of SRC draws the free values of its BitReader (log 7, log 19). -/
theorem State.applyWrites_fresh (s : State) (ws : List OperandWrite) :
    (s.applyWrites ws).fresh = s.fresh + (ws.filterMap OperandWrite.src?).length := by
  induction ws generalizing s with
  | nil => rfl
  | cons w ws ih =>
    refine (ih (s.applyWrite w)).trans ?_
    cases w with
    | src bytes => exact Nat.add_right_comm _ _ _
    | value | nbits | width | depth | raster | barch => rfl

/-- Without a write of SRC the BitReader stays. -/
theorem State.applyWrites_reader_kept {s : State} {ws : List OperandWrite} (h : ws.filterMap OperandWrite.src? = []) :
    (s.applyWrites ws).reader = s.reader := by
  induction ws generalizing s with
  | nil => rfl
  | cons w ws ih =>
    cases w with
    | src bytes => cases h
    | value | nbits | width | depth | raster | barch => exact ih h

/-- After a write of SRC the BitReader is in range on the SRC that then stands, wherever it was before (R15, R16, log 19). -/
theorem State.applyWrites_reader_new {s : State} {ws : List OperandWrite} (h : ws.filterMap OperandWrite.src? ≠ []) :
    (s.applyWrites ws).reader.InRange (s.applyWrites ws).src := by
  induction ws generalizing s with
  | nil => exact absurd rfl h
  | cons w ws ih =>
    cases w with
    | src bytes =>
      obtain ⟨h8, hr⟩ := anyReader_ok bytes.length s.fresh
      exact State.applyWrites_reader (s := s.applyWrite (.src bytes)) h8 hr ws
    | value | nbits | width | depth | raster | barch => exact ih h

/-- Settles O60: the command runs on the state its operand writes leave, and they land where the rules above say. -/
theorem operandWritesReachTheirRegisters : Obligations.OperandWritesReachTheirRegisters := by
  intro s ws cmd rest i ha hi hr hd
  obtain ⟨hsrc, hops⟩ := applyWrites_operands ws { s with inbox := rest }
  exact ⟨_, step_issue ha hi hr hd, State.applyWrites_frame _ _, hops, hsrc, State.applyWrites_fresh _ _,
    State.applyWrites_reader_kept, State.applyWrites_reader_new⟩

end Sys2Proof.Machine
end

section
/-! PROOFS. Decode and encode: a symbol's own bits are read back as the symbol, and what is read off a stream is `0`,
`10`, or `11` with the samples verbatim behind it. -/

namespace Sys2Proof.Machine

/-! ### A symbol's own bits -/

/-- The symbols other than WHITE and BLACK are the literals of their samples (R53, R55). -/
theorem literalOf_samplesOf {k : Nat} {i : Instr} (h : i.fitsWindow k = true) (hw : i ≠ .white) (hb : i ≠ .black) :
    literalOf (samplesOf k i) = some i := by
  cases i with
  | white => exact absurd rfl hw
  | black => exact absurd rfl hb
  | lit1 | lit2 | lit3 | lit4 => rfl
  | _ => cases h

/-- A literal's bits: `11`, then its samples (R53). -/
theorem symbolBits_literal {k : Nat} {i : Instr} (h : i.fitsWindow k = true) (hw : i ≠ .white) (hb : i ≠ .black) :
    symbolBits i = true :: true :: bitsOfBytes (samplesOf k i) :=
  (literalOf_facts (literalOf_samplesOf h hw hb) k).1

/-- Some symbol fits windows of 1 to 4 samples only (R56). -/
theorem Instr.fitsWindow_bounds {k : Nat} {i : Instr} (h : i.fitsWindow k = true) : 1 ≤ k ∧ k ≤ 4 := by
  cases i with
  | white | black => exact of_decide_eq_true h
  | lit1 | lit2 | lit3 | lit4 => have hk : k = _ := of_decide_eq_true h; omega
  | _ => cases h

/-- A symbol that fits the window is read off its own bits, whatever follows them (R54, R55). -/
theorem decodeSymbol_symbolBits {k : Nat} {i : Instr} (h : i.fitsWindow k = true) (rest : Bits) :
    decodeSymbol k (symbolBits i ++ rest) = .ok (i, rest) := by
  have hk := Instr.fitsWindow_bounds h
  by_cases hw : i = .white
  · subst hw; exact decodeSymbol_white hk rest
  by_cases hb : i = .black
  · subst hb; exact decodeSymbol_black hk rest
  have hd := decodeSymbol_literal (literalOf_samplesOf h hw hb) rest
  rw [samplesOf_length h] at hd
  rw [symbolBits_literal h hw hb]
  exact hd

/-- Symbols one after another are read off their bits one by one (R50, R106). -/
theorem decodeMany_symbolBits (ws : List (Nat × Instr)) (rest : Bits) (h : ∀ p ∈ ws, p.2.fitsWindow p.1 = true) :
    decodeMany (ws.map Prod.fst) (ws.flatMap (fun p => symbolBits p.2) ++ rest) = .ok (ws.map Prod.snd, rest) := by
  induction ws with
  | nil => rfl
  | cons p ws ih =>
    obtain ⟨hp, hws⟩ := List.forall_mem_cons.mp h
    simp only [List.map_cons, List.flatMap_cons, List.append_assoc, decodeMany, decodeSymbol_symbolBits hp, ih hws]

/-- A symbol is encoded as its stream bits. -/
theorem encode_symbol {i : Instr} (h : i.isCommand = false) : encode i = .symbol (symbolBits i) := by
  cases i with
  | white | black | lit1 | lit2 | lit3 | lit4 => rfl
  | _ => cases h

/-- A command's code selects the command, whatever the window (R60). -/
theorem decode_encode_command {i : Instr} (h : i.isCommand = true) (k : Nat) : decode k (encode i) = .ok i := by
  cases i with
  | white | black | lit1 | lit2 | lit3 | lit4 => cases h
  | _ => rfl

/-- A symbol's bits, alone, decode to the symbol in a window it fits. -/
theorem decode_encode_symbol {k : Nat} {i : Instr} (h : i.fitsWindow k = true) : decode k (encode i) = .ok i := by
  have hd := decodeSymbol_symbolBits h []
  rw [List.append_nil] at hd
  simp only [encode_symbol (Instr.not_isCommand_of_fits h), decode, hd]

/-- Settles O4: a row by induction over its symbols, each read off its own bits; a command by its code. -/
theorem decodeOfEncodeIsTheInstruction : Obligations.DecodeOfEncodeIsTheInstruction := by
  refine ⟨decodeMany_symbolBits, fun k i h => ?_⟩
  rcases Bool.or_eq_true_iff.mp h with hc | hf
  · exact decode_encode_command hc k
  · exact decode_encode_symbol hf

/-! ### What is read off a stream -/

/-- What a symbol read off a stream is: WHITE behind `0`, BLACK behind `10`, or behind `11` the literal of the window's
samples, which stand there (R54, R57). -/
theorem decodeSymbol_cases {k : Nat} {bits rest : Bits} {i : Instr} (h : decodeSymbol k bits = .ok (i, rest)) :
    (i = .white ∧ bits = false :: rest) ∨ (i = .black ∧ bits = true :: false :: rest) ∨
    (i ≠ .white ∧ i ≠ .black ∧ symbolBits i = true :: true :: bitsOfBytes (samplesOf k i) ∧
      bits = true :: true :: (bitsOfBytes (samplesOf k i) ++ rest)) := by
  obtain ⟨hbits, hfit, -⟩ := decodeSymbol_ok h
  by_cases hw : i = .white
  · subst hw; exact .inl ⟨rfl, hbits⟩
  by_cases hb : i = .black
  · subst hb; exact .inr (.inl ⟨rfl, hbits⟩)
  have hlit := symbolBits_literal hfit hw hb
  exact .inr (.inr ⟨hw, hb, hlit, by rw [hbits, hlit]; rfl⟩)

/-- Settles O2: a failure is a stream that ends inside the symbol, and a success is `0`, `10` or `11` with its samples. -/
theorem prefixCodeIsComplete : Obligations.PrefixCodeIsComplete := by
  intro k bits h1 h4
  refine ⟨fun r h => ?_, fun i rest h => ?_⟩
  · obtain ⟨hr, rfl | rfl | ⟨rest, rfl, hlen⟩⟩ := decodeSymbol_error ⟨h1, h4⟩ h
    · exact ⟨hr, by simp⟩
    · exact ⟨hr, by simp; omega⟩
    · exact ⟨hr, by simp; omega⟩
  · obtain ⟨hbits, hfit, hlen, -⟩ := decodeSymbol_ok h
    refine ⟨hbits, hfit, ?_⟩
    rcases decodeSymbol_cases h with ⟨rfl, rfl⟩ | ⟨rfl, rfl⟩ | ⟨hw, hb, hs, rfl⟩
    · simp [symbolBits, encode]
    · simp [symbolBits, encode]
    · simp [hw, hb, hs, hlen]; omega

/-- Bit `m` of a byte's stretch of the stream is its bit `7 − m` (R32). -/
theorem bitsOfByte_getElem? (x : Byte) {m : Nat} (hm : m < 8) : (bitsOfByte x)[m]? = some (x.getLsbD (7 - m)) := by
  rw [← fieldBits_byte, List.getElem?_eq_getElem (by simpa using hm), fieldBits_getElem]; rfl

/-- Stream bit `8j + m` of a buffer is bit `7 − m` of its byte `j` (R32). -/
theorem bitsOfBytes_getElem? (xs : List Byte) (j : Nat) {m : Nat} (hm : m < 8) :
    (bitsOfBytes xs)[8 * j + m]? = xs[j]?.map fun x => x.getLsbD (7 - m) := by
  rw [← List.getElem?_drop, ← bitsOfBytes_drop]
  cases hj : xs.drop j with
  | nil => simp [List.getElem?_eq_none (List.drop_eq_nil_iff.mp hj)]
  | cons x ys =>
    have hx : xs[j]? = some x := by rw [← List.head?_drop, hj]; rfl
    rw [hx, bitsOfBytes_cons, List.getElem?_append_left (by simpa using hm), bitsOfByte_getElem? x hm]; rfl

/-- Settles O3: behind `11` a literal's bits are those of its samples, byte after byte. -/
theorem literalSamplesAreVerbatim : Obligations.LiteralSamplesAreVerbatim := by
  intro k bits rest i h hw hb
  obtain ⟨-, -, hlen, -⟩ := decodeSymbol_ok h
  rcases decodeSymbol_cases h with ⟨rfl, -⟩ | ⟨rfl, -⟩ | ⟨-, -, -, rfl⟩
  · exact absurd rfl hw
  · exact absurd rfl hb
  refine ⟨hlen, rfl, rfl, ?_, fun j hj m hm => ?_⟩
  · rw [Nat.add_comm, List.drop_succ_cons, List.drop_succ_cons, List.drop_left' (by simp [hlen])]
  · rw [← bitsOfBytes_getElem? _ _ hm, show 2 + 8 * j + m = 8 * j + m + 1 + 1 by omega, List.getElem?_cons_succ,
      List.getElem?_cons_succ, List.getElem?_append_left (by simp [hlen]; omega)]

/-- Settles O1: each word is run through the decoder. -/
theorem writtenOutWordsDecode : Obligations.WrittenOutWordsDecode :=
  ⟨rfl, rfl, rfl, rfl, rfl, by decide⟩

end Sys2Proof.Machine
end

section
/-! PROOFS. The size of a packed row, ENCODE_ROW as the host's own pushes, the commands the step refuses, and the symbols of
an open row. -/

namespace Sys2Proof.Machine

/-! ### The size of a packed row -/

/-- A window's symbol takes at least one bit, and at most a LITERAL's two first bits and its samples (R51 to R53). -/
theorem windowBits_length (xs : List Byte) :
    1 ≤ (windowBits xs).length ∧ (windowBits xs).length ≤ 2 + 8 * xs.length := by
  unfold windowBits
  split
  · rw [List.length_singleton]; omega
  · split
    · simp only [List.length_cons, List.length_nil]; omega
    · simp only [List.length_cons, bitsOfBytes_length]; omega

/-- A row takes at least one bit a window, and at most two bits a window beside its samples (R62, R109). -/
theorem rowBits_length (row : List Byte) :
    ceilDiv row.length 4 ≤ (rowBits row).length ∧ (rowBits row).length ≤ 8 * row.length + 2 * ceilDiv row.length 4 := by
  induction hn : row.length using Nat.strongRecOn generalizing row with
  | ind n ih =>
    subst hn
    by_cases h0 : row = []
    · subst h0; exact ⟨Nat.le_refl 0, Nat.le_refl 0⟩
    · have hpos : 0 < row.length := List.length_pos_iff.mpr h0
      obtain ⟨hlow, hhigh⟩ := windowBits_length (row.take 4)
      obtain ⟨ihlow, ihhigh⟩ := ih (row.length - 4) (by omega) (row.drop 4) List.length_drop
      have hnext : ceilDiv row.length 4 = ceilDiv (row.length - 4) 4 + 1 := by simp only [ceilDiv]; omega
      rw [List.length_take] at hhigh
      rw [rowBits_step row h0, List.length_append]
      omega

/-- Bytes that hold `bits` padded are `ceil_div(len(bits), 8)` bytes (R58). -/
theorem length_of_padToByte {bytes : List Byte} {bits : Bits} (h : bitsOfBytes bytes = padToByte bits) :
    bytes.length = ceilDiv bits.length 8 := by
  have hlen := congrArg List.length h
  rw [bitsOfBytes_length, padToByte, List.length_append, List.length_replicate] at hlen
  rw [ceilDiv]; omega

/-- ENCODE_ROW that ends OK had a row of `W >= 1` samples and leaves its symbols, padded (R100, R107). -/
theorem execEncodeRow_ok {s t : State} (h : exec .encodeRow s = .next t) (hok : t.results.status = .ok) :
    s.operands.width.toNat ≠ 0 ∧ s.src.length = s.operands.width.toNat ∧ bitsOfBytes t.dst = padToByte (rowBits s.src) := by
  by_cases h0 : s.operands.width.toNat = 0
  · simp only [exec, execEncodeRow, h0, if_true] at h
    cases h; cases hok
  · by_cases hl : s.src.length = s.operands.width.toNat
    · obtain ⟨u, hu, -, hbits, -⟩ := execEncodeRow_spec s hl h0
      rw [hu] at h
      cases h
      exact ⟨h0, hl, hbits⟩
    · simp only [exec, execEncodeRow, h0, hl, if_false, reduceCtorEq] at h

/-- Settles O23: the bounds on the row's bits, counted in bytes. -/
theorem packedRowSize : Obligations.PackedRowSize := by
  intro s t h hok
  obtain ⟨h0, hl, hbits⟩ := execEncodeRow_ok h hok
  obtain ⟨hlow, hhigh⟩ := rowBits_length s.src
  rw [length_of_padToByte hbits, ← hl]
  simp only [ceilDiv] at *
  omega

/-! ### Pushes the host issues -/

/-- Moves that do not begin with a `resetNow` do not begin with one behind pushes either. -/
theorem head?_pushMoves_ne {ps : List (Byte × BitVec 4)} {rest : List HostMove} (h : rest.head? ≠ some .resetNow) :
    (ps.map pushMove ++ rest).head? ≠ some .resetNow := by
  cases ps with
  | nil => exact h
  | cons p ps => simp [pushMove]

/-- `t` is reached from `s` by host commands that wrote `bits`: it takes host moves, `rest` is what is left of them, and its
BitWriter is in order. -/
structure Pushed (bits : Bits) (rest : List HostMove) (s t : State) : Prop where
  accepting : Accepting t
  inbox     : t.inbox = rest
  written   : writtenBits t.dst t.writer = writtenBits s.dst s.writer ++ bits
  ok        : t.writer.Ok

/-- BW.PUSH of 1 to 8 bits into a BitWriter in range answers exactly this (R72, R73). -/
theorem execBwPush_eq {s : State} (hn : legalBitCount s.operands.nbits = true) (hw : s.writer.InRange) :
    exec .bwPush s = .next ((s.pushBits s.operands.value s.operands.nbits.toNat).endOk.setResByte s.results.resByte
      (pushRun s.writer s.operands.value s.operands.nbits.toNat).out) := by
  rw [BitWriter.InRange] at hw
  simp only [exec, execBwPush, hn, hw, and_self, if_true]

/-- One push of the host's appends its field (R73, R76). -/
theorem step_push {s : State} {p : Byte × BitVec 4} {rest : List HostMove} (ha : Accepting s) (hw : s.writer.Ok)
    (hp : legalBitCount p.2 = true) (hr : rest.head? ≠ some .resetNow) (hi : s.inbox = pushMove p :: rest) :
    ∃ t, step s = .next t ∧ Pushed (fieldBits p.1.toNat p.2.toNat) rest s t := by
  obtain ⟨h1, h8⟩ := of_decide_eq_true hp
  obtain ⟨hbits, hok⟩ := pushRun_written s.dst s.writer p.1 hw h1 h8
  exact ⟨_, (step_issue ha hi hr rfl).trans (execBwPush_eq hp hw.inRange), ha, rfl, hbits, hok⟩

/-- The host's pushes, run one by one, append their fields (R76). -/
theorem run_pushes {s : State} {ps : List (Byte × BitVec 4)} {rest : List HostMove} (ha : Accepting s) (hw : s.writer.Ok)
    (hp : ∀ p ∈ ps, legalBitCount p.2 = true) (hr : rest.head? ≠ some .resetNow)
    (hi : s.inbox = ps.map pushMove ++ rest) :
    ∃ t, run ps.length s = .next t ∧ Pushed (pushedBits ps) rest s t := by
  induction ps generalizing s with
  | nil => exact ⟨s, run_zero s, ha, hi, by simp [pushedBits], hw⟩
  | cons p ps ih =>
    obtain ⟨hp1, hps⟩ := List.forall_mem_cons.mp hp
    obtain ⟨t, hstep, ht⟩ := step_push ha hw hp1 (head?_pushMoves_ne hr) hi
    obtain ⟨u, hrun, hu⟩ := ih ht.accepting ht.ok hps ht.inbox
    refine ⟨u, (run_succ hstep).trans hrun, hu.accepting, hu.inbox, ?_, hu.ok⟩
    rw [hu.written, ht.written, List.append_assoc]; rfl

/-- BW.RESET and then pushes leave exactly the pushed fields in the writer (R75, R76). -/
theorem run_reset_pushes {s : State} {ps : List (Byte × BitVec 4)} {rest : List HostMove} (ha : Accepting s)
    (hp : ∀ p ∈ ps, legalBitCount p.2 = true) (hr : rest.head? ≠ some .resetNow)
    (hi : s.inbox = .issue [] 0x1 :: (ps.map pushMove ++ rest)) :
    ∃ t, run (ps.length + 1) s = .next t ∧ Accepting t ∧ t.inbox = rest ∧
      writtenBits t.dst t.writer = pushedBits ps ∧ t.writer.Ok := by
  have hstep := step_issue ha hi (head?_pushMoves_ne hr) (i := .bwReset) rfl
  obtain ⟨t, hrun, ht⟩ := run_pushes
    (s := ({ s with inbox := ps.map pushMove ++ rest } : State).openWriter.endOk.clearResByteValid) ha openWriter_ok hp hr rfl
  exact ⟨t, (run_succ hstep).trans hrun, ht.accepting, ht.inbox, ht.written, ht.ok⟩

/-- BW.FLUSH after pushes pads the bits written to a byte and empties the writer (R74). -/
theorem step_flush {s : State} {rest : List HostMove} (ha : Accepting s) (hw : s.writer.Ok)
    (hr : rest.head? ≠ some .resetNow) (hi : s.inbox = .issue [] 0x3 :: rest) :
    ∃ t, step s = .next t ∧ bitsOfBytes t.dst = padToByte (writtenBits s.dst s.writer) ∧
      t.writer = { acc := 0, free := 8 } ∧ t.inbox = rest := by
  obtain ⟨hbits, hempty⟩ := flush_written s.dst s.writer hw
  exact ⟨_, step_issue ha hi hr rfl, hbits, hempty, rfl⟩

/-- BW.RESET, pushes and BW.FLUSH leave the pushed fields in DST, padded to a byte, and the writer empty (R63, R76). -/
theorem run_reset_pushes_flush {s : State} {ps : List (Byte × BitVec 4)} {rest : List HostMove} (ha : Accepting s)
    (hp : ∀ p ∈ ps, legalBitCount p.2 = true) (hr : rest.head? ≠ some .resetNow)
    (hi : s.inbox = .issue [] 0x1 :: (ps.map pushMove ++ .issue [] 0x3 :: rest)) :
    ∃ u, run (ps.length + 2) s = .next u ∧ bitsOfBytes u.dst = padToByte (pushedBits ps) ∧
      u.writer = { acc := 0, free := 8 } ∧ u.inbox = rest := by
  obtain ⟨t, hrun, hat, hit, hbits, hok⟩ := run_reset_pushes ha hp (by simp) hi
  obtain ⟨u, hstep, hu⟩ := step_flush hat hok hr hit
  rw [hbits] at hu
  exact ⟨u, (run_add 1 hrun).trans (run_succ hstep), hu⟩

/-! ### A row's pushes -/

theorem pushedBits_append (ps qs : List (Byte × BitVec 4)) : pushedBits (ps ++ qs) = pushedBits ps ++ pushedBits qs :=
  List.flatMap_append

/-- Samples pushed in 8 bits each are their bytes' bits (R105). -/
theorem pushedBits_samples (xs : List Byte) : pushedBits (xs.map fun x => (x, 8)) = bitsOfBytes xs := by
  rw [pushedBits, List.flatMap_map]
  exact List.flatMap_congr fun x _ => fieldBits_byte x

/-- The generators push the window's symbol (R103 to R105). -/
theorem pushedBits_windowPushes (xs : List Byte) : pushedBits (windowPushes xs) = windowBits xs := by
  unfold windowPushes windowBits
  split
  · rfl
  · split
    · rfl
    · rw [← pushedBits_samples xs]; rfl

/-- The generators push 1, 2 or 8 bits at a time. -/
theorem legalBitCount_windowPushes (xs : List Byte) : ∀ p ∈ windowPushes xs, legalBitCount p.2 = true := by
  unfold windowPushes
  split
  · exact List.forall_mem_singleton.mpr rfl
  · split
    · exact List.forall_mem_singleton.mpr rfl
    · exact List.forall_mem_cons.mpr ⟨rfl, List.forall_mem_map.mpr fun _ _ => rfl⟩

/-- A row's pushes are its symbols' bits (R63, R106). -/
theorem pushedBits_rowPushes (row : List Byte) : pushedBits (rowPushes row) = rowBits row := by
  fun_induction rowPushes row with
  | case1 => rfl
  | case2 a b c d rest ih => rw [pushedBits_append, pushedBits_windowPushes, ih, rowBits]
  | case3 | case4 | case5 => exact pushedBits_windowPushes _

theorem legalBitCount_rowPushes (row : List Byte) : ∀ p ∈ rowPushes row, legalBitCount p.2 = true := by
  fun_induction rowPushes row with
  | case1 => exact List.forall_mem_nil _
  | case2 a b c d rest ih => exact List.forall_mem_append.mpr ⟨legalBitCount_windowPushes _, ih⟩
  | case3 | case4 | case5 => exact legalBitCount_windowPushes _

/-- Settles O24: both leave the row's symbols, padded to a byte, and an empty writer. -/
theorem encodeRowIsThePushSequence : Obligations.EncodeRowIsThePushSequence := by
  intro s rest ha hl h0 hr hi
  obtain ⟨t, ht, -, hbits, hempty⟩ := execEncodeRow_spec s hl h0
  obtain ⟨u, hu, hbits', hempty', -⟩ := run_reset_pushes_flush ha (legalBitCount_rowPushes s.src) hr hi
  rw [pushedBits_rowPushes] at hbits'
  exact ⟨t.endOk, u, ht, hu, bitsOfBytes_injective (hbits.trans hbits'.symm), hempty.trans hempty'.symm⟩

/-! ### Commands that are refused -/

/-- While ABORTED is set a command is refused, whatever its code (R26, R171). -/
theorem step_issue_aborted {s : State} {writes : List OperandWrite} {cmd : BitVec 4} {rest : List HostMove}
    (hp : s.phase = .idle) (ha : s.aborted = true) (hi : s.inbox = .issue writes cmd :: rest) :
    step s = .refused .commandWhileAborted := by
  simp only [step, fetch, nextMove, acceptCommand, hp, hi, ha, if_true, finish]

/-- A code the decoder rejects is refused (R61). -/
theorem step_issue_rejected {s : State} {writes : List OperandWrite} {cmd : BitVec 4} {rest : List HostMove} {r : Reject}
    (ha : Accepting s) (hi : s.inbox = .issue writes cmd :: rest) (hd : decodeCommand cmd = .error r) :
    step s = .refused .unknownCommand := by
  simp only [step, fetch, nextMove, acceptCommand, ha.1, ha.2, hi, hd, Bool.false_eq_true, if_false, finish]

/-- The codes 0x0, 0xD, 0xE and 0xF select no command (R61). -/
theorem decodeCommand_unassigned {cmd : BitVec 4} (h : cmd = 0x0 ∨ cmd = 0xD ∨ cmd = 0xE ∨ cmd = 0xF) :
    decodeCommand cmd = .error (.unassignedCommand cmd) := by
  rcases h with rfl | rfl | rfl | rfl <;> rfl

/-- Settles O7: ABORTED is looked at before the code. -/
theorem unacceptedCommandsAreRefused : Obligations.UnacceptedCommandsAreRefused :=
  fun _ _ _ _ hp hi =>
    ⟨fun ha => step_issue_aborted hp ha hi, fun ha hc => step_issue_rejected ⟨hp, ha⟩ hi (decodeCommand_unassigned hc)⟩

/-! ### Symbols in an open row -/

/-- The end of a symbol step: nothing changes while samples are missing; otherwise the row ends with status OK and
`res_consumed` at the cursor, DST and `rem` kept (R115, R123). -/
theorem closeRow_spec (s : State) :
    (closeRow s).dst = s.dst ∧ (closeRow s).rem = s.rem ∧ (s.rem ≠ 0 → closeRow s = s) ∧
      (s.rem = 0 → (closeRow s).phase = .idle ∧ (closeRow s).results.status = .ok ∧
        (closeRow s).results.resConsumed = s.reader.rdPos) := by
  by_cases h0 : s.rem = 0
  · rw [closeRow, if_pos h0]
    exact ⟨rfl, rfl, fun h => absurd h0 h, fun _ => ⟨rfl, rfl, rfl⟩⟩
  · rw [closeRow, if_neg h0]
    exact ⟨rfl, rfl, fun _ => rfl, fun h => absurd h h0⟩

/-- A symbol that fits the window emits its samples; while samples are missing it changes DST and `rem` alone, and with the
last one the row ends (R115 to R119). -/
theorem exec_symbol_produces {s : State} {i : Instr} (hp : s.phase = .decoding) (hf : i.fitsWindow (min 4 s.rem) = true) :
    ∃ t, exec i s = .next t ∧ t.dst = s.dst ++ samplesOf (min 4 s.rem) i ∧ t.rem = s.rem - min 4 s.rem ∧
      (t.rem ≠ 0 → t = { s with dst := t.dst, rem := t.rem }) ∧
      (t.rem = 0 → t.phase = .idle ∧ t.results.status = .ok ∧ t.results.resConsumed = s.reader.rdPos) := by
  have hlen := samplesOf_length hf
  rw [← State.windowSize_open hp] at hf hlen ⊢
  obtain ⟨hdst, hrem, hopen, hlast⟩ := closeRow_spec (s.produce (samplesOf s.windowSize i))
  refine ⟨_, exec_symbol_fits hf, hdst, ?_, fun h => ?_, fun h => hlast (hrem ▸ h)⟩
  · rw [hrem, State.produce_rem, hlen]
  · rw [hopen (hrem ▸ h)]; rfl

/-- Settles O26: WHITE and BLACK fit every window, and the row ends where at most four samples were missing. -/
theorem uniformSymbolsProduce : Obligations.UniformSymbolsProduce := by
  intro s i x hi hp h0
  have hfit : i.fitsWindow (min 4 s.rem) = true := by
    rcases hi with ⟨rfl, -⟩ | ⟨rfl, -⟩ <;> exact decide_eq_true (by simp only [Config.batch]; omega)
  have hsamples : samplesOf (min 4 s.rem) i = List.replicate (min 4 s.rem) x := by
    rcases hi with ⟨rfl, rfl⟩ | ⟨rfl, rfl⟩ <;> rfl
  obtain ⟨t, ht, hdst, hrem, hopen, hlast⟩ := exec_symbol_produces hp hfit
  rw [hsamples] at hdst
  exact ⟨t, ht, hdst, hrem, fun h => hopen (by omega), fun h => ⟨by omega, hlast (by omega)⟩⟩

/-- Settles O27: a literal fits the window of its length and stands for its samples. -/
theorem literalsProduce : Obligations.LiteralsProduce := by
  intro s a b c d i xs hi hp hk
  have hlit : i.fitsWindow (min 4 s.rem) = true ∧ samplesOf (min 4 s.rem) i = xs := by
    rw [hk]
    rcases hi with ⟨rfl, rfl⟩ | ⟨rfl, rfl⟩ | ⟨rfl, rfl⟩ | ⟨rfl, rfl⟩ <;> exact ⟨rfl, rfl⟩
  obtain ⟨hfit, hsamples⟩ := hlit
  have h := exec_symbol_produces hp hfit
  rw [hsamples, hk] at h
  exact h

end Sys2Proof.Machine
end

section
/-! PROOFS. The BitPacker: what each of its commands answers, the writer's stream law on runs of pushes, and runs of pulls,
which give back what was pushed. -/

namespace Sys2Proof.Machine

/-! ### Bit counts -/

/-- A count outside 1 to 8 aborts BW.PUSH and BR.PULL (R72, R78). -/
theorem exec_badBitCount {s : State} (h : ¬ (1 ≤ s.operands.nbits.toNat ∧ s.operands.nbits.toNat ≤ 8)) :
    exec .bwPush s = .refused .badBitCount ∧ exec .brPull s = .refused .badBitCount := by
  have hn : legalBitCount s.operands.nbits = false := decide_eq_false h
  simp only [exec, execBwPush, execBrPull, hn, Bool.false_eq_true, if_false, and_self]

/-! ### BW.PUSH -/

/-- A push depends on the `n` low bits of its value alone (R72). -/
theorem pushRun_congr (w : BitWriter) {v v' : Byte} {n : Nat} (h : v &&& lowMask n = v' &&& lowMask n) :
    pushRun w v n = pushRun w v' n := by rw [pushRun, pushRun, h]

/-- Two values with the same `n` low bits are the same push (R72). -/
theorem execBwPush_value_congr {s t : State} {v v' : Byte}
    (hv : v &&& lowMask s.operands.nbits.toNat = v' &&& lowMask s.operands.nbits.toNat)
    (h : exec .bwPush (s.applyWrite (.value v)) = .next t) :
    exec .bwPush (s.applyWrite (.value v')) = .next { t with operands := { s.operands with value := v' } } := by
  obtain ⟨hn, hw, rfl⟩ := (execBwPush_ends _).ok h (execBwPush_status h)
  refine (execBwPush_eq (s := s.applyWrite (.value v')) (decide_eq_true hn) hw).trans (congrArg Host.Outcome.next ?_)
  simp only [State.applyWrite, State.pushBits, pushRun_congr s.writer hv]
  rfl

/-- Settles O11: bits above the count do not reach the push. -/
theorem pushOperandContract : Obligations.PushOperandContract :=
  ⟨fun _ _ _ hv _ h => execBwPush_value_congr hv h, fun _ hn => exec_badBitCount hn⟩

/-- Settles O10: whether the field leaves room in the byte decides between the two closed forms of R73. -/
theorem bwPushClosedForm : Obligations.BwPushClosedForm := by
  intro s hf1 hf8
  refine ⟨fun hn => (exec_badBitCount (by omega)).1, fun hn1 hn8 => ?_⟩
  obtain ⟨-, -, hvrem, -⟩ := pushRun_range s.writer s.operands.value hf1 hf8 hn1 hn8
  refine ⟨_, execBwPush_eq (decide_eq_true ⟨hn1, hn8⟩) ⟨hf1, hf8⟩, rfl, hvrem, fun ht => ?_, fun ht => ?_⟩
  · have hroom : s.writer.free - s.operands.nbits.toNat = 8 - (8 - s.writer.free + s.operands.nbits.toNat) := by omega
    simp [State.pushBits, pushRun_fits s.writer s.operands.value hn1 (by omega), hroom, lowMask]
  · have hover : s.operands.nbits.toNat - s.writer.free = 8 - s.writer.free + s.operands.nbits.toNat - 8 := by omega
    have hroom : 8 - (8 - s.writer.free + s.operands.nbits.toNat - 8) =
        16 - (8 - s.writer.free + s.operands.nbits.toNat) := by omega
    simp [State.pushBits, pushRun_fills s.writer s.operands.value hf1 hn8 (by omega), hover, hroom, lowMask]

/-! ### BW.FLUSH -/

theorem writtenBits_length (dst : List Byte) (w : BitWriter) :
    (writtenBits dst w).length = 8 * dst.length + (8 - w.free) := by
  simp [writtenBits]

/-- The zero bits that fill a writer's last byte stand in its unfilled positions (R13, R58). -/
theorem padToByte_writtenBits (dst : List Byte) {w : BitWriter} (h1 : 1 ≤ w.free) (h8 : w.free < 8) :
    padToByte (writtenBits dst w) = writtenBits dst w ++ List.replicate w.free false := by
  rw [padToByte, writtenBits_length, show (8 - (8 * dst.length + (8 - w.free)) % 8) % 8 = w.free by omega]

/-- A flush with nothing pending emits nothing and keeps the writer (R74). -/
theorem execBwFlush_nothing {s : State} (h : ¬ s.writer.free < 8) :
    ∃ t, exec .bwFlush s = .next t ∧ t.results.status = .ok ∧ t.dst = s.dst ∧ t.writer = s.writer ∧
      t.results.resByteValid = false := by
  have hout : flushOut s.writer = [] := if_neg h
  have hkept : flushedWriter s.writer = s.writer := if_neg h
  refine ⟨_, rfl, rfl, ?_, hkept, ?_⟩ <;> simp [hout]

/-- Settles O12: a byte is pending exactly where `free < 8`, and the writer is empty after the flush in either case. -/
theorem bwFlushClosesTheByte : Obligations.BwFlushClosesTheByte := by
  intro s hf1 hf8
  by_cases h : s.writer.free < 8
  · have hout : flushOut s.writer = [s.writer.acc] := if_pos h
    have hempty : flushedWriter s.writer = { acc := 0, free := 8 } := if_pos h
    refine ⟨_, rfl, rfl, fun _ => ?_, fun _ hok => ?_, fun h8 => by omega, execBwFlush_empty hempty⟩
    · simp [State.flushBits, hout, hempty]
    · rw [← padToByte_writtenBits s.dst hf1 h]
      exact (flush_written s.dst s.writer hok).1
  · obtain ⟨t, ht, hok, hdst, hwriter, hvalid⟩ := execBwFlush_nothing h
    obtain ⟨u, hu, -, hu'⟩ := execBwFlush_nothing (s := t) (hwriter ▸ h)
    exact ⟨t, ht, hok, fun h' => absurd h' h, fun h' => absurd h' h, fun _ => ⟨hdst, hwriter, hvalid⟩, u, hu, hu'⟩

/-! ### The writer's stream law -/

/-- A writer in order is known by the bits it has taken: DST, `acc` and `free` (R76). -/
theorem writtenBits_injective {dst dst' : List Byte} {w w' : BitWriter} (hw : w.Ok) (hw' : w'.Ok)
    (h : writtenBits dst w = writtenBits dst' w') : dst = dst' ∧ w = w' := by
  have hlen := congrArg List.length h
  rw [writtenBits_length, writtenBits_length] at hlen
  obtain ⟨hf1, hf8⟩ := hw.inRange
  obtain ⟨hf1', hf8'⟩ := hw'.inRange
  have hfree : w.free = w'.free := by omega
  obtain ⟨hflush, hempty⟩ := flush_written dst w hw
  obtain ⟨hflush', hempty'⟩ := flush_written dst' w' hw'
  have hbytes : dst ++ flushOut w = dst' ++ flushOut w' :=
    bitsOfBytes_injective (hflush.trans ((congrArg padToByte h).trans hflush'.symm))
  obtain ⟨hdst, hout⟩ := List.append_inj hbytes (by omega)
  refine ⟨hdst, ?_⟩
  by_cases h8 : w.free < 8
  · rw [flushOut, flushOut, if_pos h8, if_pos (hfree ▸ h8), List.singleton_inj] at hout
    cases w; cases w'; cases hfree; cases hout; rfl
  · rw [flushedWriter, if_neg h8] at hempty
    rw [flushedWriter, if_neg (hfree ▸ h8)] at hempty'
    exact hempty.trans hempty'.symm

/-- Settles O15: the bits taken are the pushed fields, and their number fixes how many bytes are full and how many bits are
pending. -/
theorem bitWriterStreamLaw : Obligations.BitWriterStreamLaw := by
  intro s ps rest ha hp hr hi
  obtain ⟨t, hrun, hat, hit, hbits, hok⟩ := run_reset_pushes ha hp (by simp) hi
  obtain ⟨u, hstep, hpad, hempty, hiu⟩ := step_flush hat hok hr hit
  have hlen := writtenBits_length t.dst t.writer
  obtain ⟨hf1, hf8⟩ := hok.inRange
  rw [hbits] at hlen hpad
  refine ⟨t, u, hrun, (run_add 1 hrun).trans (run_succ hstep), by omega, by omega, hpad, length_of_padToByte hpad,
    hempty, hiu, fun s' qs rest' ha' hq heq hr' hi' => ?_⟩
  obtain ⟨t', hrun', -, -, hbits', hok'⟩ := run_reset_pushes ha' hq hr' hi'
  obtain ⟨hdst, hwriter⟩ := writtenBits_injective hok' hok (hbits'.trans (heq.trans hbits.symm))
  exact ⟨t', hrun', hwriter, hdst⟩

/-! ### BR.OPEN and BR.PULL -/

/-- An opened reader has every bit of its buffer left (R77). -/
theorem unreadBits_opened (src : List Byte) (b : BitReader) : unreadBits src b.opened = bitsOfBytes src := by
  simp [unreadBits, BitReader.opened]

/-- BR.PULL of 1 to 8 bits that are left answers them and moves past them (R78). -/
theorem execBrPull_spec {s : State} (hn : legalBitCount s.operands.nbits = true) (h8 : s.reader.avail ≤ 8)
    (hleft : s.operands.nbits.toNat ≤ (unreadBits s.src s.reader).length) :
    ∃ v b, exec .brPull s = .next ({ s with reader := b }.forgetDst.endOk.setResBits v) ∧
      Advanced s.src s.operands.nbits.toNat s.reader b ∧
      v.toNat = natOfBits ((unreadBits s.src s.reader).take s.operands.nbits.toNat) := by
  rw [unreadBits_length] at hleft
  obtain ⟨v, b, hpull, hadv, hv⟩ := pullBits_spec s.src s.reader (of_decide_eq_true hn).2 h8 hleft
  refine ⟨v, b, ?_, hadv, hv⟩
  simp only [exec, execBrPull, hn, if_true, hpull]

/-- BR.PULL of more bits than are left underruns and keeps the BitReader (R78, R175 (e)). -/
theorem execBrPull_underrun {s : State} (hn : legalBitCount s.operands.nbits = true)
    (hleft : (unreadBits s.src s.reader).length < s.operands.nbits.toNat) :
    exec .brPull s = .next (s.errorEntryKeepingReader .decodeUnderrun) := by
  rw [unreadBits_length] at hleft
  simp only [exec, execBrPull, hn, if_true, pullBits_underrun s.src s.reader hleft]

/-- Settles O13: an opened reader on an empty buffer has no bit left. -/
theorem streamsAreOpened : Obligations.StreamsAreOpened := by
  intro s
  refine ⟨⟨_, rfl, rfl, rfl, rfl, rfl⟩, _, rfl, rfl, rfl, rfl, rfl, unreadBits_opened s.src s.reader, fun hsrc hn => ?_⟩
  have hnone : (unreadBits s.src s.reader.opened).length = 0 := by rw [unreadBits_opened, hsrc]; rfl
  exact ⟨_, execBrPull_underrun hn (hnone ▸ (of_decide_eq_true hn).1), rfl⟩

/-- Settles O14: the three cases of R78. -/
theorem brPullTakesTheNextBits : Obligations.BrPullTakesTheNextBits := by
  intro s h8
  refine ⟨fun hn => (exec_badBitCount (by omega)).2, fun hn1 hn8 hleft => ?_, fun hn1 hn8 hleft => ?_⟩
  · obtain ⟨v, b, hpull, hadv, hv⟩ := execBrPull_spec (decide_eq_true ⟨hn1, hn8⟩) h8 hleft
    exact ⟨_, hpull, rfl, hv, rfl, hadv.bits, hadv.cursor, hadv.avail_lt hn1⟩
  · exact ⟨_, execBrPull_underrun (decide_eq_true ⟨hn1, hn8⟩) hleft, rfl, rfl, rfl⟩

/-! ### Pulls the host issues -/

/-- Moves that do not begin with a `resetNow` do not begin with one behind pulls either. -/
theorem head?_pullMoves_ne {ns : List (BitVec 4)} {rest : List HostMove} (h : rest.head? ≠ some .resetNow) :
    (ns.map pullMove ++ rest).head? ≠ some .resetNow := by
  cases ns with
  | nil => exact h
  | cons n ns => simp [pullMove]

/-- `t` is reached from `s` by host commands that took `n` bits of the stream: it takes host moves, `rest` is what is left of
them, and SRC is the same. -/
structure Pulled (n : Nat) (rest : List HostMove) (s t : State) : Prop where
  accepting : Accepting t
  inbox     : t.inbox = rest
  src       : t.src = s.src
  reader    : Advanced s.src n s.reader t.reader

/-- The bits left after some were taken. -/
theorem Pulled.unread {n : Nat} {rest : List HostMove} {s t : State} (h : Pulled n rest s t) :
    unreadBits t.src t.reader = (unreadBits s.src s.reader).drop n := by
  rw [h.src, h.reader.bits]

theorem Pulled.trans {m n : Nat} {rest rest' : List HostMove} {s t u : State} (h1 : Pulled m rest s t)
    (h2 : Pulled n rest' t u) : Pulled (m + n) rest' s u where
  accepting := h2.accepting
  inbox := h2.inbox
  src := h2.src.trans h1.src
  reader := h1.reader.trans (h1.src ▸ h2.reader)

/-- One pull of the host's takes the next bits and answers them as a number (R78). -/
theorem step_pull {s : State} {n : BitVec 4} {rest : List HostMove} (ha : Accepting s) (h8 : s.reader.avail ≤ 8)
    (hn : legalBitCount n = true) (hleft : n.toNat ≤ (unreadBits s.src s.reader).length)
    (hr : rest.head? ≠ some .resetNow) (hi : s.inbox = pullMove n :: rest) :
    ∃ t, step s = .next t ∧ Pulled n.toNat rest s t ∧ t.results.status = .ok ∧
      t.results.resBits.toNat = natOfBits ((unreadBits s.src s.reader).take n.toNat) := by
  obtain ⟨v, b, hpull, hadv, hv⟩ :=
    execBrPull_spec (s := ({ s with inbox := rest } : State).applyWrites [.nbits n]) hn h8 hleft
  exact ⟨_, (step_issue ha hi hr rfl).trans hpull, ⟨ha, rfl, rfl, hadv⟩, rfl, hv⟩

/-- The host's pulls, run one by one, take as many bits as their counts sum to (R78, R80). -/
theorem run_pulls {s : State} {ns : List (BitVec 4)} {rest : List HostMove} (ha : Accepting s) (h8 : s.reader.avail ≤ 8)
    (hn : ∀ n ∈ ns, legalBitCount n = true) (hleft : (ns.map BitVec.toNat).sum ≤ (unreadBits s.src s.reader).length)
    (hr : rest.head? ≠ some .resetNow) (hi : s.inbox = ns.map pullMove ++ rest) :
    ∃ t, run ns.length s = .next t ∧ Pulled (ns.map BitVec.toNat).sum rest s t := by
  induction ns generalizing s with
  | nil => exact ⟨s, run_zero s, ha, hi, rfl, .refl h8⟩
  | cons n ns ih =>
    obtain ⟨hn1, hns⟩ := List.forall_mem_cons.mp hn
    rw [List.map_cons, List.sum_cons] at hleft ⊢
    obtain ⟨t, hstep, ht, -⟩ := step_pull ha h8 hn1 (by omega) (head?_pullMoves_ne hr) hi
    obtain ⟨u, hrun, hu⟩ := ih ht.accepting ht.reader.avail hns
      (by rw [ht.unread, List.length_drop]; omega) ht.inbox
    exact ⟨u, (run_succ hstep).trans hrun, ht.trans hu⟩

/-- BR.OPEN on a buffer the host supplies puts the cursor at its first bit (R30, R77). -/
theorem step_open_src {s : State} {bytes : List Byte} {rest : List HostMove} (ha : Accepting s)
    (hr : rest.head? ≠ some .resetNow) (hi : s.inbox = .issue [.src bytes] 0x4 :: rest) :
    ∃ t, step s = .next t ∧ Accepting t ∧ t.inbox = rest ∧ t.src = bytes ∧ t.reader.avail = 0 ∧ t.reader.rdPos = 0 ∧
      unreadBits t.src t.reader = bitsOfBytes bytes :=
  ⟨_, step_issue ha hi hr (i := .brOpen) rfl, ha, rfl, rfl, rfl, rfl, unreadBits_opened bytes _⟩

/-- BR.OPEN and then pulls: the last one answers the bits behind those the others took, and the reader has moved past
exactly the bits that were asked for (R78, R80). -/
theorem run_open_pulls {s : State} {bytes : List Byte} {ns : List (BitVec 4)} {n : BitVec 4} {rest : List HostMove}
    (ha : Accepting s) (hns : ∀ m ∈ ns, legalBitCount m = true) (hn : legalBitCount n = true)
    (hr : rest.head? ≠ some .resetNow) (hleft : (ns.map BitVec.toNat).sum + n.toNat ≤ (bitsOfBytes bytes).length)
    (hi : s.inbox = .issue [.src bytes] 0x4 :: (ns.map pullMove ++ pullMove n :: rest)) :
    ∃ t, run (ns.length + 2) s = .next t ∧ t.results.status = .ok ∧
      t.results.resBits.toNat = natOfBits (((bitsOfBytes bytes).drop (ns.map BitVec.toNat).sum).take n.toNat) ∧
      unreadBits t.src t.reader = (bitsOfBytes bytes).drop ((ns.map BitVec.toNat).sum + n.toNat) ∧
      8 * t.reader.rdPos = t.reader.avail + ((ns.map BitVec.toNat).sum + n.toNat) ∧ t.reader.avail ≤ 7 := by
  have hlast : (pullMove n :: rest).head? ≠ some .resetNow := by simp [pullMove]
  obtain ⟨t, hopen, hat, hit, -, havail, hpos, hunread⟩ := step_open_src ha (head?_pullMoves_ne hlast) hi
  obtain ⟨u, hrun, hu⟩ := run_pulls hat (by omega) hns (by rw [hunread]; omega) hlast hit
  obtain ⟨v, hpull, hv, hok, hval⟩ := step_pull hu.accepting hu.reader.avail hn
    (by rw [hu.unread, hunread, List.length_drop]; omega) hr hu.inbox
  have hall := hu.trans hv
  have hcursor := hall.reader.cursor
  refine ⟨v, (run_succ hopen).trans ((run_add 1 hrun).trans (run_succ hpull)), hok, ?_, ?_, by omega,
    hv.reader.avail_lt (of_decide_eq_true hn).1⟩
  · rw [hval, hu.unread, hunread]
  · rw [hall.unread, hunread]

/-! ### Reader and writer duality -/

/-- The pushes' sizes sum to the number of bits pushed (R76). -/
theorem pushedBits_length (ps : List (Byte × BitVec 4)) :
    (pushedBits ps).length = ((ps.map Prod.snd).map BitVec.toNat).sum := by
  simp [pushedBits, List.length_flatMap, Function.comp_def]

theorem pushedBits_singleton (p : Byte × BitVec 4) : pushedBits [p] = fieldBits p.1.toNat p.2.toNat :=
  List.flatMap_singleton _ _

theorem length_le_padToByte (bits : Bits) : bits.length ≤ (padToByte bits).length := by simp [padToByte]

/-- Bits asked for within the pushed ones lie before the padding. -/
theorem take_drop_padToByte {bits : Bits} {m n : Nat} (h : m + n ≤ bits.length) :
    ((padToByte bits).drop m).take n = (bits.drop m).take n := by
  rw [padToByte, List.drop_append_of_le_length (by omega), List.take_append_of_le_length (by rw [List.length_drop]; omega)]

/-- Behind the pushed bits only the padding is left. -/
theorem drop_padToByte (bits : Bits) :
    (padToByte bits).drop bits.length = List.replicate ((8 - bits.length % 8) % 8) false :=
  List.drop_left' rfl

/-- Settles O16: `run_open_pulls` on the pushed bits and their padding; with the pushes' own sizes, the last pull stands
before the last field. -/
theorem readerWriterDuality : Obligations.ReaderWriterDuality := by
  constructor
  · intro s bytes qs p rest ha hqs hp hbytes hr hi
    have hN : (pushedBits (qs ++ [p])).length = ((qs.map Prod.snd).map BitVec.toNat).sum + p.2.toNat := by
      simp [pushedBits_length]
    rw [show qs.map (fun q => pullMove q.2) = (qs.map Prod.snd).map pullMove by rw [List.map_map]; rfl] at hi
    obtain ⟨t, hrun, hok, hval, hunread, hcursor, havail⟩ := run_open_pulls ha
      (List.forall_mem_map.mpr hqs) hp hr (by rw [hbytes, ← hN]; exact length_le_padToByte _) hi
    rw [List.length_map] at hrun
    rw [← hN] at hcursor
    rw [hbytes, ← hN, drop_padToByte] at hunread
    rw [hbytes, take_drop_padToByte hN.ge, ← pushedBits_length, pushedBits_append, List.drop_left, pushedBits_singleton,
      List.take_of_length_le (fieldBits_length _ _).le, natOfBits_fieldBits] at hval
    have hpad : t.reader.avail = (8 - (pushedBits (qs ++ [p])).length % 8) % 8 := by omega
    exact ⟨t, hrun, hok, hval, by rw [ceilDiv]; omega, hpad, hpad ▸ hunread⟩
  · intro s bytes ps ns n rest ha hns hn hbytes hr hleft hi
    obtain ⟨t, hrun, hok, hval, -⟩ := run_open_pulls ha hns hn hr
      (by rw [hbytes]; exact hleft.trans (length_le_padToByte _)) hi
    rw [hbytes, take_drop_padToByte hleft] at hval
    exact ⟨t, hrun, hok, hval⟩

end Sys2Proof.Machine
end

section
/-! PROOFS. The RowClassifier: which rows CLASSIFY marks, and the checks the row commands make on their operands. -/

namespace Sys2Proof.Machine

/-- The verdict marks a row with at least two batches (R92). -/
theorem Counters.verdict_eq (c : Counters) : c.verdict = decide (2 ≤ c.wbat + c.bbat) := rfl

theorem Counters.verdict_eq_true_iff {c : Counters} : c.verdict = true ↔ 2 ≤ c.wbat + c.bbat := decide_eq_true_iff

theorem Counters.verdict_eq_false_iff {c : Counters} : c.verdict = false ↔ c.wbat + c.bbat < 2 := by
  rw [verdict_eq, decide_eq_false_iff_not, Nat.not_le]

/-- CLASSIFY's flag is its row's verdict (R90, R92). -/
theorem execClassify_resFlag {s t : State} (h : exec .classify s = .next t) :
    t.results.resFlag = (classifyRow s.src).verdict := by
  obtain ⟨-, rfl⟩ := (execClassify_ends s).ok h (execClassify_status h)
  rfl

/-! ### Runs and batches -/

/-- A row's batches are those of its runs, each counted by itself (R91). -/
theorem classifyRow_runs {runs : List (Byte × Nat)} (hc : runs.IsChain fun p q => p.1 ≠ q.1) (hp : ∀ p ∈ runs, 0 < p.2) :
    (classifyRow (rowOfRuns runs)).wbat + (classifyRow (rowOfRuns runs)).bbat = batchesOfRuns runs := by
  rw [classifyRow_eq, foldl_runs runs _ hc hp (by decide) (by decide) (fun _ _ _ => rfl) (fun _ _ _ => rfl)]
  simp only [Nat.zero_add]

/-- Settles O18: the runs' law on the row CLASSIFY reads. -/
theorem classifyCountsBatches : Obligations.ClassifyCountsBatches := by
  intro s runs hc hp hsrc hlen
  have hcount := classifyRow_runs hc hp
  rw [← hsrc] at hcount
  exact ⟨_, execClassify_eq s hlen.symm, rfl, by rw [← hcount]; rfl, hcount, rfl, rfl, rfl, rfl⟩

/-- Settles O19: fewer than 8 samples make fewer than two batches. -/
theorem shortRowsAreNotMarked : Obligations.ShortRowsAreNotMarked := by
  intro s hlen h8
  have hcount := (classifyRow_ok s.src).count
  exact ⟨_, execClassify_eq s hlen, rfl, Counters.verdict_eq_false_iff.mpr (by omega)⟩

/-- A full batch of white (`true`) or of black samples. -/
def uniformBatch (w : Bool) : List Byte := List.replicate 4 (if w then Config.white else Config.black)

/-- Where no run is begun, a uniform batch adds one batch and begins none (R91). -/
theorem foldl_batch {c : Counters} (w : Bool) (hw : c.wrun = 0) (hb : c.brun = 0) :
    (uniformBatch w).foldl sampleStep c =
      { wrun := 0, brun := 0, wbat := c.wbat + [w].count true, bbat := c.bbat + [w].count false } := by
  cases w with
  | true => rw [uniformBatch, if_pos rfl, foldl_white 4 c (by omega), hw]; rfl
  | false => rw [uniformBatch, if_neg Bool.false_ne_true, foldl_black 4 c (by omega), hb]; rfl

/-- Uniform batches are counted one by one, in any combination (R94). -/
theorem foldl_batches (batches : List Bool) {c : Counters} (hw : c.wrun = 0) (hb : c.brun = 0) :
    (batches.flatMap uniformBatch).foldl sampleStep c =
      { wrun := 0, brun := 0, wbat := c.wbat + batches.count true, bbat := c.bbat + batches.count false } := by
  induction batches generalizing c with
  | nil => cases c; cases hw; cases hb; rfl
  | cons w batches ih =>
    rw [List.flatMap_cons, List.foldl_append, foldl_batch w hw hb, ih rfl rfl]
    simp only [Nat.add_assoc, ← List.count_append, List.singleton_append]

/-- A row of uniform batches has as many batches as were put in (R94). -/
theorem classifyRow_batches {row : List Byte} {batches : List Bool} (h : row = batches.flatMap uniformBatch) :
    (classifyRow row).wbat + (classifyRow row).bbat = batches.length := by
  rw [h, classifyRow_eq, foldl_batches batches rfl rfl]
  simp only [Nat.zero_add, List.count_true_add_count_false]

/-! ### Rows of distinct samples -/

/-- The white and black samples the counters hold: those of completed batches and of the runs begun. -/
def Counters.held (c : Counters) : Nat := 4 * (c.wbat + c.bbat) + c.wrun + c.brun

/-- One white or black sample is held at most as one more; any other sample adds none (R91). -/
theorem held_sampleStep_le (c : Counters) (x : Byte) :
    (sampleStep c x).held ≤ c.held + [x].count Config.white + [x].count Config.black := by
  unfold sampleStep Counters.held Config.batch
  by_cases hw : x = Config.white
  · subst hw
    rw [if_pos rfl, List.count_singleton_self]
    split <;> simp only <;> omega
  · by_cases hb : x = Config.black
    · subst hb
      rw [if_neg hw, if_pos rfl, List.count_singleton_self]
      split <;> simp only <;> omega
    · rw [if_neg hw, if_neg hb]
      simp only; omega

/-- The counters hold no more white and black samples than the row has. -/
theorem held_foldl_le (row : List Byte) (c : Counters) :
    (row.foldl sampleStep c).held ≤ c.held + row.count Config.white + row.count Config.black := by
  induction row generalizing c with
  | nil => exact Nat.le_refl _
  | cons x xs ih =>
    have hstep := held_sampleStep_le c x
    have hrest := ih (sampleStep c x)
    rw [← List.singleton_append, List.foldl_append, List.count_append, List.count_append]
    simp only [List.foldl_cons, List.foldl_nil] at hrest ⊢
    omega

/-- Distinct samples, at most one of them white and one black, complete no batch (R94). -/
theorem classifyRow_nodup {row : List Byte} (h : row.Nodup) : (classifyRow row).wbat + (classifyRow row).bbat = 0 := by
  have hheld : (classifyRow row).held ≤ 0 + row.count Config.white + row.count Config.black := held_foldl_le row _
  have hw := List.nodup_iff_count_le_one.mp h Config.white
  have hb := List.nodup_iff_count_le_one.mp h Config.black
  rw [Counters.held] at hheld
  omega

/-- Settles O20: uniform batches are counted one by one, distinct samples complete none. -/
theorem classifierMonotonicity : Obligations.ClassifierMonotonicity := by
  intro s t h
  rw [execClassify_resFlag h]
  refine ⟨fun batches h2 hsrc => ?_, fun hnodup => ?_⟩
  · have hcount := classifyRow_batches hsrc
    exact Counters.verdict_eq_true_iff.mpr (by omega)
  · have hcount := classifyRow_nodup hnodup
    exact Counters.verdict_eq_false_iff.mpr (by omega)

/-! ### Operand checks -/

/-- CLASSIFY refuses a row that has not `W` samples (R90, R171). -/
theorem execClassify_lengthMismatch {s : State} (h : s.src.length ≠ s.operands.width.toNat) :
    exec .classify s = .refused .rowLengthMismatch := if_neg h

/-- ENCODE_ROW refuses a row that has not `W >= 1` samples (R100, R171). -/
theorem execEncodeRow_lengthMismatch {s : State} (h : s.src.length ≠ s.operands.width.toNat)
    (h0 : s.operands.width.toNat ≠ 0) : exec .encodeRow s = .refused .rowLengthMismatch :=
  (if_neg h0).trans (if_neg h)

/-- ENCODE_ROW raises InvalidDimensions on a zero width, whatever the row's length (R166). -/
theorem execEncodeRow_zeroWidth {s : State} (h : s.operands.width.toNat = 0) :
    exec .encodeRow s = .next (s.latchWidth.errorEntry .invalidDimensions) := if_pos h

/-- DECODE_ROW raises InvalidDimensions on a zero width (R166). -/
theorem execDecodeRow_zeroWidth {s : State} (h : s.operands.width.toNat = 0) :
    exec .decodeRow s = .next (s.latchWidth.errorEntry .invalidDimensions) := if_pos h

/-- Settles O25: the row's length and the width, as the commands check them. -/
theorem rowOperandChecks : Obligations.RowOperandChecks := fun _ =>
  ⟨execClassify_lengthMismatch, execEncodeRow_lengthMismatch,
    fun h => ⟨_, _, execEncodeRow_zeroWidth h, execDecodeRow_zeroWidth h, rfl, rfl⟩⟩

end Sys2Proof.Machine
end

section
/-! PROOFS. The RowEncoder: what ENCODE_ROW answers to a row of `W >= 1` samples. -/

namespace Sys2Proof.Machine

/-- The encoder leaves the reader, the operands and the working registers of the other units alone (log 12, log 23). -/
theorem OnlyEncoder.otherUnits {s t : State} (h : OnlyEncoder s t) :
    t.latched = s.latched ∧ t.reader = s.reader ∧ t.src = s.src ∧ t.counters = s.counters ∧ t.rem = s.rem ∧
      t.pipeline = s.pipeline ∧ t.operands = s.operands ∧ t.aborted = s.aborted := by
  rw [h]; exact ⟨rfl, rfl, rfl, rfl, rfl, rfl, rfl, rfl⟩

/-- Settles O22: the row's symbols by `execEncodeRow_spec`; past the latched width only the encoder's registers change. -/
theorem encodeRowPacksTheSymbols : Obligations.EncodeRowPacksTheSymbols := by
  intro s hlen h0
  obtain ⟨t, hexec, honly, hbits, hwriter⟩ := execEncodeRow_spec s hlen h0
  exact ⟨t.endOk, hexec, rfl, hbits, hwriter, honly.otherUnits⟩

end Sys2Proof.Machine
end

section
/-! PROOFS. The RowDecoder: what DECODE_ROW answers, the bytes of SRC it reads, and what a symbol leaves unchanged. -/

namespace Sys2Proof.Machine

/-! ### What DECODE_ROW answers -/

/-- `t` is the end of a DECODE_ROW from `s` that has read the symbols `is` off SRC and left `rest` unread (R115, R123). -/
structure RowDecoded (s : State) (is : List Instr) (rest : Bits) (t : State) : Prop where
  status   : t.results.status = .ok
  dst      : t.dst = samplesOfRow (rowWindows s.operands.width.toNat) is
  consumed : t.results.resConsumed = ceilDiv (is.flatMap symbolBits).length 8
  cursor   : t.results.resConsumed = t.reader.rdPos
  inside   : t.results.resConsumed ≤ s.src.length
  rem      : t.rem = 0
  phase    : t.phase = .idle
  unread   : unreadBits s.src t.reader = rest

/-- DECODE_ROW ends OK where the decoder finds a symbol for each of the row's windows. -/
theorem execDecodeRow_reads {s : State} {is : List Instr} {rest : Bits} (h0 : s.operands.width.toNat ≠ 0)
    (hd : decodeMany (rowWindows s.operands.width.toNat) (bitsOfBytes s.src) = .ok (is, rest)) :
    ∃ t, exec .decodeRow s = .next t ∧ RowDecoded s is rest t := by
  have hspec := execDecodeRow_spec s h0
  rw [hd] at hspec
  obtain ⟨b, hb, hunread, hpos, -, hin⟩ := hspec
  exact ⟨_, hb, { status := rfl, dst := rfl, consumed := hpos, cursor := rfl, inside := hin, rem := rfl, phase := rfl,
                  unread := hunread }⟩

/-- And it ends in DecodeUnderrun where the stream ends before (R122). -/
theorem execDecodeRow_underruns {s : State} (h0 : s.operands.width.toNat ≠ 0)
    (hu : RowUnderruns s.operands.width.toNat s.src) :
    exec .decodeRow s = .next (s.latchWidth.errorEntry .decodeUnderrun) := by
  obtain ⟨r, hd⟩ := hu
  have hspec := execDecodeRow_spec s h0
  rw [hd] at hspec
  exact hspec

/-- Only a row of at least one sample whose symbols are all there is decoded with status OK. -/
theorem execDecodeRow_ok {s t : State} (h : exec .decodeRow s = .next t) (hok : t.results.status = .ok) :
    s.operands.width.toNat ≠ 0 ∧ ∃ is rest,
      decodeMany (rowWindows s.operands.width.toNat) (bitsOfBytes s.src) = .ok (is, rest) ∧ RowDecoded s is rest t := by
  by_cases h0 : s.operands.width.toNat = 0
  · rw [execDecodeRow_zeroWidth h0] at h
    cases h; cases hok
  · refine ⟨h0, ?_⟩
    cases hd : decodeMany (rowWindows s.operands.width.toNat) (bitsOfBytes s.src) with
    | error r =>
      rw [execDecodeRow_underruns h0 ⟨r, hd⟩] at h
      cases h; cases hok
    | ok p =>
      obtain ⟨u, hu, hdec⟩ := execDecodeRow_reads h0 hd
      rw [hu] at h
      cases h
      exact ⟨p.1, p.2, rfl, hdec⟩

/-- Settles O31: what ENCODE_ROW packs is read back as the row, and the padding is all that is left. -/
theorem rowRoundTrip : Obligations.RowRoundTrip := by
  intro s s' t hlen h0 hexec hsrc hwidth
  obtain ⟨v, hv, -, hbits, -⟩ := execEncodeRow_spec s hlen h0
  have hdst : t.dst = v.dst := by rw [hv] at hexec; cases hexec; rfl
  rw [← hdst] at hbits
  obtain ⟨is, hd, hsamples, hsymbols⟩ := decodeMany_packed hbits
  rw [hlen, ← hwidth] at hd hsamples
  rw [← hsrc] at hd
  rw [← hwidth] at h0
  obtain ⟨u, hu, hdec⟩ := execDecodeRow_reads h0 hd
  exact ⟨u, hu, hdec.status, hdec.dst.trans hsamples, by rw [hdec.consumed, hsymbols, length_of_padToByte hbits]⟩

/-- Settles O29: the decoder's two answers are DECODE_ROW's. -/
theorem decodeRowReadsTheStream : Obligations.DecodeRowReadsTheStream := by
  intro s h0
  refine ⟨fun is rest hd => ?_, fun r hd => ⟨_, execDecodeRow_underruns h0 ⟨r, hd⟩, rfl⟩⟩
  obtain ⟨t, ht, hdec⟩ := execDecodeRow_reads h0 hd
  have hlen : t.dst.length = s.operands.width.toNat := by
    rw [hdec.dst, (decodeMany_ok hd).2.2, rowWindows_sum]
  exact ⟨t, ht, hdec.status, hdec.dst, hlen, hdec.consumed, hdec.cursor, hdec.rem, hdec.phase, hdec.unread⟩

/-! ### The bytes of SRC that are read -/

theorem bitsOfBytes_take (xs : List Byte) (n : Nat) : bitsOfBytes (xs.take n) = (bitsOfBytes xs).take (8 * n) := by
  apply List.append_cancel_right (bs := bitsOfBytes (xs.drop n))
  rw [← bitsOfBytes_append, List.take_append_drop, bitsOfBytes_drop, List.take_append_drop]

/-- Symbols read off a buffer are read off the bytes of which they take a bit, whatever stands behind those (R123, R124). -/
theorem decodeMany_take {ks : List Nat} {src : List Byte} {is : List Instr} {rest : Bits}
    (h : decodeMany ks (bitsOfBytes src) = .ok (is, rest)) (extra : List Byte) :
    ∃ rest', decodeMany ks (bitsOfBytes (src.take (ceilDiv (is.flatMap symbolBits).length 8) ++ extra)) =
      .ok (is, rest') := by
  have hfit : (is.flatMap symbolBits).length ≤ 8 * ceilDiv (is.flatMap symbolBits).length 8 := by rw [ceilDiv]; omega
  rw [bitsOfBytes_append, bitsOfBytes_take, (decodeMany_ok h).1, List.take_append, List.take_of_length_le hfit,
    List.append_assoc]
  exact ⟨_, decodeMany_prefix h _⟩

/-- Settles O32: the symbols stand in the bytes before `res_consumed`, so the decoder reads the same ones. -/
theorem surplusBytesAreIgnored : Obligations.SurplusBytesAreIgnored := by
  intro s t extra h hok
  obtain ⟨h0, is, rest, hd, hdec⟩ := execDecodeRow_ok h hok
  obtain ⟨rest', hd'⟩ := decodeMany_take hd extra
  rw [← hdec.consumed] at hd'
  obtain ⟨u, hu, hdec'⟩ := execDecodeRow_reads (s := { s with src := s.src.take t.results.resConsumed ++ extra }) h0 hd'
  exact ⟨u, hu, hdec'.status, hdec'.dst.trans hdec.dst.symm, hdec'.consumed.trans hdec.consumed.symm, hdec.inside⟩

/-- A row takes at least one bit for each window, so a buffer with fewer bits than windows ends before the row (R126). -/
theorem rowUnderruns_of_short {w : Nat} {src : List Byte} (h : src.length < ceilDiv (ceilDiv w 4) 8) :
    RowUnderruns w src := by
  cases hd : decodeMany (rowWindows w) (bitsOfBytes src) with
  | error r => exact ⟨r, hd⟩
  | ok p =>
    have hbits := congrArg List.length (decodeMany_ok hd).1
    have hneed := decodeMany_length hd
    rw [bitsOfBytes_length, List.length_append] at hbits
    rw [rowWindows_length] at hneed
    rw [ceilDiv] at h
    omega

/-- Settles O34: with too few bytes there are too few bits for the row's windows. -/
theorem shortInputUnderruns : Obligations.ShortInputUnderruns :=
  fun _ h0 hshort => ⟨_, execDecodeRow_underruns h0 (rowUnderruns_of_short hshort), rfl⟩

/-! ### Symbols -/

/-- Settles O28, by the rule for a symbol that does not fit. -/
theorem symbolsOutsideTheirWindowAreRefused : Obligations.SymbolsOutsideTheirWindowAreRefused :=
  fun _ _ hc hf => exec_symbol_unfit hc hf

/-- The end of a symbol step changes the phase, the results and the free-value counter alone. -/
theorem closeRow_frame (s : State) :
    closeRow s = { s with phase := (closeRow s).phase, results := (closeRow s).results, fresh := (closeRow s).fresh } := by
  by_cases h0 : s.rem = 0
  · rw [closeRow, if_pos h0]; rfl
  · rw [closeRow, if_neg h0]

/-- A window has at most four samples, and none that the row does not need (R56, R116). -/
theorem State.windowSize_le (s : State) : s.windowSize ≤ 4 ∧ s.windowSize ≤ s.rem := by
  cases hp : s.phase with
  | idle => simp only [State.windowSize, hp]; omega
  | decoding => rw [State.windowSize_open hp]; omega

/-- Settles O55: a symbol that runs appends its window's samples to DST, takes them off `rem`, and may end the row. -/
theorem symbolsFrame : Obligations.SymbolsFrame := by
  intro i s t hc h
  cases hf : i.fitsWindow s.windowSize with
  | false => rw [exec_symbol_unfit hc hf] at h; cases h
  | true =>
    rw [exec_symbol_fits hf] at h
    cases h
    obtain ⟨hdst, hrem, hopen, -⟩ := closeRow_spec (s.produce (samplesOf s.windowSize i))
    obtain ⟨h4, hle⟩ := s.windowSize_le
    have hlen := samplesOf_length hf
    rw [State.produce_rem, hlen] at hrem
    refine ⟨?_, fun h => ?_, fun a ha => ?_, by omega, ?_⟩
    · rw [closeRow_frame]; rfl
    · rw [hopen (by rw [State.produce_rem, hlen, ← hrem]; exact h)]; exact ⟨rfl, rfl⟩
    · rw [hdst]; exact memByte_append ha
    · rw [hdst, State.produce_dst, List.length_append, hlen, hrem]; omega

end Sys2Proof.Machine
end

section
/-! PROOFS. The errors of the image commands and of SERIALIZE, in the order of their checks. -/

namespace Sys2Proof.Machine

/-! ### The checks before the rows -/

/-- ENCODE_IMAGE looks at the dimensions first (R131, R166). -/
theorem execEncodeImage_zeroDims {s : State}
    (h : s.operands.raster.width.toNat = 0 ∨ s.operands.raster.height.toNat = 0) :
    exec .encodeImage s = .next (s.latchRaster.errorEntry .invalidDimensions) := if_pos h

/-- Then at the depth (R131, R167). -/
theorem execEncodeImage_badDepth {s : State}
    (h : ¬ (s.operands.raster.width.toNat = 0 ∨ s.operands.raster.height.toNat = 0)) (hd : s.operands.depth ≠ 8) :
    exec .encodeImage s = .next (s.latchRaster.errorEntry .unsupportedSampleDepth) := (if_neg h).trans (if_pos hd)

/-- DECODE_IMAGE and SERIALIZE look at the dimensions first (R134, R148, R166). -/
theorem execDecodeImage_zeroDims {s : State}
    (h : s.operands.barch.width.toNat = 0 ∨ s.operands.barch.height.toNat = 0) :
    exec .decodeImage s = .next (s.latchBarch.errorEntry .invalidDimensions) := if_pos h

theorem execSerialize_zeroDims {s : State}
    (h : s.operands.barch.width.toNat = 0 ∨ s.operands.barch.height.toNat = 0) :
    exec .serialize s = .next (s.latchBarch.errorEntry .invalidDimensions) := if_pos h

/-- Then DECODE_IMAGE at the counts (R135). -/
theorem execDecodeImage_badCounts {s : State}
    (h : ¬ (s.operands.barch.width.toNat = 0 ∨ s.operands.barch.height.toNat = 0))
    (hc : ¬ s.operands.barch.countsAgree = true) :
    exec .decodeImage s = .next (s.latchBarch.errorEntry .malformedContainer) := (if_neg h).trans (if_neg hc)

/-- And SERIALIZE at the counts and the raw lines' lengths, for which it has one error (R148). -/
theorem execSerialize_illShaped {s : State}
    (h : ¬ (s.operands.barch.width.toNat = 0 ∨ s.operands.barch.height.toNat = 0))
    (hm : ¬ s.operands.barch.wellShaped = true) :
    exec .serialize s = .next (s.latchBarch.errorEntry .malformedContainer) := by
  rw [BarchImage.wellShaped_iff] at hm
  by_cases hc : s.operands.barch.countsAgree = true
  · exact (if_neg h).trans ((if_pos hc).trans (if_neg fun hr => hm ⟨hc, hr⟩))
  · exact (if_neg h).trans (if_neg hc)

/-! ### The rows of DECODE_IMAGE -/

/-- DECODE_IMAGE ends in the error of the first line that fails (R134, R174). -/
theorem execDecodeImage_lineError {s : State} {e : ErrorKind} (hw : s.operands.barch.width.toNat ≠ 0)
    (hh : s.operands.barch.height.toNat ≠ 0) (hc : s.operands.barch.countsAgree = true)
    (he : lineRows s.operands.barch.width.toNat (s.operands.barch.flags.zip s.operands.barch.lines) = .error e) :
    exec .decodeImage s = .next (s.latchBarch.errorEntry e) := by
  have hspec := execDecodeImage_spec s hw hh hc
  rw [he] at hspec
  exact hspec

/-- A raw line that does not have `w` bytes is malformed (R135). -/
theorem lineRow_rawLength {w : Nat} {line : List Byte} (h : line.length ≠ w) :
    lineRow w false line = .error .malformedContainer := if_neg h

/-- An error of the lines is the error of one of them. -/
theorem lineRows_error {w : Nat} {ps : List (Bool × List Byte)} {e : ErrorKind} (h : lineRows w ps = .error e) :
    ∃ p ∈ ps, lineRow w p.1 p.2 = .error e := by
  induction ps with
  | nil => cases h
  | cons p ps ih =>
    rw [lineRows] at h
    split at h
    · cases h
      exact ⟨p, List.mem_cons_self, ‹_›⟩
    · split at h
      · cases h
        obtain ⟨q, hq, he⟩ := ih ‹_›
        exact ⟨q, List.mem_cons_of_mem p hq, he⟩
      · cases h

/-- Every raw line has `W` bytes (R46). -/
theorem rawLinesFit_iff {m : BarchImage} :
    rawLinesFit m = true ↔ ∀ p ∈ m.flags.zip m.lines, p.1 = false → p.2.length = m.width.toNat := by
  simp only [rawLinesFit, rawLineFits, List.all_eq_true, Bool.or_eq_true, decide_eq_true_eq]
  refine forall₂_congr fun p _ => ?_
  cases p.1 <;> simp

/-- Where all lines decode, each of them holds a row. -/
theorem lineHolds_of_lineRows {w : Nat} {ps : List (Bool × List Byte)} {rows : List (List Byte)} (h : lineRows w ps = .ok rows)
    {p : Bool × List Byte} (hp : p ∈ ps) : ∃ row, lineHolds w p.1 p.2 row := by
  have hall := lineRows_eq_ok.mp h
  obtain ⟨i, hi, rfl⟩ := List.getElem_of_mem hp
  exact ⟨_, hall.get hi (hall.length_eq ▸ hi)⟩

/-- A raw line that holds a row is that row (R132). -/
theorem lineHolds_raw {w : Nat} {line row : List Byte} : lineHolds w false line row ↔ line = row ∧ row.length = w := by
  simp [lineHolds]

/-- In an ill-shaped image with agreeing counts a line fails: a raw one, or a packed one before it. -/
theorem lineRows_illShaped {m : BarchImage} (hc : m.countsAgree = true) (hm : ¬ m.wellShaped = true) :
    ∃ e, lineRows m.width.toNat (m.flags.zip m.lines) = .error e ∧
      (e = .malformedContainer ∨ (e = .decodeUnderrun ∧ true ∈ m.flags)) := by
  cases hl : lineRows m.width.toNat (m.flags.zip m.lines) with
  | ok rows =>
    refine absurd (BarchImage.wellShaped_iff.mpr ⟨hc, rawLinesFit_iff.mpr fun p hp hraw => ?_⟩) hm
    obtain ⟨row, hrow⟩ := lineHolds_of_lineRows hl hp
    rw [hraw, lineHolds_raw] at hrow
    rw [hrow.1, hrow.2]
  | error e =>
    obtain ⟨p, hp, he⟩ := lineRows_error hl
    refine ⟨e, rfl, ?_⟩
    rcases lineRow_error he with ⟨hflag, rfl⟩ | ⟨-, -, rfl⟩
    · exact .inr ⟨rfl, hflag ▸ (List.of_mem_zip hp).1⟩
    · exact .inl rfl

/-- Settles O38: each check answers only where those before it have passed, and the lines answer in order. -/
theorem imageErrorsInOrder : Obligations.ImageErrorsInOrder := by
  refine fun s => ⟨fun h0 => ⟨_, execEncodeImage_zeroDims h0, rfl⟩,
    fun hw hh hd => ⟨_, execEncodeImage_badDepth (not_or_intro hw hh) hd, rfl⟩,
    fun h0 => ⟨_, _, execDecodeImage_zeroDims h0, execSerialize_zeroDims h0, rfl, rfl⟩,
    fun hw hh hm => ?illShaped, fun hw hh hc before after flag line hzip hbefore => ?firstError,
    fun hw hh hm hu => ?underrun⟩
  case illShaped =>
    have hm : ¬ s.operands.barch.wellShaped = true := by rw [hm]; exact Bool.false_ne_true
    have hser := execSerialize_illShaped (not_or_intro hw hh) hm
    by_cases hc : s.operands.barch.countsAgree = true
    · obtain ⟨e, hl, he⟩ := lineRows_illShaped hc hm
      exact ⟨_, _, e, execDecodeImage_lineError hw hh hc hl, hser, rfl, rfl, he, fun hf => by rw [hf] at hc; cases hc⟩
    · exact ⟨_, _, _, execDecodeImage_badCounts (not_or_intro hw hh) hc, hser, rfl, rfl, .inl rfl, fun _ => rfl⟩
  case firstError =>
    have hfirst {e : ErrorKind} (he : lineRow s.operands.barch.width.toNat flag line = .error e) :
        exec .decodeImage s = .next (s.latchBarch.errorEntry e) :=
      execDecodeImage_lineError hw hh hc (by rw [hzip]; exact lineRows_first_error hbefore he)
    refine ⟨fun hflag hu => ⟨_, hfirst (e := .decodeUnderrun) ?_, rfl⟩,
      fun hflag hlen => ⟨_, hfirst (e := .malformedContainer) ?_, rfl⟩⟩
    · rw [hflag]; exact lineRow_underruns.mpr hu
    · rw [hflag]; exact lineRow_rawLength hlen
  case underrun =>
    obtain ⟨hc, hraw⟩ := BarchImage.wellShaped_iff.mp hm
    exact ⟨_, execDecodeImage_lineError hw hh hc (lineRows_underruns (rawLinesFit_iff.mp hraw) hu), rfl⟩

end Sys2Proof.Machine
end

section
/-! PROOFS. The row pipeline: what ENCODE_IMAGE and DECODE_IMAGE answer to a well-formed image, the image round trip, and what
the image and container commands leave unchanged. -/

namespace Sys2Proof.Machine

/-! ### The image round trip -/

/-- DECODE_IMAGE answers the rows that its lines hold (R134). -/
theorem execDecodeImage_holds {s : State} {rows : List (List Byte)} (hw : s.operands.barch.width.toNat ≠ 0)
    (hh : s.operands.barch.height.toNat ≠ 0) (hc : s.operands.barch.countsAgree = true)
    (hl : List.Forall₂ (fun p row => lineHolds s.operands.barch.width.toNat p.1 p.2 row)
      (s.operands.barch.flags.zip s.operands.barch.lines) rows) :
    ∃ t, exec .decodeImage s = .next (t.endImage.setResRaster
        { width := s.operands.barch.width, height := s.operands.barch.height, rows := rows }) ∧
      OnlyImageDecoder s.latchBarch.openBarch t ∧ t.writer = { acc := 0, free := 8 } := by
  have hspec := execDecodeImage_spec s hw hh hc
  rw [lineRows_eq_ok.mpr hl] at hspec
  obtain ⟨t, ht, honly, -, hwriter⟩ := hspec
  exact ⟨t, ht, honly, hwriter⟩

/-- The flags and lines ENCODE_IMAGE makes for rows of `w` samples hold these rows (R132, R133). -/
theorem lineHolds_of_encodedLines {w : Nat} {rows lines : List (List Byte)} (hlen : ∀ row ∈ rows, row.length = w)
    (hl : List.Forall₂ EncodedLine rows lines) :
    List.Forall₂ (fun p row => lineHolds w p.1 p.2 row)
      ((rows.map fun row => (classifyRow row).verdict).zip lines) rows := by
  induction hl with
  | nil => exact .nil
  | @cons row line rows lines hline _ ih =>
    have hrow : row.length = w := hlen row List.mem_cons_self
    exact .cons (hrow ▸ hline.holds) (ih fun r hr => hlen r (List.mem_cons_of_mem row hr))

/-- One flag and one line for each row is one for each of the image's `H` rows (R46). -/
theorem BarchImage.countsAgree_of_lengths {m : BarchImage} (hf : m.flags.length = m.height.toNat)
    (hl : m.lines.length = m.height.toNat) : m.countsAgree = true := by
  simp [BarchImage.countsAgree, hf, hl]

/-- ENCODE_IMAGE's BarchImage has the image's dimensions, agreeing counts, and lines that hold the image's rows (R131). -/
theorem execEncodeImage_holds {s t : State} (hw : s.operands.raster.width.toNat ≠ 0)
    (hh : s.operands.raster.height.toNat ≠ 0) (hd : s.operands.depth = 8) (hs : s.operands.raster.wellShaped = true)
    (hexec : exec .encodeImage s = .next t) :
    t.results.resBarch.width = s.operands.raster.width ∧ t.results.resBarch.height = s.operands.raster.height ∧
      t.results.resBarch.countsAgree = true ∧
      List.Forall₂ (fun p row => lineHolds s.operands.raster.width.toNat p.1 p.2 row)
        (t.results.resBarch.flags.zip t.results.resBarch.lines) s.operands.raster.rows := by
  obtain ⟨u, lines, hu, hl, -⟩ := execEncodeImage_spec s hw hh hd hs
  rw [hu] at hexec
  cases hexec
  obtain ⟨hcount, hlen⟩ := RasterImage.rows_length hs
  have hlines : lines.length = s.operands.raster.height.toNat := hl.length_eq.symm.trans hcount
  exact ⟨rfl, rfl, BarchImage.countsAgree_of_lengths ((List.length_map _).trans hcount) hlines,
    lineHolds_of_encodedLines hlen hl⟩

/-- Settles O37: ENCODE_IMAGE's lines hold the image's rows, and DECODE_IMAGE answers the rows its lines hold. -/
theorem imageRoundTrip : Obligations.ImageRoundTrip := by
  intro s s' t hw hh hd hs hexec hbarch
  obtain ⟨hwidth, hheight, hc, hl⟩ := execEncodeImage_holds hw hh hd hs hexec
  rw [← hwidth] at hw hl
  rw [← hheight] at hh
  rw [← hbarch] at hw hh hc hl hwidth hheight
  obtain ⟨u, hu, -⟩ := execDecodeImage_holds hw hh hc hl
  exact ⟨_, hu, rfl, by rw [hwidth, hheight]; rfl⟩

/-! ### What the two image commands answer -/

/-- Settles O35: the rows' flags and lines by `execEncodeImage_spec`, the latched operands and SRC by its frame. -/
theorem encodeImageStoresEachRow : Obligations.EncodeImageStoresEachRow := by
  intro s hw hh hd hs
  obtain ⟨t, lines, hexec, hl, honly, hwriter, -⟩ := execEncodeImage_spec s hw hh hd hs
  refine ⟨_, hexec, rfl, rfl, rfl, rfl, hl, ?_, ?_, hwriter⟩
  · simp [honly.latched, hd]
  · simpa using honly.inputs.src

/-- Rows of `W` samples, one for each of the `H` flags, are a well-formed image (R46). -/
theorem RasterImage.wellShaped_of_lineHolds {m : BarchImage} {rows : List (List Byte)} (hc : m.countsAgree = true)
    (hl : List.Forall₂ (fun p row => lineHolds m.width.toNat p.1 p.2 row) (m.flags.zip m.lines) rows) :
    RasterImage.wellShaped { width := m.width, height := m.height, rows := rows } = true := by
  obtain ⟨hflags, hlines⟩ := BarchImage.counts hc
  have hcount : rows.length = m.height.toNat := by rw [← hl.length_eq, List.length_zip, hflags, hlines, Nat.min_self]
  have hlen : ∀ row ∈ rows, row.length = m.width.toNat := by
    intro row hrow
    obtain ⟨i, hi, rfl⟩ := List.getElem_of_mem hrow
    exact lineHolds_length (hl.get (hl.length_eq ▸ hi) hi)
  simpa [RasterImage.wellShaped, hcount] using hlen

/-- Settles O36: the lines decode to the rows they hold, which have the image's dimensions. -/
theorem decodeImageDecodesEachLine : Obligations.DecodeImageDecodesEachLine := by
  intro s rows hw hh hc hl
  obtain ⟨t, hexec, honly, hwriter⟩ := execDecodeImage_holds hw hh hc hl
  exact ⟨_, hexec, rfl, rfl, RasterImage.wellShaped_of_lineHolds hc hl, by simpa using honly.inputs.src, hwriter⟩

/-! ### What the image and container commands leave unchanged -/

/-- Settles O57: each command's rows change only their own registers, and its end only DST, the BitReader and the results. -/
theorem imageCommandsFrame : Obligations.ImageCommandsFrame := by
  refine fun s t hok => ⟨fun h => ?encodeImage, fun h => ?decodeImage, fun h => ?serialize, fun h => ?deserialize⟩
  case encodeImage =>
    obtain ⟨u, m, honly, hwriter, -, ht⟩ := (execEncodeImage_ends s).ok h hok
    rw [ht, honly, hwriter]; rfl
  case decodeImage =>
    obtain ⟨u, m, honly, -, hwriter, ht⟩ := (execDecodeImage_ends s).ok h hok
    rw [ht, honly, hwriter]; rfl
  case serialize =>
    obtain ⟨out, ht⟩ := (execSerialize_ends s).ok h hok
    rw [ht]; rfl
  case deserialize =>
    obtain ⟨u, m, honly, -, hwriter, ht⟩ := (execDeserialize_ends s).ok h hok
    rw [ht, honly, hwriter]; rfl

end Sys2Proof.Machine
end

section
/-! PROOFS. The container: what DESERIALIZE answers by the container at the front of SRC, the round trip with SERIALIZE, and the
checks on the header and on the row data. -/

namespace Sys2Proof.Machine

/-! ### What DESERIALIZE answers -/

/-- DESERIALIZE ends in the error of the container at the front of SRC, or answers its image (R150, R174). -/
theorem execDeserialize_answers (s : State) :
    ∃ t, exec .deserialize s = .next t ∧
      (∀ e, readContainer s.magic s.src = .error e → t.results.status = .error e) ∧
      (∀ m, readContainer s.magic s.src = .ok m → t.results.status = .ok ∧ t.results.resBarch = m ∧
        t.latched = { s.latched with w := m.width, h := m.height } ∧ t.src = s.src ∧ t.writer = { acc := 0, free := 8 }) := by
  have hspec := execDeserialize_spec s
  cases hread : readContainer s.magic s.src with
  | error e =>
    rw [hread] at hspec
    obtain ⟨l, -, ht⟩ := hspec
    exact ⟨_, ht, fun _ he => by cases he; rfl, fun _ hm => by cases hm⟩
  | ok m =>
    rw [hread] at hspec
    obtain ⟨u, ht, honly, -, hwriter⟩ := hspec
    refine ⟨_, ht, fun _ he => (by cases he), fun _ hm => ?_⟩
    cases hm
    exact ⟨rfl, rfl, by rw [honly]; rfl, by simpa using honly.inputs.src, hwriter⟩

/-- DESERIALIZE that ends OK answers the container at the front of SRC. -/
theorem execDeserialize_ok {s t : State} (h : exec .deserialize s = .next t) (hok : t.results.status = .ok) :
    readContainer s.magic s.src = .ok t.results.resBarch := by
  obtain ⟨t', ht', herror, hread⟩ := execDeserialize_answers s
  rw [h] at ht'
  cases ht'
  cases hr : readContainer s.magic s.src with
  | error e => rw [herror e hr] at hok; cases hok
  | ok m => rw [(hread m hr).2.1]

/-- Settles O40: the container is read back as `m`, whatever its unused flag bits and the bytes behind it. -/
theorem deserializeCutsTheRows : Obligations.DeserializeCutsTheRows := by
  intro s m bitmap extra hw hh hc hl hb hbits hsrc
  obtain ⟨t, ht, -, hread⟩ := execDeserialize_answers s
  refine ⟨t, ht, hread m ?_⟩
  rw [hsrc]
  exact readContainer_containerWith s.magic bitmap m extra hw hh hc hb hbits hl

/-- Settles O43: a container cut short is read as malformed. -/
theorem truncatedContainerIsRejected : Obligations.TruncatedContainerIsRejected := by
  intro s m bitmap n hw hh hc hl hb hbits hn hsrc
  obtain ⟨t, ht, herror, -⟩ := execDeserialize_answers s
  refine ⟨t, ht, herror _ ?_⟩
  rw [hsrc]
  exact readContainer_truncated s.magic bitmap m n hw hh hc hb hbits hl hn

/-! ### Lines of exactly their own length -/

/-- A row's symbols padded to a byte are a packed line without a surplus byte (R107, R151). -/
theorem lineExact_packed {row line : List Byte} (h : bitsOfBytes line = padToByte (rowBits row)) :
    lineExact row.length true line := by
  obtain ⟨is, hd, -, -⟩ := decodeMany_packed h
  exact ⟨is, _, hd, by rw [List.length_replicate]; omega⟩

/-- A raw line is exact where it has `w` bytes (R46). -/
theorem lineExact_raw {w : Nat} {line : List Byte} : lineExact w false line ↔ line.length = w := by simp [lineExact]

/-- An image whose counts agree and whose lines are exact is in order (R46). -/
theorem BarchImage.wellShaped_of_lineExact {m : BarchImage} (hc : m.countsAgree = true)
    (hl : ∀ p ∈ m.flags.zip m.lines, lineExact m.width.toNat p.1 p.2) : m.wellShaped = true := by
  refine BarchImage.wellShaped_iff.mpr ⟨hc, rawLinesFit_iff.mpr fun p hp hraw => ?_⟩
  have hexact := hl p hp
  rwa [hraw, lineExact_raw] at hexact

/-- The lines ENCODE_IMAGE makes for rows of `w` samples are exact under their flags (R131). -/
theorem lineExact_of_encodedLines {w : Nat} {rows lines : List (List Byte)} (hlen : ∀ row ∈ rows, row.length = w)
    (hl : List.Forall₂ EncodedLine rows lines) :
    ∀ p ∈ (rows.map fun row => (classifyRow row).verdict).zip lines, lineExact w p.1 p.2 := by
  induction hl with
  | nil => intro p hp; cases hp
  | @cons row line rows lines hline _ ih =>
    intro p hp
    rcases List.mem_cons.mp hp with rfl | hp
    · have hrow : row.length = w := hlen row List.mem_cons_self
      exact hrow ▸ hline.exact
    · exact ih (fun r hr => hlen r (List.mem_cons_of_mem row hr)) p hp

/-- The lines of ENCODE_IMAGE's BarchImage are exact (R131). -/
theorem execEncodeImage_exact {s t : State} (hw : s.operands.raster.width.toNat ≠ 0)
    (hh : s.operands.raster.height.toNat ≠ 0) (hd : s.operands.depth = 8) (hs : s.operands.raster.wellShaped = true)
    (hexec : exec .encodeImage s = .next t) :
    ∀ p ∈ t.results.resBarch.flags.zip t.results.resBarch.lines, lineExact t.results.resBarch.width.toNat p.1 p.2 := by
  obtain ⟨u, lines, hu, hl, -⟩ := execEncodeImage_spec s hw hh hd hs
  rw [hu] at hexec
  cases hexec
  exact lineExact_of_encodedLines (RasterImage.rows_length hs).2 hl

/-! ### The container round trip -/

/-- What SERIALIZE writes for an image whose counts agree and whose lines are exact, DESERIALIZE reads back (R154). -/
theorem execDeserialize_serialized {s s' u : State} {extra : List Byte} (hw : s.operands.barch.width.toNat ≠ 0)
    (hh : s.operands.barch.height.toNat ≠ 0) (hc : s.operands.barch.countsAgree = true)
    (hl : ∀ p ∈ s.operands.barch.flags.zip s.operands.barch.lines, lineExact s.operands.barch.width.toNat p.1 p.2)
    (hexec : exec .serialize s = .next u) (hsrc : s'.src = u.dst ++ extra) (hmagic : s'.magic = s.magic) :
    ∃ v, exec .deserialize s' = .next v ∧ v.results.status = .ok ∧ v.results.resBarch = s.operands.barch := by
  rw [execSerialize_wellShaped hw hh (BarchImage.wellShaped_of_lineExact hc hl)] at hexec
  cases hexec
  have hread : readContainer s'.magic s'.src = .ok s.operands.barch := by
    rw [hsrc, hmagic]
    exact readContainer_containerBytes s.magic s.operands.barch extra hw hh hc hl
  obtain ⟨v, hv, -, hok⟩ := execDeserialize_answers s'
  obtain ⟨hstatus, hbarch, -⟩ := hok _ hread
  exact ⟨v, hv, hstatus, hbarch⟩

/-- Settles O41: the lines are exact, the packed ones because each is some row's symbols padded to a byte. -/
theorem containerRoundTrip : Obligations.ContainerRoundTrip := by
  refine ⟨?image, ?encoded⟩
  case image =>
    intro s' s'' u extra hw hh hm hpacked hser hsrc hmagic
    obtain ⟨hc, hraw⟩ := BarchImage.wellShaped_iff.mp hm
    refine execDeserialize_serialized hw hh hc ?_ hser hsrc hmagic
    rintro ⟨flag, line⟩ hp
    cases flag with
    | false => exact lineExact_raw.mpr (rawLinesFit_iff.mp hraw _ hp rfl)
    | true =>
      obtain ⟨r, t, hlen, hwidth, hrow, rfl⟩ := hpacked _ hp rfl
      obtain ⟨e, he, -, hbits, -⟩ := execEncodeRow_spec r hlen (hwidth ▸ hw)
      rw [he] at hrow
      cases hrow
      rw [← hwidth, ← hlen]
      exact lineExact_packed hbits
  case encoded =>
    intro s s' s'' t u extra hw hh hd hs henc hbarch hser hsrc hmagic
    obtain ⟨hwidth, hheight, hc, -⟩ := execEncodeImage_holds hw hh hd hs henc
    have hl := execEncodeImage_exact hw hh hd hs henc
    rw [← hwidth] at hw
    rw [← hheight] at hh
    rw [← hbarch] at hw hh hc hl ⊢
    exact execDeserialize_serialized hw hh hc hl hser hsrc hmagic

/-! ### The header checks -/

theorem readContainer_unread {magic src : List Byte} (h : ¬ HeaderRead magic src) :
    readContainer magic src = .error .malformedContainer := if_neg h

theorem readContainer_zeroDims {magic src : List Byte} (hr : HeaderRead magic src)
    (h0 : (headerWidth magic src).toNat = 0 ∨ (headerHeight magic src).toNat = 0) :
    readContainer magic src = .error .invalidDimensions := (if_pos hr).trans (if_pos h0)

/-- With no dimension 0 the one error is MalformedContainer (R152). -/
theorem readContainer_error_of_dims {magic src : List Byte} {e : ErrorKind}
    (hw : (headerWidth magic src).toNat ≠ 0) (hh : (headerHeight magic src).toNat ≠ 0)
    (h : readContainer magic src = .error e) : e = .malformedContainer := by
  rcases readContainer_error h with ⟨-, -, h0⟩ | ⟨he, -⟩
  · rcases h0 with h0 | h0
    · exact absurd (by rw [h0]; rfl) hw
    · exact absurd (by rw [h0]; rfl) hh
  · exact he

theorem readContainer_noBitmap {magic src : List Byte} (hr : HeaderRead magic src)
    (hw : (headerWidth magic src).toNat ≠ 0) (hh : (headerHeight magic src).toNat ≠ 0)
    (hlt : src.length < magic.length + 8 + ceilDiv (headerHeight magic src).toNat 8) :
    readContainer magic src = .error .malformedContainer :=
  (if_pos hr).trans ((if_neg (not_or.mpr ⟨hw, hh⟩)).trans (if_pos hlt))

/-- Settles O42: each check answers where those before it have passed. -/
theorem deserializeHeaderChecks : Obligations.DeserializeHeaderChecks := by
  intro s
  obtain ⟨t, ht, herror, hok⟩ := execDeserialize_answers s
  refine ⟨t, ht, fun hbad => herror _ (readContainer_unread ?unread), fun hmagic hlen => ?read⟩
  case unread =>
    rintro ⟨hmagic, hlen⟩
    rcases hbad with h | h | h
    · omega
    · exact h hmagic
    · omega
  case read =>
    have hr : HeaderRead s.magic s.src := ⟨hmagic, hlen⟩
    refine ⟨fun h0 => herror _ (readContainer_zeroDims hr h0),
      fun hw hh hlt => herror _ (readContainer_noBitmap hr hw hh hlt), fun hw hh => ?_⟩
    cases hread : readContainer s.magic s.src with
    | ok m => exact .inl (hok m hread).1
    | error e => exact .inr (readContainer_error_of_dims hw hh hread ▸ herror e hread)

/-! ### The image DESERIALIZE returns -/

/-- A raw row takes `w` bytes (R150). -/
theorem cutRow_raw {w n : Nat} {buf : List Byte} (h : cutRow w false buf = .ok n) : n = w := by
  simp only [cutRow, Bool.false_eq_true, if_false] at h
  split at h <;> cases h
  rfl

/-- Rows that are cut are one line for each flag, raw lines of `w` bytes, and together the front of the buffer (R150). -/
theorem cutRows_ok {w : Nat} {flags : List Bool} {buf : List Byte} {lines : List (List Byte)}
    (h : cutRows w flags buf = .ok lines) :
    lines.length = flags.length ∧ (∀ p ∈ flags.zip lines, p.1 = false → p.2.length = w) ∧ lines.flatten <+: buf := by
  induction flags generalizing buf lines with
  | nil => cases h; simp
  | cons flag flags ih =>
    rw [cutRows] at h
    cases hrow : cutRow w flag buf with
    | error e => rw [hrow] at h; cases h
    | ok n =>
      cases hrows : cutRows w flags (buf.drop n) with
      | error e => simp only [hrow, hrows, reduceCtorEq] at h
      | ok rest =>
        simp only [hrow, hrows] at h
        cases h
        obtain ⟨hcount, hraw, hprefix⟩ := ih hrows
        refine ⟨congrArg (· + 1) hcount, fun p hp hflag => ?_, ?_⟩
        · rcases List.mem_cons.mp hp with rfl | hp
          · have hn := cutRow_le hrow
            subst hflag
            rw [List.length_take_of_le hn, cutRow_raw hrow]
          · exact hraw p hp hflag
        · rw [List.flatten_cons]
          conv_rhs => rw [← List.take_append_drop n buf]
          exact (List.prefix_append_right_inj _).mpr hprefix

theorem flagsOfBytes_length (bitmap : List Byte) (h : Nat) : (flagsOfBytes bitmap h).length = h := by simp [flagsOfBytes]

/-- A container that is read is an image in order, without a zero dimension, whose lines are the front of the row data. -/
theorem readContainer_ok {magic src : List Byte} {m : BarchImage} (h : readContainer magic src = .ok m) :
    m.wellShaped = true ∧ m.width.toNat ≠ 0 ∧ m.height.toNat ≠ 0 ∧
      m.lines.flatten <+: src.drop (magic.length + 8 + ceilDiv m.height.toNat 8) := by
  unfold readContainer at h
  split at h
  · simp only at h
    split at h
    · cases h
    · rename_i hdims
      obtain ⟨hw, hh⟩ := not_or.mp hdims
      split at h
      · cases h
      · split at h
        · cases h
        · rename_i lines hcut
          cases h
          obtain ⟨hcount, hraw, hprefix⟩ := cutRows_ok hcut
          have hlines := hcount.trans (flagsOfBytes_length _ _)
          exact ⟨BarchImage.wellShaped_iff.mpr
            ⟨BarchImage.countsAgree_of_lengths (flagsOfBytes_length _ _) hlines, rawLinesFit_iff.mpr hraw⟩, hw, hh, hprefix⟩
  · cases h

/-- Settles O44: the image is the container that is read at the front of SRC. -/
theorem deserializedImageIsWellShaped : Obligations.DeserializedImageIsWellShaped :=
  fun _ _ h hok => readContainer_ok (execDeserialize_ok h hok)

end Sys2Proof.Machine
end

section
/-! PROOFS. Errors and refusals: the status with which each command ends as a function of what it starts with, the causes of
each error and each refusal, and what an error leaves. -/

namespace Sys2Proof.Machine

/-! ### The status of a command -/

/-- What the host reads of an outcome first: the status, the refusal or the fault. -/
def statusOf : Host.Outcome State Fault Refusal → Host.Outcome Status Fault Refusal
  | .next t => .next t.results.status
  | .fault f => .fault f
  | .refused r => .refused r

theorem statusOf_eq_next {o : Host.Outcome State Fault Refusal} {st : Status} :
    statusOf o = .next st ↔ ∃ t, o = .next t ∧ t.results.status = st := by
  cases o <;> simp [statusOf]

theorem statusOf_eq_refused {o : Host.Outcome State Fault Refusal} {r : Refusal} :
    statusOf o = .refused r ↔ o = .refused r := by
  cases o <;> simp [statusOf]

/-- The status of a reading of the input that gives a value or an error. -/
def readStatus {α : Type} : Except ErrorKind α → Host.Outcome Status Fault Refusal
  | .ok _ => .next .ok
  | .error e => .next (.error e)

theorem readStatus_eq_error {α : Type} {x : Except ErrorKind α} {e : ErrorKind} :
    readStatus x = .next (.error e) ↔ x = .error e := by
  cases x <;> simp [readStatus]

theorem readStatus_ne_refused {α : Type} (x : Except ErrorKind α) (r : Refusal) : readStatus x ≠ .refused r := by
  cases x <;> simp [readStatus]

/-- The checks of each command in their order (R166 to R171, R174), on its operands, SRC and MAGIC; only BW.PUSH looks at the
BitWriter and only BR.PULL at the BitReader. The symbols are no commands; `exec_statusOf` leaves them out. -/
def commandStatus (s : State) : Instr → Host.Outcome Status Fault Refusal
  | .white | .black | .lit1 _ | .lit2 _ _ | .lit3 _ _ _ | .lit4 _ _ _ _ => .refused .symbolOutsideRow
  | .bwReset | .bwFlush | .brOpen => .next .ok
  | .bwPush =>
    if legalBitCount s.operands.nbits then
      if 1 ≤ s.writer.free ∧ s.writer.free ≤ 8 then .next .ok else .refused .writerInvariant
    else .refused .badBitCount
  | .brPull =>
    if legalBitCount s.operands.nbits then
      if (unreadBits s.src s.reader).length < s.operands.nbits.toNat then .next (.error .decodeUnderrun) else .next .ok
    else .refused .badBitCount
  | .classify => if s.src.length = s.operands.width.toNat then .next .ok else .refused .rowLengthMismatch
  | .encodeRow =>
    if s.operands.width.toNat = 0 then .next (.error .invalidDimensions)
    else if s.src.length = s.operands.width.toNat then .next .ok else .refused .rowLengthMismatch
  | .decodeRow =>
    if s.operands.width.toNat = 0 then .next (.error .invalidDimensions)
    else readStatus (lineRow s.operands.width.toNat true s.src)
  | .encodeImage =>
    if s.operands.raster.width.toNat = 0 ∨ s.operands.raster.height.toNat = 0 then .next (.error .invalidDimensions)
    else if s.operands.depth ≠ 8 then .next (.error .unsupportedSampleDepth)
    else if s.operands.raster.wellShaped then .next .ok else .refused .rasterShape
  | .decodeImage =>
    if s.operands.barch.width.toNat = 0 ∨ s.operands.barch.height.toNat = 0 then .next (.error .invalidDimensions)
    else if s.operands.barch.countsAgree then
      readStatus (lineRows s.operands.barch.width.toNat (s.operands.barch.flags.zip s.operands.barch.lines))
    else .next (.error .malformedContainer)
  | .serialize =>
    if s.operands.barch.width.toNat = 0 ∨ s.operands.barch.height.toNat = 0 then .next (.error .invalidDimensions)
    else if s.operands.barch.wellShaped then .next .ok else .next (.error .malformedContainer)
  | .deserialize => readStatus (readContainer s.magic s.src)

/-! ### Each command ends with that status -/

/-- BW.PUSH refuses a BitWriter outside R12's range (R70, R171). -/
theorem execBwPush_writerInvariant {s : State} (hn : legalBitCount s.operands.nbits = true) (hw : ¬ s.writer.InRange) :
    exec .bwPush s = .refused .writerInvariant := (if_pos hn).trans (if_neg hw)

/-- ENCODE_IMAGE refuses rows that are not `H` of `W` samples (R131, R171). -/
theorem execEncodeImage_illShaped {s : State}
    (h : ¬ (s.operands.raster.width.toNat = 0 ∨ s.operands.raster.height.toNat = 0)) (hd : s.operands.depth = 8)
    (hs : ¬ s.operands.raster.wellShaped = true) : exec .encodeImage s = .refused .rasterShape :=
  (if_neg h).trans ((if_neg (not_not_intro hd)).trans (if_neg hs))

theorem execBwPush_statusOf (s : State) : statusOf (exec .bwPush s) = commandStatus s .bwPush := by
  simp only [commandStatus]
  split_ifs with hn hw
  · rw [execBwPush_eq hn hw]; rfl
  · rw [execBwPush_writerInvariant hn hw]; rfl
  · rw [(exec_badBitCount fun h => hn (decide_eq_true h)).1]; rfl

/-- A pull of bits that are left finds them, wherever the cursor stands (R78). -/
theorem pullBits_total {src : List Byte} {n : Nat} {b : BitReader} (h : n ≤ b.unread src) :
    ∃ p, pullBits src n b = .ok p := by
  rw [pullBits, if_neg (by omega)]
  exact pullLoop_total src n n 0 b h

theorem execBrPull_statusOf (s : State) : statusOf (exec .brPull s) = commandStatus s .brPull := by
  simp only [commandStatus]
  split_ifs with hn hlt
  · rw [execBrPull_underrun hn hlt]; rfl
  · rw [unreadBits_length, not_lt] at hlt
    obtain ⟨p, hp⟩ := pullBits_total hlt
    simp only [exec, execBrPull, hn, if_true, hp]; rfl
  · rw [(exec_badBitCount fun h => hn (decide_eq_true h)).2]; rfl

theorem execClassify_statusOf (s : State) : statusOf (exec .classify s) = commandStatus s .classify := by
  simp only [commandStatus]
  split_ifs with hl
  · rw [execClassify_eq s hl]; rfl
  · rw [execClassify_lengthMismatch hl]; rfl

theorem execEncodeRow_statusOf (s : State) : statusOf (exec .encodeRow s) = commandStatus s .encodeRow := by
  simp only [commandStatus]
  split_ifs with h0 hl
  · rw [execEncodeRow_zeroWidth h0]; rfl
  · obtain ⟨t, ht, -⟩ := execEncodeRow_spec s hl h0
    rw [ht]; rfl
  · rw [execEncodeRow_lengthMismatch hl h0]; rfl

theorem execDecodeRow_statusOf (s : State) : statusOf (exec .decodeRow s) = commandStatus s .decodeRow := by
  simp only [commandStatus]
  split_ifs with h0
  · rw [execDecodeRow_zeroWidth h0]; rfl
  · cases hrow : lineRow s.operands.width.toNat true s.src with
    | ok row =>
      obtain ⟨is, rest, hd, -⟩ := lineRow_eq_ok.mp hrow
      obtain ⟨t, ht, hdec⟩ := execDecodeRow_reads h0 hd
      rw [ht]
      exact congrArg _ hdec.status
    | error e =>
      obtain ⟨-, rfl⟩ | ⟨hflag, -⟩ := lineRow_error hrow
      · rw [execDecodeRow_underruns h0 (lineRow_underruns.mp hrow)]; rfl
      · cases hflag

theorem execEncodeImage_statusOf (s : State) : statusOf (exec .encodeImage s) = commandStatus s .encodeImage := by
  simp only [commandStatus]
  split_ifs with h0 hd hs
  · rw [execEncodeImage_zeroDims h0]; rfl
  · rw [execEncodeImage_badDepth h0 hd]; rfl
  · obtain ⟨hw, hh⟩ := not_or.mp h0
    obtain ⟨t, lines, ht, -⟩ := execEncodeImage_spec s hw hh (not_not.mp hd) hs
    rw [ht]; rfl
  · rw [execEncodeImage_illShaped h0 (not_not.mp hd) hs]; rfl

theorem execDecodeImage_statusOf (s : State) : statusOf (exec .decodeImage s) = commandStatus s .decodeImage := by
  simp only [commandStatus]
  split_ifs with h0 hc
  · rw [execDecodeImage_zeroDims h0]; rfl
  · obtain ⟨hw, hh⟩ := not_or.mp h0
    cases hl : lineRows s.operands.barch.width.toNat (s.operands.barch.flags.zip s.operands.barch.lines) with
    | ok rows =>
      have hspec := execDecodeImage_spec s hw hh hc
      rw [hl] at hspec
      obtain ⟨t, ht, -⟩ := hspec
      rw [ht]; rfl
    | error e => rw [execDecodeImage_lineError hw hh hc hl]; rfl
  · rw [execDecodeImage_badCounts h0 hc]; rfl

theorem execSerialize_statusOf (s : State) : statusOf (exec .serialize s) = commandStatus s .serialize := by
  simp only [commandStatus]
  split_ifs with h0 hm
  · rw [execSerialize_zeroDims h0]; rfl
  · obtain ⟨hw, hh⟩ := not_or.mp h0
    rw [execSerialize_wellShaped hw hh hm]; rfl
  · rw [execSerialize_illShaped h0 hm]; rfl

theorem execDeserialize_statusOf (s : State) : statusOf (exec .deserialize s) = commandStatus s .deserialize := by
  obtain ⟨t, ht, herror, hok⟩ := execDeserialize_answers s
  rw [ht, commandStatus]
  cases hread : readContainer s.magic s.src with
  | ok m => exact congrArg _ (hok m hread).1
  | error e => exact congrArg _ (herror e hread)

/-- **The status of every command** is what its checks say. -/
theorem exec_statusOf {i : Instr} (hc : i.isCommand = true) (s : State) : statusOf (exec i s) = commandStatus s i := by
  cases i with
  | white | black | lit1 | lit2 | lit3 | lit4 => cases hc
  | bwReset | bwFlush | brOpen => rfl
  | bwPush => exact execBwPush_statusOf s
  | brPull => exact execBrPull_statusOf s
  | classify => exact execClassify_statusOf s
  | encodeRow => exact execEncodeRow_statusOf s
  | decodeRow => exact execDecodeRow_statusOf s
  | encodeImage => exact execEncodeImage_statusOf s
  | decodeImage => exact execDecodeImage_statusOf s
  | serialize => exact execSerialize_statusOf s
  | deserialize => exact execDeserialize_statusOf s

theorem exec_status_error_iff {i : Instr} {s : State} {e : ErrorKind} (hc : i.isCommand = true) :
    (∃ t, exec i s = .next t ∧ t.results.status = .error e) ↔ commandStatus s i = .next (.error e) := by
  rw [← exec_statusOf hc, statusOf_eq_next]

theorem exec_refused_iff {i : Instr} {s : State} {r : Refusal} (hc : i.isCommand = true) :
    exec i s = .refused r ↔ commandStatus s i = .refused r := by
  rw [← exec_statusOf hc, statusOf_eq_refused]

/-! ### The cause of an error -/

/-- The commands that raise each error and what in their operands, SRC and MAGIC makes them (R166 to R169). -/
def ErrorCause (i : Instr) (s : State) : ErrorKind → Prop
  | .invalidDimensions =>
    (i = .encodeRow ∨ i = .decodeRow) ∧ s.operands.width = 0 ∨
    i = .encodeImage ∧ (s.operands.raster.width = 0 ∨ s.operands.raster.height = 0) ∨
    (i = .decodeImage ∨ i = .serialize) ∧ (s.operands.barch.width = 0 ∨ s.operands.barch.height = 0) ∨
    i = .deserialize ∧ HeaderRead s.magic s.src ∧ (headerWidth s.magic s.src = 0 ∨ headerHeight s.magic s.src = 0)
  | .unsupportedSampleDepth => i = .encodeImage ∧ s.operands.depth ≠ 8
  | .malformedContainer =>
    (i = .decodeImage ∨ i = .serialize) ∧ s.operands.barch.wellShaped = false ∨
    i = .deserialize ∧ ContainerMalformed s.magic s.src
  | .decodeUnderrun =>
    i = .brPull ∧ (unreadBits s.src s.reader).length < s.operands.nbits.toNat ∨
    i = .decodeRow ∧ RowUnderruns s.operands.width.toNat s.src ∨
    i = .decodeImage ∧ ∃ p ∈ s.operands.barch.flags.zip s.operands.barch.lines, p.1 = true ∧
      RowUnderruns s.operands.barch.width.toNat p.2

/-- A line of an image fails because it is packed and cut short, or because it is raw and has not `W` bytes (R122, R135). -/
theorem lineRows_error_cause {m : BarchImage} {e : ErrorKind}
    (h : lineRows m.width.toNat (m.flags.zip m.lines) = .error e) :
    (e = .decodeUnderrun ∧ ∃ p ∈ m.flags.zip m.lines, p.1 = true ∧ RowUnderruns m.width.toNat p.2) ∨
      (e = .malformedContainer ∧ m.wellShaped = false) := by
  obtain ⟨p, hp, hline⟩ := lineRows_error h
  obtain ⟨hflag, rfl⟩ | ⟨hflag, hlen, rfl⟩ := lineRow_error hline
  · rw [hflag] at hline
    exact .inl ⟨rfl, p, hp, hflag, lineRow_underruns.mp hline⟩
  · refine .inr ⟨rfl, Bool.eq_false_of_not_eq_true fun hm => hlen ?_⟩
    exact rawLinesFit_iff.mp (BarchImage.wellShaped_iff.mp hm).2 p hp hflag

theorem commandStatus_error_cause {i : Instr} {s : State} {e : ErrorKind} (h : commandStatus s i = .next (.error e)) :
    ErrorCause i s e := by
  cases i <;> simp only [commandStatus] at h
  case white | black | lit1 | lit2 | lit3 | lit4 | bwReset | bwFlush | brOpen => cases h
  case bwPush | classify =>
    split_ifs at h
    cases h
  case brPull =>
    split_ifs at h with hn hlt <;> cases h
    exact .inl ⟨rfl, hlt⟩
  case encodeRow =>
    split_ifs at h with h0 <;> cases h
    exact .inl ⟨.inl rfl, BitVec.eq_of_toNat_eq h0⟩
  case decodeRow =>
    split_ifs at h with h0
    · cases h
      exact .inl ⟨.inr rfl, BitVec.eq_of_toNat_eq h0⟩
    · have hrow := readStatus_eq_error.mp h
      obtain ⟨-, rfl⟩ | ⟨hflag, -⟩ := lineRow_error hrow
      · exact .inr (.inl ⟨rfl, lineRow_underruns.mp hrow⟩)
      · cases hflag
  case encodeImage =>
    split_ifs at h with h0 hd <;> cases h
    · exact .inr (.inl ⟨rfl, h0.imp BitVec.eq_of_toNat_eq BitVec.eq_of_toNat_eq⟩)
    · exact ⟨rfl, hd⟩
  case decodeImage =>
    split_ifs at h with h0 hc
    · cases h
      exact .inr (.inr (.inl ⟨.inl rfl, h0.imp BitVec.eq_of_toNat_eq BitVec.eq_of_toNat_eq⟩))
    · obtain ⟨rfl, hline⟩ | ⟨rfl, hm⟩ := lineRows_error_cause (readStatus_eq_error.mp h)
      · exact .inr (.inr ⟨rfl, hline⟩)
      · exact .inl ⟨.inl rfl, hm⟩
    · cases h
      exact .inl ⟨.inl rfl, Bool.eq_false_of_not_eq_true fun hm => hc (BarchImage.wellShaped_iff.mp hm).1⟩
  case serialize =>
    split_ifs at h with h0 hm <;> cases h
    · exact .inr (.inr (.inl ⟨.inr rfl, h0.imp BitVec.eq_of_toNat_eq BitVec.eq_of_toNat_eq⟩))
    · exact .inl ⟨.inr rfl, Bool.eq_false_of_not_eq_true hm⟩
  case deserialize =>
    obtain ⟨rfl, hdims⟩ | ⟨rfl, hbad⟩ := readContainer_error (readStatus_eq_error.mp h)
    · exact .inr (.inr (.inr ⟨rfl, hdims⟩))
    · exact .inr ⟨rfl, hbad⟩

/-! ### The cause of a refusal -/

/-- A command is refused for its bit count, its row's length or its image's shape, or for a BitWriter out of range (R171). -/
theorem commandStatus_refused_cause {i : Instr} {s : State} {r : Refusal} (hc : i.isCommand = true)
    (h : commandStatus s i = .refused r) :
    r = .badBitCount ∧ (i = .bwPush ∨ i = .brPull) ∧ legalBitCount s.operands.nbits = false ∨
    r = .rowLengthMismatch ∧ (i = .classify ∨ i = .encodeRow) ∧ s.src.length ≠ s.operands.width.toNat ∨
    r = .rasterShape ∧ i = .encodeImage ∧ s.operands.raster.wellShaped = false ∨
    r = .writerInvariant ∧ i = .bwPush ∧ ¬ s.writer.InRange := by
  cases i <;> simp only [commandStatus] at h
  case white | black | lit1 | lit2 | lit3 | lit4 => cases hc
  case bwReset | bwFlush | brOpen => cases h
  case serialize => split_ifs at h
  case deserialize => exact absurd h (readStatus_ne_refused _ _)
  case bwPush =>
    split_ifs at h with hn hw
    · cases h
      exact .inr (.inr (.inr ⟨rfl, rfl, hw⟩))
    · cases h
      exact .inl ⟨rfl, .inl rfl, Bool.eq_false_of_not_eq_true hn⟩
  case brPull =>
    split_ifs at h with hn
    cases h
    exact .inl ⟨rfl, .inr rfl, Bool.eq_false_of_not_eq_true hn⟩
  case classify =>
    split_ifs at h with hl
    cases h
    exact .inr (.inl ⟨rfl, .inl rfl, hl⟩)
  case encodeRow =>
    split_ifs at h with h0 hl
    cases h
    exact .inr (.inl ⟨rfl, .inr rfl, hl⟩)
  case decodeRow =>
    split_ifs at h
    exact absurd h (readStatus_ne_refused _ _)
  case encodeImage =>
    split_ifs at h with h0 hd hs
    cases h
    exact .inr (.inr (.inl ⟨rfl, rfl, Bool.eq_false_of_not_eq_true hs⟩))
  case decodeImage =>
    split_ifs at h
    exact absurd h (readStatus_ne_refused _ _)

/-- Settles O47: every status comes from the command's checks, and each check that fails is a cause of the table. -/
theorem commandResultTable : Obligations.CommandResultTable := by
  refine fun i s hc h1 h8 => ⟨fun t ht hbad => ?error, fun r hr => ?refused⟩
  case error =>
    cases hst : t.results.status with
    | ok => exact absurd hst hbad
    | error e =>
      have hcause := commandStatus_error_cause ((exec_status_error_iff hc).mp ⟨t, ht, hst⟩)
      cases e with
      | invalidDimensions => exact .inl ⟨rfl, hcause⟩
      | unsupportedSampleDepth => exact .inr (.inl ⟨rfl, hcause⟩)
      | malformedContainer => exact .inr (.inr (.inl ⟨rfl, hcause⟩))
      | decodeUnderrun => exact .inr (.inr (.inr ⟨rfl, hcause⟩))
  case refused =>
    obtain hn | hl | hs | ⟨-, -, hw⟩ := commandStatus_refused_cause hc ((exec_refused_iff hc).mp hr)
    · exact .inl hn
    · exact .inr (.inl hl)
    · exact .inr (.inr hs)
    · exact absurd ⟨h1, h8⟩ hw

/-! ### What an error leaves -/

/-- Settles O48: every error goes through the shared entry, in which only the latched operands are the command's own. -/
theorem errorEntryLeavesOnlyTheStatus : Obligations.ErrorEntryLeavesOnlyTheStatus := by
  intro i s t e hc h he
  obtain ⟨hi, l, hl, rfl⟩ | ⟨rfl, rfl⟩ := exec_error hc h he
  · exact ⟨rfl, rfl, rfl, rfl, rfl, rfl, hl, (if_neg hi).symm, rfl, rfl, rfl, rfl, rfl, rfl, rfl, rfl, rfl⟩
  · have hl : LatchedBy .brPull s s.latched := by simp [LatchedBy]
    exact ⟨rfl, rfl, rfl, rfl, rfl, rfl, hl, rfl, rfl, rfl, rfl, rfl, rfl, rfl, rfl, rfl, rfl⟩

/-- The checks come out alike from equal inputs, and for BW.PUSH and BR.PULL an equal BitWriter or BitReader. -/
theorem commandStatus_congr {i : Instr} {s t : State} (hop : t.operands = s.operands) (hsrc : t.src = s.src)
    (hmagic : t.magic = s.magic) (hw : i = .bwPush → t.writer = s.writer) (hr : i = .brPull → t.reader = s.reader) :
    commandStatus t i = commandStatus s i := by
  cases i
  case bwPush => simp only [commandStatus, hop, hw rfl]
  case brPull => simp only [commandStatus, hop, hsrc, hr rfl]
  all_goals simp only [commandStatus, hop, hsrc, hmagic]

/-- Settles O50: an error keeps all that the failed command's checks look at. -/
theorem retryFailsTheSameWay : Obligations.RetryFailsTheSameWay := by
  intro i s t e hc h he
  have hstatus : commandStatus s i = .next (.error e) := (exec_status_error_iff hc).mp ⟨t, h, he⟩
  have hin := exec_inputs h
  refine (exec_status_error_iff hc).mpr ((commandStatus_congr hin.operands hin.src hin.magic ?_ ?_).trans hstatus)
  · rintro rfl
    rw [execBwPush_status h] at he
    cases he
  · rintro rfl
    obtain ⟨hi, -⟩ | ⟨-, rfl⟩ := exec_error hc h he
    · exact absurd rfl hi
    · rfl

end Sys2Proof.Machine
end

section
/-! PROOFS. Reset: what it leaves between commands, inside a command and in an open row. -/

namespace Sys2Proof.Machine

/-- Settles O8: a reset between commands is `resetMove`, whose registers are R29's and whose phase waits for a move. -/
theorem resetThenWait : Obligations.ResetThenWait :=
  fun s rest hp hi => ⟨s.resetMove rest, step_reset hp hi, .resetMove s rest, rfl, rfl, rfl, fun h => step_wait rfl h⟩

/-- Settles O58: a reset that does not wait is `resetCut`, whichever of a command and an open row it ends. -/
theorem resetEndsTheRunningCommand : Obligations.ResetEndsTheRunningCommand :=
  fun s rest h =>
    ⟨s.resetCut rest, step_cut h, .resetCut s rest, rfl, rfl, rfl, rfl, rfl, fun h => step_wait rfl h⟩

end Sys2Proof.Machine
end

section
/-! PROOFS. The RowDecoder on a smaller width: a row's windows are full but for the last, and a shorter window reads the same
kind of symbol with a part of its samples. -/

namespace Sys2Proof.Machine

/-- Where a symbol of `k` samples stands, a symbol of any fewer samples is read: the first of those samples, in no more bits
(R54, R57). -/
theorem decodeSymbol_narrower {k k' : Nat} {bits rest : Bits} {i : Instr} (hk : 1 ≤ k' ∧ k' ≤ k)
    (h : decodeSymbol k bits = .ok (i, rest)) :
    ∃ i' rest', decodeSymbol k' bits = .ok (i', rest') ∧ samplesOf k' i' = (samplesOf k i).take k' ∧
      (symbolBits i').length ≤ (symbolBits i).length := by
  obtain ⟨-, -, hlen, -, h4⟩ := decodeSymbol_ok h
  have hk' : 1 ≤ k' ∧ k' ≤ 4 := ⟨hk.1, hk.2.trans h4⟩
  rcases decodeSymbol_cases h with ⟨rfl, rfl⟩ | ⟨rfl, rfl⟩ | ⟨-, -, hsym, rfl⟩
  · exact ⟨.white, rest, decodeSymbol_white hk' rest, by simp [samplesOf, hk.2], Nat.le_refl _⟩
  · exact ⟨.black, rest, decodeSymbol_black hk' rest, by simp [samplesOf, hk.2], Nat.le_refl _⟩
  · have hfew : ((samplesOf k i).take k').length = k' := by rw [List.length_take, hlen]; omega
    obtain ⟨j, hj⟩ := literalOf_isSome _ (hfew.symm ▸ hk'.1) (hfew.symm ▸ hk'.2)
    obtain ⟨hsym', hsamples, -⟩ := literalOf_facts hj k'
    have hread := decodeSymbol_literal hj (bitsOfBytes ((samplesOf k i).drop k') ++ rest)
    rw [hfew, ← List.append_assoc, ← bitsOfBytes_append, List.take_append_drop] at hread
    refine ⟨j, _, hread, hsamples, ?_⟩
    rw [hsym', hsym]
    simp only [List.length_cons, bitsOfBytes_length, hfew, hlen]
    omega

/-- A row is read window by window. -/
theorem decodeMany_cons_eq_ok {k : Nat} {ks : List Nat} {bits rest : Bits} {is : List Instr} :
    decodeMany (k :: ks) bits = .ok (is, rest) ↔
      ∃ i js mid, decodeSymbol k bits = .ok (i, mid) ∧ decodeMany ks mid = .ok (js, rest) ∧ is = i :: js := by
  constructor
  · intro h
    simp only [decodeMany] at h
    split at h
    · cases h
    · split at h
      · cases h
      · cases h
        exact ⟨_, _, _, ‹_›, ‹_›, rfl⟩
  · rintro ⟨i, js, mid, hi, hjs, rfl⟩
    simp only [decodeMany, hi, hjs]

@[simp] theorem samplesOfRow_cons (k : Nat) (ks : List Nat) (i : Instr) (is : List Instr) :
    samplesOfRow (k :: ks) (i :: is) = samplesOf k i ++ samplesOfRow ks is := rfl

/-- Where the symbols of a row of `w` samples stand, those of a row of any fewer samples are read: the first of those samples,
in no more bits. -/
theorem decodeMany_narrower {w w' : Nat} {bits rest : Bits} {is : List Instr} (hw : w' ≤ w)
    (h : decodeMany (rowWindows w) bits = .ok (is, rest)) :
    ∃ is' rest', decodeMany (rowWindows w') bits = .ok (is', rest') ∧
      samplesOfRow (rowWindows w') is' = (samplesOfRow (rowWindows w) is).take w' ∧
      (is'.flatMap symbolBits).length ≤ (is.flatMap symbolBits).length := by
  induction w using Nat.strongRecOn generalizing w' bits is with
  | ind w ih =>
    by_cases h0 : w' = 0
    · subst h0; exact ⟨[], bits, rfl, rfl, Nat.zero_le _⟩
    · rw [rowWindows_pos (w := w) (by omega)] at h ⊢
      rw [rowWindows_pos (w := w') (by omega)]
      obtain ⟨i, js, mid, hi, hjs, rfl⟩ := decodeMany_cons_eq_ok.mp h
      obtain ⟨-, -, hlen, -⟩ := decodeSymbol_ok hi
      simp only [samplesOfRow_cons, List.take_append, hlen, List.flatMap_cons, List.length_append]
      by_cases h4 : w' ≤ 4
      · obtain ⟨i', mid', hi', hsamples, hbits⟩ := decodeSymbol_narrower (k' := min 4 w') (by omega) hi
        have hlast : rowWindows (w' - 4) = [] := by rw [Nat.sub_eq_zero_of_le h4, rowWindows_zero]
        rw [hlast]
        refine ⟨[i'], mid', decodeMany_cons_eq_ok.mpr ⟨i', [], mid', hi', rfl, rfl⟩, ?_, ?_⟩
        · rw [samplesOfRow_cons, hsamples, Nat.min_eq_right h4, show w' - min 4 w = 0 by omega]; rfl
        · rw [List.flatMap_singleton]; omega
      · have hfull : min 4 w = 4 ∧ min 4 w' = 4 := by omega
        rw [hfull.1] at hi hlen ⊢
        rw [hfull.2]
        obtain ⟨js', rest', hjs', hsamples, hbits⟩ := ih (w - 4) (by omega) (w' := w' - 4) (by omega) hjs
        refine ⟨i :: js', rest', decodeMany_cons_eq_ok.mpr ⟨i, js', mid, hi, hjs', rfl⟩, ?_, ?_⟩
        · rw [samplesOfRow_cons, hsamples, List.take_of_length_le (l := samplesOf 4 i) (by omega)]
        · rw [List.flatMap_cons, List.length_append]; omega

/-- Settles O33: the decoder reads the shorter row off the bits of the longer one. -/
theorem smallerWidthDecodesAPrefix : Obligations.SmallerWidthDecodesAPrefix := by
  intro s s' t h hok hsrc h0 hle
  obtain ⟨-, is, rest, hd, hdec⟩ := execDecodeRow_ok h hok
  obtain ⟨is', rest', hd', hsamples, hbits⟩ := decodeMany_narrower hle hd
  rw [← hsrc] at hd'
  obtain ⟨u, hu, hdec'⟩ := execDecodeRow_reads h0 hd'
  refine ⟨u, hu, hdec'.status, by rw [hdec'.dst, hdec.dst, hsamples], ?_⟩
  rw [hdec'.consumed, hdec.consumed, ceilDiv, ceilDiv]
  omega

end Sys2Proof.Machine
end

section
/-! PROOFS. The commands above the BitPacker level answer a function of their operands, SRC and MAGIC. -/

namespace Sys2Proof.Machine

/-! ### What each command answers when it ends OK -/

/-- A command that ends OK has passed its checks. -/
theorem commandStatus_of_ok {i : Instr} {s t : State} (hc : i.isCommand = true) (h : exec i s = .next t)
    (hok : t.results.status = .ok) : commandStatus s i = .next .ok := by
  rw [← exec_statusOf hc]
  exact statusOf_eq_next.mpr ⟨t, h, hok⟩

/-- ENCODE_IMAGE answers the flag and the line of each row (R131). -/
theorem execEncodeImage_ok {s t : State} (h : exec .encodeImage s = .next t) (hok : t.results.status = .ok) :
    ∃ lines, List.Forall₂ EncodedLine s.operands.raster.rows lines ∧ t.results.resBarch =
      { width := s.operands.raster.width, height := s.operands.raster.height,
        flags := s.operands.raster.rows.map fun row => (classifyRow row).verdict, lines := lines } := by
  have hst := commandStatus_of_ok rfl h hok
  simp only [commandStatus] at hst
  split_ifs at hst with h0 hd hs <;> cases hst
  obtain ⟨hw, hh⟩ := not_or.mp h0
  obtain ⟨u, lines, hu, hl, -⟩ := execEncodeImage_spec s hw hh (not_not.mp hd) hs
  rw [hu] at h
  cases h
  exact ⟨lines, hl, rfl⟩

/-- DECODE_IMAGE answers what its lines decode to (R134). -/
theorem execDecodeImage_ok {s t : State} (h : exec .decodeImage s = .next t) (hok : t.results.status = .ok) :
    ∃ rows, lineRows s.operands.barch.width.toNat (s.operands.barch.flags.zip s.operands.barch.lines) = .ok rows ∧
      t.results.resRaster = { width := s.operands.barch.width, height := s.operands.barch.height, rows := rows } := by
  have hst := commandStatus_of_ok rfl h hok
  simp only [commandStatus] at hst
  split_ifs at hst with h0 hc
  · cases hst
  · obtain ⟨hw, hh⟩ := not_or.mp h0
    have hspec := execDecodeImage_spec s hw hh hc
    cases hl : lineRows s.operands.barch.width.toNat (s.operands.barch.flags.zip s.operands.barch.lines) with
    | error e => rw [hl] at hst; cases hst
    | ok rows =>
      rw [hl] at hspec
      obtain ⟨u, hu, -⟩ := hspec
      rw [hu] at h
      cases h
      exact ⟨rows, rfl, rfl⟩
  · cases hst

/-- SERIALIZE answers the image's container (R145, R148). -/
theorem execSerialize_ok {s t : State} (h : exec .serialize s = .next t) (hok : t.results.status = .ok) :
    t.dst = containerBytes s.magic s.operands.barch := by
  have hst := commandStatus_of_ok rfl h hok
  simp only [commandStatus] at hst
  split_ifs at hst with h0 hm <;> cases hst
  obtain ⟨hw, hh⟩ := not_or.mp h0
  rw [execSerialize_wellShaped hw hh hm] at h
  cases h
  rfl

/-! ### One answer for equal inputs: two runs of a command that end OK -/

/-- A row is made into one line only: a line is known by its bits. -/
theorem EncodedLine.rightUnique : Relator.RightUnique EncodedLine := by
  intro row line line' h h'
  unfold EncodedLine at h h'
  split_ifs at h h'
  · exact bitsOfBytes_injective (h.trans h'.symm)
  · exact h.trans h'.symm

section
variable {s s' t t' : State}

theorem execEncodeRow_dst_congr (hsrc : s.src = s'.src) (h : exec .encodeRow s = .next t)
    (h' : exec .encodeRow s' = .next t') (hok : t.results.status = .ok) (hok' : t'.results.status = .ok) :
    t'.dst = t.dst := by
  obtain ⟨-, -, hbits⟩ := execEncodeRow_ok h hok
  obtain ⟨-, -, hbits'⟩ := execEncodeRow_ok h' hok'
  exact bitsOfBytes_injective (by rw [hbits, hbits', hsrc])

theorem execDecodeRow_congr (hsrc : s.src = s'.src) (hop : s.operands = s'.operands) (h : exec .decodeRow s = .next t)
    (h' : exec .decodeRow s' = .next t') (hok : t.results.status = .ok) (hok' : t'.results.status = .ok) :
    t'.dst = t.dst ∧ t'.results.resConsumed = t.results.resConsumed := by
  obtain ⟨-, is, rest, hd, hdec⟩ := execDecodeRow_ok h hok
  obtain ⟨-, is', rest', hd', hdec'⟩ := execDecodeRow_ok h' hok'
  rw [← hsrc, ← hop, hd] at hd'
  cases hd'
  exact ⟨by rw [hdec'.dst, hdec.dst, hop], hdec'.consumed.trans hdec.consumed.symm⟩

theorem execEncodeImage_congr (hop : s.operands = s'.operands) (h : exec .encodeImage s = .next t)
    (h' : exec .encodeImage s' = .next t') (hok : t.results.status = .ok) (hok' : t'.results.status = .ok) :
    t'.results.resBarch = t.results.resBarch := by
  obtain ⟨lines, hl, hm⟩ := execEncodeImage_ok h hok
  obtain ⟨lines', hl', hm'⟩ := execEncodeImage_ok h' hok'
  rw [← hop] at hl' hm'
  rw [hm, hm', List.right_unique_forall₂' EncodedLine.rightUnique hl hl']

theorem execDecodeImage_congr (hop : s.operands = s'.operands) (h : exec .decodeImage s = .next t)
    (h' : exec .decodeImage s' = .next t') (hok : t.results.status = .ok) (hok' : t'.results.status = .ok) :
    t'.results.resRaster = t.results.resRaster := by
  obtain ⟨rows, hl, hm⟩ := execDecodeImage_ok h hok
  obtain ⟨rows', hl', hm'⟩ := execDecodeImage_ok h' hok'
  rw [← hop] at hl' hm'
  cases hl.symm.trans hl'
  exact hm'.trans hm.symm

theorem execDeserialize_congr (hsrc : s.src = s'.src) (hmagic : s.magic = s'.magic) (h : exec .deserialize s = .next t)
    (h' : exec .deserialize s' = .next t') (hok : t.results.status = .ok) (hok' : t'.results.status = .ok) :
    t'.results.resBarch = t.results.resBarch := by
  have hread := execDeserialize_ok h hok
  rw [hsrc, hmagic, execDeserialize_ok h' hok'] at hread
  exact Except.ok.inj hread

end

theorem Instr.isCommand_of_aboveBitPacker {i : Instr} (h : i.aboveBitPacker = true) : i.isCommand = true := by
  cases i with
  | white | black | lit1 | lit2 | lit3 | lit4 => cases h
  | _ => rfl

/-- The checks of a command above the BitPacker level look at neither the BitWriter nor the BitReader. -/
theorem commandStatus_congr_above {i : Instr} {s s' : State} (hc : i.aboveBitPacker = true) (hsrc : s.src = s'.src)
    (hop : s.operands = s'.operands) (hmagic : s.magic = s'.magic) : commandStatus s' i = commandStatus s i :=
  commandStatus_congr hop.symm hsrc.symm hmagic.symm (by rintro rfl; cases hc) (by rintro rfl; cases hc)

/-- Settles O49: the checks give both runs one status or one refusal, and each command's answer is that of its inputs. -/
theorem commandsAboveBitPackerAreStateless : Obligations.CommandsAboveBitPackerAreStateless := by
  intro i s s' habove hsrc hop hmagic
  have hc := Instr.isCommand_of_aboveBitPacker habove
  have hchecks := commandStatus_congr_above habove hsrc hop hmagic
  refine ⟨fun r hr => ?refused, fun t ht => ?next⟩
  case refused => exact (exec_refused_iff hc).mpr (hchecks.trans ((exec_refused_iff hc).mp hr))
  case next =>
    have hst : statusOf (exec i s') = .next t.results.status := by
      rw [exec_statusOf hc, hchecks, ← exec_statusOf hc, ht]; rfl
    obtain ⟨t', ht', hst'⟩ := statusOf_eq_next.mp hst
    refine ⟨t', ht', hst', fun hok => ?_⟩
    have hok' : t'.results.status = .ok := hst'.trans hok
    refine ⟨?classify, ?dst, ?decodeRow, ?barch, ?raster⟩
    case classify => rintro rfl; rw [execClassify_resFlag ht, execClassify_resFlag ht', hsrc]
    case dst =>
      rintro (rfl | rfl)
      · exact execEncodeRow_dst_congr hsrc ht ht' hok hok'
      · rw [execSerialize_ok ht hok, execSerialize_ok ht' hok', hmagic, hop]
    case decodeRow => rintro rfl; exact execDecodeRow_congr hsrc hop ht ht' hok hok'
    case barch =>
      rintro (rfl | rfl)
      · exact execEncodeImage_congr hop ht ht' hok hok'
      · exact execDeserialize_congr hsrc hmagic ht ht' hok hok'
    case raster => rintro rfl; exact execDecodeImage_congr hop ht ht' hok hok'

end Sys2Proof.Machine
end
